-- ==== Sys2Proof/Word.lean ====
section
/-! DEFINITION. The word types of DSEQ: the widths that rule R7 of spec/00_scope.md fixes (SP: R33, 17 bits). -/

namespace Sys2Proof

/-- A script byte, an argument byte, a channel sample or a LUT entry (R7). -/
abbrev Byte := BitVec 8

/-- A host register (R7). -/
abbrev Word := BitVec 32

/-- A packed RGB565 pixel word (R7). -/
abbrev Pixel := BitVec 16

/-- The script pointer SP, 17 bits so that it can hold 65536 (R33, D34). -/
abbrev ScriptPtr := BitVec 17

/-- A host byte address (R7). -/
abbrev Addr := BitVec 24

end Sys2Proof
end

