-- ==== Sys2Proof/Config.lean ====
section
/-! DEFINITION. What an implementation fixes (the parameters of R6, the fixed numbers of R3 and R6), and the free
values: opaque constants about which nothing can be proved, so that a claim holds whatever they are. -/

namespace Sys2Proof

/-- AWB_ROUND, the rounding of the LUT entries (R6, R85). -/
inductive Rounding where
  | halfEven
  | halfUp
  | trunc
  deriving DecidableEq, Repr

/-- IN_ORDER, the channel order of the raw frame bytes (R6, R44). -/
inductive ChannelOrder where
  | rgb
  | bgr
  deriving DecidableEq, Repr

/-- The implementation parameters of R6. They are plain data, so a statement about every state is a statement about every
choice of them; no step changes them. -/
structure Params where
  /-- W, the display window width in pixels. -/
  width : Nat
  /-- H, the display window height in pixels. -/
  height : Nat
  /-- SCRIPT_ROM, the bytes of the script memory; SCRIPT_ROM_BYTES is its length (R35, R47). -/
  rom : List Byte
  /-- INIT_SCRIPT_OFFSET (R79). -/
  initScriptOffset : Nat
  /-- WINDOW_SCRIPT_OFFSET (R79). -/
  windowScriptOffset : Nat
  /-- RAMWR_OPCODE, the byte BEGIN_RAM_WRITE sends (R80). -/
  ramwrOpcode : Byte
  /-- AWB_ROUND (R85). -/
  awbRound : Rounding
  /-- IN_ORDER (R44). -/
  inOrder : ChannelOrder
  /-- MAX_SPEED_HZ (R67): the rate achieved on SCLK is not observed, so no rule reads it. -/
  maxSpeedHz : Nat
  /-- RST_ACTIVE_LEVEL (R113): the host's, DSEQ does not read it. -/
  rstActiveLevel : Bool
  /-- T_RST_ASSERT_MS (R113): the host's, DSEQ does not read it. -/
  rstAssertMs : Nat
  /-- T_RST_RECOVER_MS (R113): the host's, DSEQ does not read it. -/
  rstRecoverMs : Nat
  deriving DecidableEq, Repr

/-- P, the pixel count (R6). -/
def Params.pixels (p : Params) : Nat := p.width * p.height

/-- RAW_BYTES (R6). -/
def Params.rawBytes (p : Params) : Nat := 3 * p.pixels

/-- FB_BYTES (R6). -/
def Params.fbBytes (p : Params) : Nat := 2 * p.pixels

/-- SCRIPT_ROM_BYTES (R6). -/
def Params.romBytes (p : Params) : Nat := p.rom.length

/-- The constraints R6 puts on the parameters. -/
def Params.wf (p : Params) : Bool :=
  decide (1 ≤ p.width) && decide (p.width ≤ 65535) && decide (1 ≤ p.height) && decide (p.height ≤ 65535)
    && decide (p.rawBytes ≤ 0x100000) && decide (p.fbBytes ≤ 0x100000) && decide (255 * p.pixels < 2 ^ 32)
    && decide (1 ≤ p.romBytes) && decide (p.romBytes ≤ 65536)
    && decide (p.initScriptOffset < p.romBytes) && decide (p.windowScriptOffset < p.romBytes)
    && decide (p.ramwrOpcode ≠ 0)

namespace Config

/-- BLOCK_BYTES, the frame transfer block size (R6, R82). -/
def blockBytes : Nat := 4096

/-- RETRY_MAX, the attempts of one transaction (R6, R70). -/
def retryMax : Nat := 3

/-- RETRY_WAIT_MS, the wait between two attempts (R6, R70). -/
def retryWaitMs : Nat := 1

/-- LONG_DELAY_CODE, the delay byte that means LONG_DELAY_MS (R6, R54). -/
def longDelayCode : Byte := 255

/-- LONG_DELAY_MS (R6, R54). -/
def longDelayMs : Nat := 500

/-- TERMINATOR, the opcode value that ends a script (R6, R76). -/
def terminator : Byte := 0

/-- FREE VALUE. The SPI link's answer to the attempt that makes draw number k (R68, U4): a draw under no law. -/
opaque linkAnswer : Nat → Bool

/-- FREE VALUE. What RAW byte `a` reads as while nothing has written it, after the given number of resets (R36, R37, U1): a
function of the byte and the reset, so that a read repeated gives the same (R42, log 6). -/
opaque unwrittenRaw (resets a : Nat) : Byte

/-- FREE VALUE. What FB byte `a` reads as while nothing has written it, after the given number of resets (R36, R37, U1). -/
opaque unwrittenFb (resets a : Nat) : Byte

/-- OPEN parameter: the first byte of SCRIPT_ROM in the state after reset (D13, D31); a ROM has at least one byte. -/
opaque romHead : Byte

/-- OPEN parameter: the other bytes of SCRIPT_ROM in the state after reset (D13, D31). -/
opaque romTail : List Byte

/-- OPEN parameter: from it INIT_SCRIPT_OFFSET is taken, below SCRIPT_ROM_BYTES (R6). -/
opaque initOffset : Nat

/-- OPEN parameter: from it WINDOW_SCRIPT_OFFSET is taken, below SCRIPT_ROM_BYTES (R6). -/
opaque windowOffset : Nat

/-- OPEN parameter: RAMWR_OPCODE less one, so that the opcode is a nonzero byte (R6, D14). -/
opaque ramwrCode : Fin 255

/-- OPEN parameter: MAX_SPEED_HZ (D9). -/
opaque maxSpeedHz : Nat

/-- OPEN parameter: RST_ACTIVE_LEVEL (D30). -/
opaque rstActiveLevel : Bool

/-- OPEN parameter: T_RST_ASSERT_MS (D30). -/
opaque rstAssertMs : Nat

/-- OPEN parameter: T_RST_RECOVER_MS (D30). -/
opaque rstRecoverMs : Nat

/-- The SCRIPT_ROM of the state after reset: OPEN contents, 1 to 65536 bytes (R6). -/
def rom : List Byte := romHead :: romTail.take 65535

end Config

/-- The parameters of the state after reset: W = 320 and H = 240 (the reference values of R6), AWB_ROUND and IN_ORDER as
decisions D17 and D19 default them, and every OPEN parameter an opaque constant. -/
def Params.reference : Params where
  width := 320
  height := 240
  rom := Config.rom
  initScriptOffset := Config.initOffset % Config.rom.length
  windowScriptOffset := Config.windowOffset % Config.rom.length
  ramwrOpcode := BitVec.ofNat 8 (Config.ramwrCode.val + 1)
  awbRound := .halfEven
  inOrder := .rgb
  maxSpeedHz := Config.maxSpeedHz
  rstActiveLevel := Config.rstActiveLevel
  rstAssertMs := Config.rstAssertMs
  rstRecoverMs := Config.rstRecoverMs

end Sys2Proof
end

