-- ==== Sys2Proof/Syntax.lean ====
section
/-! DEFINITION. The instructions of DSEQ: one constructor for each row of spec/opcode_table.json. Three are script entries
(bytes of SCRIPT_ROM, R52), five are host operation words (written to CMD, R58). -/

namespace Sys2Proof

/-- The instructions of spec/opcode_table.json. -/
inductive Instr where
  /-- TERM, the script terminator (R52, R76). -/
  | term
  /-- CMD, a command entry without a trailing delay: opcode and arguments; N is the arguments' count (R52, R77). -/
  | cmd (opc : Byte) (args : List Byte)
  /-- CMD_DLY, a command entry with a trailing delay byte (R52, R78). -/
  | cmdDly (opc : Byte) (args : List Byte) (dly : Byte)
  /-- RUN_SCRIPT, host operation 0x1 (R58, R72). -/
  | runScript
  /-- CONVERT_FRAME, host operation 0x2 (R58, R86). -/
  | convertFrame
  /-- BEGIN_RAM_WRITE, host operation 0x3 (R58, R80). -/
  | beginRamWrite
  /-- SEND_FRAME, host operation 0x4 (R58, R81). -/
  | sendFrame
  /-- HOSTOP_RESERVED, a reserved host operation code (R58, R96). -/
  | hostopReserved (op : BitVec 4)
  deriving DecidableEq, Repr

end Sys2Proof
end

