-- ==== Sys2Proof/WellFormed.lean ====
section
/-! DEFINITION. Which terms of Instr are instructions of the hardware. -/

namespace Sys2Proof

/-- The argument count N is a 7-bit field (R53). -/
def argsWf (args : List Byte) : Bool := decide (args.length ≤ 127)

/-- An opcode is 0x01 to 0xFF: the byte 0x00 at the opcode position is TERM (R52). -/
def opcodeWf (opc : Byte) : Bool := decide (opc ≠ 0)

/-- Reserved host operation codes are 0x0 and 0x5 to 0xF (R58). -/
def reservedOpWf (op : BitVec 4) : Bool := decide (op.toNat = 0 ∨ 5 ≤ op.toNat)

/-- The well-formed instructions: those some encoding of the spec stands for. -/
def Instr.wf : Instr → Bool
  | .term => true
  | .cmd opc args => opcodeWf opc && argsWf args
  | .cmdDly opc args _ => opcodeWf opc && argsWf args
  | .runScript => true
  | .convertFrame => true
  | .beginRamWrite => true
  | .sendFrame => true
  | .hostopReserved op => reservedOpWf op

end Sys2Proof
end

