-- ==== Sys2Proof/Decode.lean ====
section
/-! DEFINITION. Decoding script entries and host operation words (R52 to R58 of spec/30_encoding.md), and after it the
encoder and the assembler of the same encodings (R57, R59). -/

namespace Sys2Proof

/-- N = META[6:0], the argument count (R53). -/
def metaCount (m : Byte) : Nat := (m.extractLsb' 0 7).toNat

/-- DFLAG = META[7], the trailing-delay flag (R53). -/
def metaDelay (m : Byte) : Bool := m.getLsbD 7

/-- Why the bytes at the script pointer are no whole entry: each is a script that runs past the end of SCRIPT_ROM, the
one malformed script there is (R56). It carries what was there, which the sequencer still executes (R77). -/
inductive DecodeError where
  /-- No byte at the opcode position. -/
  | noOpcode
  /-- An opcode, but no META byte after it. -/
  | noMeta (opc : Byte)
  /-- Fewer argument bytes than META asks for: those that are there. -/
  | shortArgs (opc hdr : Byte) (avail : List Byte)
  /-- Every argument, but no DLY byte after them. -/
  | noDelay (opc : Byte) (args : List Byte)
  deriving DecidableEq, Repr

/-- Reads one entry from the bytes at the script pointer and gives the bytes after it (R52, R55). Only the opcode position
is tested for the terminator. -/
def decodeScript : List Byte → Except DecodeError (Instr × List Byte)
  | [] => .error .noOpcode
  | opc :: rest =>
    if opc = Config.terminator then .ok (.term, rest)
    else
      match rest with
      | [] => .error (.noMeta opc)
      | hdr :: body =>
        if (body.take (metaCount hdr)).length < metaCount hdr then .error (.shortArgs opc hdr body)
        else if metaDelay hdr then
          match body.drop (metaCount hdr) with
          | [] => .error (.noDelay opc (body.take (metaCount hdr)))
          | dly :: after => .ok (.cmdDly opc (body.take (metaCount hdr)) dly, after)
        else .ok (.cmd opc (body.take (metaCount hdr)), body.drop (metaCount hdr))

/-- OP = w[3:0] of a word written to CMD (R15, R58). -/
def hostOpField (w : Word) : BitVec 4 := w.extractLsb' 0 4

/-- The host operation a word written to CMD selects; bits 31:4 are ignored (R58). -/
def decodeHostOp (w : Word) : Instr :=
  if hostOpField w = 1 then .runScript
  else if hostOpField w = 2 then .convertFrame
  else if hostOpField w = 3 then .beginRamWrite
  else if hostOpField w = 4 then .sendFrame
  else .hostopReserved (hostOpField w)

/-- What stands for an instruction in one of the two instruction streams: the bytes of a script entry, or the word
written to CMD. -/
inductive Encoding where
  | entry (bytes : List Byte)
  | hostOp (w : Word)
  deriving DecidableEq, Repr

/-- The decoder of both streams. -/
def decode : Encoding → Except DecodeError Instr
  | .entry bytes => (decodeScript bytes).map Prod.fst
  | .hostOp w => .ok (decodeHostOp w)

/-- The META byte for a count of arguments and a delay flag (R53, R57). -/
def encodeMeta (n : Nat) (delay : Bool) : Byte := BitVec.ofBool delay ++ BitVec.ofNat 7 n

/-- The word a host writes to CMD for an operation code: bits 31:4 zero (R58, R60). -/
def encodeHostOp (op : BitVec 4) : Word := op.setWidth 32

/-- The encoder (R52, R57, R58). -/
def encode : Instr → Encoding
  | .term => .entry [Config.terminator]
  | .cmd opc args => .entry (opc :: encodeMeta args.length false :: args)
  | .cmdDly opc args dly => .entry (opc :: encodeMeta args.length true :: (args ++ [dly]))
  | .runScript => .hostOp (encodeHostOp 1)
  | .convertFrame => .hostOp (encodeHostOp 2)
  | .beginRamWrite => .hostOp (encodeHostOp 3)
  | .sendFrame => .hostOp (encodeHostOp 4)
  | .hostopReserved op => .hostOp (encodeHostOp op)

/-- The bytes of a script entry; a host operation has none. -/
def entryBytes (i : Instr) : List Byte :=
  match encode i with
  | .entry bytes => bytes
  | .hostOp _ => []

/-- EncodeScript (R57): the entries' bytes, one after the other. -/
def encodeScript (es : List Instr) : List Byte := es.flatMap entryBytes

/-- Reads entries up to and with the terminator, at most `fuel` of them: the inverse of EncodeScript. -/
def decodeEntries : Nat → List Byte → Except DecodeError (List Instr)
  | 0, _ => .error .noOpcode
  | fuel + 1, bytes =>
    match decodeScript bytes with
    | .error e => .error e
    | .ok (.term, _) => .ok [.term]
    | .ok (i, rest) => (decodeEntries fuel rest).map (i :: ·)

/-- DelayMs (R54): code 255 means 500 ms, every other code its own number of milliseconds. -/
def delayMs (d : Byte) : Nat := if d = Config.longDelayCode then Config.longDelayMs else d.toNat

/-- The DLY byte the assembler writes for a wait of `ms` milliseconds; a wait that no entry can hold is rejected
(R57, R59). -/
def delayByte? (ms : Nat) : Option Byte :=
  if ms = Config.longDelayMs then some Config.longDelayCode
  else if ms ≤ 254 then some (BitVec.ofNat 8 ms)
  else none

/-- The assembler's 'cmd' line (R59, R60): an opcode of 0, more than 127 arguments and a wait that cannot be encoded are
rejected. -/
def assembleCmd (opc : Byte) (args : List Byte) (delay : Option Nat) : Option Instr :=
  if opcodeWf opc && argsWf args then
    match delay with
    | none => some (.cmd opc args)
    | some ms => (delayByte? ms).map (.cmdDly opc args)
  else none

/-- Whether a row of spec/opcode_table.json with `nbits` bits is a host operation word: the table gives those rows 32 bits
and the script entries a header of 16. A row of at most 8 bits is the one-byte TERM where it is zero, and else an operation
code. -/
def tableIsHostOp (nbits w : Nat) : Bool :=
  if nbits ≤ 8 then decide (w % 256 ≠ 0) else decide (16 < nbits)

/-- The bytes of a script entry whose header the table numbers as one 16-bit word: byte +0 in bits 15:8, byte +1 in bits
7:0; every byte after the header, up to the longest entry's 130 (R55), is zero. -/
def tableEntryBytes (nbits w : Nat) : List Byte :=
  if nbits ≤ 8 then BitVec.ofNat 8 w :: List.replicate 129 0
  else BitVec.ofNat 8 (w / 256) :: BitVec.ofNat 8 w :: List.replicate 128 0

/-- The instruction the decoder reads from a row's bits, numbered as spec/opcode_table.json numbers them. -/
def decodeTableWord (nbits w : Nat) : Option Instr :=
  if tableIsHostOp nbits w then some (decodeHostOp (BitVec.ofNat 32 w))
  else
    match decodeScript (tableEntryBytes nbits w) with
    | .ok (i, _) => some i
    | .error _ => none

end Sys2Proof
end

