-- ==== Sys2Proof/Machine/State.lean ====
section
/-! DEFINITION. The state of DSEQ as plain data (R13 to R37 of spec/10_state.md), the reasons a step can stop, and the state
after reset. -/

namespace Sys2Proof.Machine

/-- MODE, the sequencer's mode (R31). STATUS.BUSY and STATUS.FATAL are read from it. -/
inductive Mode where
  | idle
  | run
  | fatalHalt
  deriving DecidableEq, Repr

/-- The four host operations (R15, R58). -/
inductive HostOp where
  | runScript
  | convertFrame
  | beginRamWrite
  | sendFrame
  deriving DecidableEq, Repr

/-- The fatal causes of R97. -/
inductive FatalCause where
  | none
  | cfg
  | cmdXfer
  | argXfer
  | scriptOverrun
  deriving DecidableEq, Repr

/-- The three GPIO output lines (R10, R62). -/
inductive Line where
  | dc
  | rst
  | bl
  deriving DecidableEq, Repr

/-- One bit for each output line: GPIO_OE (R17) or GPIO_OUT (R18). -/
structure Lines where
  dc : Bool
  rst : Bool
  bl : Bool
  deriving DecidableEq, Repr

/-- The level of a pin as the display sees it: 0, 1, or `Z` where the line is not driven (R63). -/
inductive PinLevel where
  | low
  | high
  | z
  deriving DecidableEq, Repr

/-- The events of a trace (R10). -/
inductive Event where
  /-- EvPin(line, latch, driven). -/
  | pin (line : Line) (latch driven : Bool)
  /-- EvAttempt(n, dc, speed, bytes, ok). -/
  | attempt (n : Nat) (dc : PinLevel) (speed : Word) (bytes : List Byte) (ok : Bool)
  /-- EvWait(ms). -/
  | wait (ms : Nat)
  /-- EvFatal(cause). -/
  | fatal (cause : FatalCause)
  deriving DecidableEq, Repr

/-- The width of a host access (R40). -/
inductive Width where
  | w8
  | w16
  | w32
  deriving DecidableEq, Repr

/-- One host access on the bus (R38). -/
inductive Access where
  | read (addr : Addr) (width : Width)
  | write (addr : Addr) (width : Width) (data : Word)
  deriving DecidableEq, Repr

/-- What the outside world does next. The host's program is the list of these in State, oldest first, so the list decides
how the host's accesses and the sequencer's moves interleave. -/
inductive HostEvent where
  /-- A bus access (R38). -/
  | access (a : Access)
  /-- The `rst` input is asserted (R110). -/
  | reset
  /-- The host leaves the sequencer one move. -/
  | pass
  /-- The host's `poll` (R59): it reads STATUS until BUSY = 0. -/
  | poll
  deriving DecidableEq, Repr

/-- What the host gets back from an access: the data of a read, or the error response of R39. -/
inductive Response where
  | data (v : Word)
  | busError
  deriving DecidableEq, Repr

/-- Memory as a list of (address, byte) pairs: an unlisted address holds no written byte. A byte's "written" bit (R36) is
whether its address is listed. -/
abbrev Memory := List Host.Cell

/-- The canonical form: addresses strictly rising. (An unlisted address reads as no value, so no entry can equal it.) -/
def Memory.wf (m : Memory) : Bool :=
  match m with
  | [] => true
  | [_] => true
  | (a, _) :: (b, y) :: rest => decide (a < b) && Memory.wf ((b, y) :: rest)

/-- The model faults of R102. Each is recorded in State's `faults` when it happens and never cleared, and `step` stops with
the first one recorded. All three are SAFE: nothing can be proved of a run after one. -/
inductive Fault where
  /-- BUS_ERR: a host access that draws a bus error (R39). Raised by `step` after `hostAccess` recorded it. Safe. -/
  | busErr
  /-- UNINIT_READ: the sequencer read a RAW or FB byte that nothing wrote (R36). Raised by `step` after `readRawByte` or
  `readFbByte` recorded it. Safe. -/
  | uninitRead
  /-- HAZARD: the host broke a rule of R116, R117 or R118. Raised by `step` after `hostAccess` recorded it. Safe. -/
  | hazard
  deriving DecidableEq, Repr

/-- Why a step gives an instruction no meaning. -/
inductive Refusal where
  /-- Raised by an arm of `exec` for an instruction that has no meaning in the model; no arm does. Safe. -/
  | notModelled (mnemonic : String)
  deriving DecidableEq, Repr

/-- The state of DSEQ, and with it the environment's plain data (`host`, `answers`, `draws`, `resets`, `trace`,
`responses`, `faults`). -/
structure State where
  /-- The implementation parameters, SCRIPT_ROM among them (R6, R35). No step changes them. -/
  cfg : Params
  /-- MODE (R31); STATUS.BUSY and STATUS.FATAL are read from it. -/
  mode : Mode
  /-- STATUS.CMD_ERR (R16). -/
  cmdErr : Bool
  /-- STATUS.DONE (R16). -/
  done : Bool
  /-- STATUS.FATAL_CAUSE (R16, R97). -/
  fatalCause : FatalCause
  /-- STATUS.LAST_OP (R16). -/
  lastOp : BitVec 4
  /-- GPIO_OE (R17). -/
  gpioOe : Lines
  /-- GPIO_OUT, the output latches (R18). -/
  gpioOut : Lines
  /-- SPEED_HZ (R19). -/
  speedHz : Word
  /-- DATA_SPEED_HZ (R20). -/
  dataSpeedHz : Word
  /-- SCRIPT_START (R22). -/
  scriptStart : BitVec 16
  /-- SP, which SCRIPT_PTR shows (R23, R33). -/
  sp : ScriptPtr
  /-- FAULT_BYTE (R24). -/
  faultByte : Byte
  /-- SKIP_COUNT (R25). -/
  skipCount : Word
  /-- FRAME_COUNT (R26). -/
  frameCount : Word
  /-- SUM_R (R28). -/
  sumR : Word
  /-- SUM_G (R28). -/
  sumG : Word
  /-- SUM_B (R28). -/
  sumB : Word
  /-- LUT_R (R29). -/
  lutR : Vector Byte 256
  /-- LUT_G (R29). -/
  lutG : Vector Byte 256
  /-- LUT_B (R29). -/
  lutB : Vector Byte 256
  /-- RAW (R35, R36, R44). -/
  raw : Memory
  /-- FB (R35, R36, R45). -/
  fb : Memory
  /-- OP, the running operation (R31). -/
  op : HostOp
  /-- N, the argument count (R31). -/
  n : BitVec 7
  /-- DFLAG (R31). -/
  dflag : Bool
  /-- ARGI, the argument index (R31). -/
  argi : Nat
  /-- OFF, the frame-block offset (R31). -/
  off : Nat
  /-- ATT, the attempt counter (R31). -/
  att : Nat
  /-- SPD_CMD, the latched command speed (R34). -/
  spdCmd : Word
  /-- SPD_DATA, the latched data speed (R34). -/
  spdData : Word
  /-- PIXK, the converter's pixel index (R31). -/
  pixk : Nat
  /-- CS_N, the chip select pin: false while it is asserted, during one attempt (R66). -/
  csN : Bool
  /-- SCLK between the bits of a burst: low, mode 0 (R66). -/
  sclk : Bool
  /-- The internal millisecond timer: the lower bound of the Wait in progress (R71, R105). -/
  timer : Option Nat
  /-- The trace (R10), oldest event first; it begins at reset (R110). -/
  trace : List Event
  /-- The model's own: the accesses and other acts of the host that are still to come, oldest first. -/
  host : List HostEvent
  /-- The model's own: what the host's accesses gave back, oldest first. -/
  responses : List Response
  /-- The model's own: the SPI link's answers that are given beforehand, the next first; after them each answer is the free
  value `Config.linkAnswer`. -/
  answers : List Bool
  /-- The model's own: how many draws the link has made, the argument of the free value `Config.linkAnswer`. -/
  draws : Nat
  /-- The model's own: how many times `rst` was asserted. An unwritten byte of RAW or FB is unspecified anew after each reset
  (R37), so it is an argument of the free values `Config.unwrittenRaw` and `Config.unwrittenFb`. -/
  resets : Nat
  /-- The model faults recorded (R102), oldest first. -/
  faults : List Fault
  deriving DecidableEq, Repr

/-- The identity LUT, its reset value (R29). -/
def identityLut : Vector Byte 256 := Vector.ofFn fun i => BitVec.ofNat 8 i.val

/-- No line set: GPIO_OE and GPIO_OUT after reset (R37). -/
def Lines.none : Lines := ⟨false, false, false⟩

/-- The state after reset for given parameters (R37). The internal sequencer state, which R37 leaves unspecified, is
zero (ATT one, OP RUN_SCRIPT); no rule reads it before an operation writes it. -/
def State.resetWith (p : Params) : State where
  cfg := p
  mode := .idle
  cmdErr := false
  done := false
  fatalCause := .none
  lastOp := 0
  gpioOe := Lines.none
  gpioOut := Lines.none
  speedHz := 0
  dataSpeedHz := 0
  scriptStart := 0
  sp := 0
  faultByte := 0
  skipCount := 0
  frameCount := 0
  sumR := 0
  sumG := 0
  sumB := 0
  lutR := identityLut
  lutG := identityLut
  lutB := identityLut
  raw := []
  fb := []
  op := .runScript
  n := 0
  dflag := false
  argi := 0
  off := 0
  att := 1
  spdCmd := 0
  spdData := 0
  pixk := 0
  csN := true
  sclk := false
  timer := none
  trace := []
  host := []
  responses := []
  answers := []
  draws := 0
  resets := 0
  faults := []

/-- The machine right after reset: the reset values of R37 with the parameters `Params.reference`. -/
def State.reset : State := State.resetWith Params.reference

end Sys2Proof.Machine
end

