-- ==== Sys2Proof/Machine/Operands.lean ====
section
/-! DEFINITION. The fields, codes, address map, byte orders and arithmetic that instructions and host accesses use: each is a
function of its operands alone. -/

namespace Sys2Proof.Machine

/-! ### Codes and lines -/

/-- The OP value of a host operation (R15). -/
def hostOpCode : HostOp → BitVec 4
  | .runScript => 1
  | .convertFrame => 2
  | .beginRamWrite => 3
  | .sendFrame => 4

/-- Whether a host operation makes SPI attempts (R118 (b)). -/
def makesAttempts : HostOp → Bool
  | .runScript => true
  | .convertFrame => false
  | .beginRamWrite => true
  | .sendFrame => true

/-- The code of a fatal cause in STATUS.FATAL_CAUSE (R97). -/
def fatalCode : FatalCause → BitVec 4
  | .none => 0
  | .cfg => 1
  | .cmdXfer => 2
  | .argXfer => 3
  | .scriptOverrun => 4

/-- The bit of one line. -/
def lineBit (l : Lines) : Line → Bool
  | .dc => l.dc
  | .rst => l.rst
  | .bl => l.bl

/-- GPIO_OE and GPIO_OUT as words: DC in bit 0, RST in bit 1, BL in bit 2, the rest zero (R17, R18). -/
def linesToWord (l : Lines) : Word :=
  (BitVec.ofBool l.bl ++ BitVec.ofBool l.rst ++ BitVec.ofBool l.dc).setWidth 32

/-- The three line bits of a word written to GPIO_OE or GPIO_OUT; bits 31:3 are ignored (R17, R18). -/
def linesOfWord (v : Word) : Lines := ⟨v.getLsbD 0, v.getLsbD 1, v.getLsbD 2⟩

/-- PinLevel (R63): the latch where the line is driven, else `Z`. -/
def levelOf (latch driven : Bool) : PinLevel :=
  if driven then (if latch then .high else .low) else .z

/-- The EvPin of one line for a change of (latch, OE) from `out`, `oe` to `out'`, `oe'`: none where the pair stays. -/
def pinEvent (out oe out' oe' : Lines) (l : Line) : List Event :=
  if lineBit out l = lineBit out' l ∧ lineBit oe l = lineBit oe' l then []
  else [.pin l (lineBit out' l) (lineBit oe' l)]

/-- The EvPin events of one change, in the order DC, RST, BL (R63). -/
def pinEvents (out oe out' oe' : Lines) : List Event :=
  pinEvent out oe out' oe' .dc ++ pinEvent out oe out' oe' .rst ++ pinEvent out oe out' oe' .bl

/-! ### Byte and bit order -/

/-- Byte k of a word on the bus: data bits [8k+7 : 8k] (R43). -/
def busByte (v : Word) (k : Nat) : Byte := v.extractLsb' (8 * k) 8

/-- The word a read gives back whose bytes, lowest address first, are the given ones: little-endian lanes (R43). DESIGN
CHOICE (log 19): R43 gives the lanes of 16- and 32-bit accesses only; here the byte of an 8-bit read is on data bits 7:0
whatever its address, and the lanes an 8- or 16-bit read does not use are zero. -/
def busWord : List Byte → Word
  | [] => 0
  | b :: bs => b.setWidth 32 ||| (busWord bs <<< 8)

/-- The bits of a payload on MOSI in the order they go out: bytes in increasing address order, in each byte the most
significant bit first (R46, R66). -/
def mosiBits (bytes : List Byte) : List Bool :=
  bytes.flatMap fun b => (List.range 8).map fun j => b.getLsbD (7 - j)

/-! ### The register aperture -/

/-- The registers of R14; `lut i` is LUT[i] of R29. -/
inductive Reg where
  | cmd
  | status
  | gpioOe
  | gpioOut
  | speedHz
  | dataSpeedHz
  | spiMode
  | scriptStart
  | scriptPtr
  | faultByte
  | skipCount
  | frameCount
  | dims
  | sumR
  | sumG
  | sumB
  | lut (i : Fin 256)
  | reserved
  deriving DecidableEq, Repr

/-- The register at an offset of the aperture (R14, R29, R30). -/
def regAt (off : Nat) : Reg :=
  if off = 0x000 then .cmd
  else if off = 0x004 then .status
  else if off = 0x008 then .gpioOe
  else if off = 0x00C then .gpioOut
  else if off = 0x010 then .speedHz
  else if off = 0x014 then .dataSpeedHz
  else if off = 0x018 then .spiMode
  else if off = 0x01C then .scriptStart
  else if off = 0x020 then .scriptPtr
  else if off = 0x024 then .faultByte
  else if off = 0x028 then .skipCount
  else if off = 0x02C then .frameCount
  else if off = 0x030 then .dims
  else if off = 0x034 then .sumR
  else if off = 0x038 then .sumG
  else if off = 0x03C then .sumB
  else if 0x400 ≤ off ∧ off < 0x800 then .lut (Fin.ofNat 256 ((off - 0x400) / 4))
  else .reserved

/-- The offset of a register in the aperture (R14, R29); the reserved offsets have no name of their own, 0x040 is the first. -/
def regOffset : Reg → Nat
  | .cmd => 0x000
  | .status => 0x004
  | .gpioOe => 0x008
  | .gpioOut => 0x00C
  | .speedHz => 0x010
  | .dataSpeedHz => 0x014
  | .spiMode => 0x018
  | .scriptStart => 0x01C
  | .scriptPtr => 0x020
  | .faultByte => 0x024
  | .skipCount => 0x028
  | .frameCount => 0x02C
  | .dims => 0x030
  | .sumR => 0x034
  | .sumG => 0x038
  | .sumB => 0x03C
  | .lut i => 0x400 + 4 * i.val
  | .reserved => 0x040

/-! ### The host address map -/

/-- The region of R38 an address lies in, with the address's offset in it. -/
inductive Region where
  | aperture (off : Nat)
  | raw (off : Nat)
  | fb (off : Nat)
  | rom (off : Nat)
  | unmapped
  deriving DecidableEq, Repr

/-- The host address map (R38). -/
def regionOf (p : Params) (addr : Addr) : Region :=
  let a := addr.toNat
  if a < 0x1000 then .aperture a
  else if 0x100000 ≤ a ∧ a < 0x100000 + p.rawBytes then .raw (a - 0x100000)
  else if 0x200000 ≤ a ∧ a < 0x200000 + p.fbBytes then .fb (a - 0x200000)
  else if 0x300000 ≤ a ∧ a < 0x300000 + p.romBytes then .rom (a - 0x300000)
  else .unmapped

/-- How many bytes an access moves (R40). -/
def widthBytes : Width → Nat
  | .w8 => 1
  | .w16 => 2
  | .w32 => 4

/-- Whether an access's address is a multiple of its width (R40). -/
def aligned (addr : Addr) (w : Width) : Bool := decide (addr.toNat % widthBytes w = 0)

/-- The address of an access. -/
def accessAddr : Access → Addr
  | .read addr _ => addr
  | .write addr _ _ => addr

/-- The width of an access. -/
def accessWidth : Access → Width
  | .read _ w => w
  | .write _ w _ => w

/-- Whether an access is a write. -/
def isWrite : Access → Bool
  | .read _ _ => false
  | .write _ _ _ => true

/-- Whether the bus allows an access (R38, R39, R40): every other access draws a bus error. -/
def accessAllowed (p : Params) (a : Access) : Bool :=
  let w := accessWidth a
  aligned (accessAddr a) w &&
    match regionOf p (accessAddr a) with
    | .aperture _ => decide (w = .w32)
    | .raw off => decide (off + widthBytes w ≤ p.rawBytes)
    | .fb off => !isWrite a && decide (off + widthBytes w ≤ p.fbBytes)
    | .rom off => !isWrite a && decide (off + widthBytes w ≤ p.romBytes)
    | .unmapped => false

/-- The word of a write to CMD: a 32-bit write at 0x000000 (R15, R40). -/
def cmdWord? : Access → Option Word
  | .write addr .w32 data => if addr = 0 then some data else none
  | _ => none

/-! ### The converter's arithmetic -/

/-- The RAW offset of the red sample of pixel k (R44, R84). -/
def redOffset (order : ChannelOrder) (k : Nat) : Nat :=
  match order with
  | .rgb => 3 * k
  | .bgr => 3 * k + 2

/-- The RAW offset of the green sample of pixel k (R44, R84). -/
def greenOffset (k : Nat) : Nat := 3 * k + 1

/-- The RAW offset of the blue sample of pixel k (R44, R84). -/
def blueOffset (order : ChannelOrder) (k : Nat) : Nat :=
  match order with
  | .rgb => 3 * k + 2
  | .bgr => 3 * k

/-- Round(a, b) of R85, exact integer arithmetic. -/
def roundDiv (mode : Rounding) (a b : Nat) : Nat :=
  let f := a / b
  let r := a % b
  match mode with
  | .trunc => f
  | .halfUp => if b ≤ 2 * r then f + 1 else f
  | .halfEven => if b < 2 * r then f + 1 else if 2 * r < b then f else if f % 2 = 0 then f else f + 1

/-- Sat8 of R85. -/
def sat8 (x : Nat) : Nat := min x 255

/-- The LUT entry of R89 for a channel whose sum is `sc`, with `t` the sum of the three sums: identity for a zero channel,
and then no division is made (R94). -/
def lutEntry (mode : Rounding) (sc t v : Nat) : Byte :=
  if sc = 0 then BitVec.ofNat 8 v else BitVec.ofNat 8 (sat8 (roundDiv mode (v * t) (3 * sc)))

/-- One channel's whole table (R89). -/
def lutTable (mode : Rounding) (sc t : Nat) : Vector Byte 256 :=
  Vector.ofFn fun i => lutEntry mode sc t i.val

/-- The entry of a table for a sample. -/
def lutAt (lut : Vector Byte 256) (v : Byte) : Byte := lut[v.toNat]'v.isLt

/-- Pack565 of R91: r[7:3], g[7:2], b[7:3] from the high bits down. -/
def pack565 (r g b : Byte) : Pixel :=
  r.extractLsb' 3 5 ++ g.extractLsb' 2 6 ++ b.extractLsb' 3 5

/-- The high byte p[15:8] of a pixel word, FB byte 2k (R45). -/
def pixelHigh (p : Pixel) : Byte := p.extractLsb' 8 8

/-- The low byte p[7:0] of a pixel word, FB byte 2k+1 (R45). -/
def pixelLow (p : Pixel) : Byte := p.extractLsb' 0 8

end Sys2Proof.Machine
end

