-- ==== Sys2Proof/Machine/Flags.lean ====
section
/-! DEFINITION. STATUS and its flags: the word the host reads, the write-1-to-clear fields, and what command acceptance and
the ends of an operation do to them (R16, R96). -/

namespace Sys2Proof.Machine

/-- STATUS.BUSY = 1 exactly when MODE = RUN (R31). -/
def busy (s : State) : Bool := decide (s.mode = .run)

/-- STATUS.FATAL = 1 exactly when MODE = FATAL_HALT (R31). -/
def fatal (s : State) : Bool := decide (s.mode = .fatalHalt)

/-- STATUS as the host reads it (R16): LAST_OP in bits 15:12, FATAL_CAUSE in 11:8, DONE, CMD_ERR, FATAL and BUSY in 3:0. -/
def statusWord (s : State) : Word :=
  (s.lastOp ++ fatalCode s.fatalCause ++ (0 : BitVec 4) ++ BitVec.ofBool s.done ++ BitVec.ofBool s.cmdErr
    ++ BitVec.ofBool (fatal s) ++ BitVec.ofBool (busy s)).setWidth 32

/-- A host write to STATUS: a 1 in bit 2 clears CMD_ERR, a 1 in bit 3 clears DONE, nothing else changes (R16). -/
def writeStatus (v : Word) (s : State) : State :=
  { s with cmdErr := s.cmdErr && !v.getLsbD 2, done := s.done && !v.getLsbD 3 }

/-- A rejected CMD write: CMD_ERR is set and nothing else changes (R96). -/
def rejectCmd (s : State) : State := { s with cmdErr := true }

/-- An accepted CMD write (R96): LAST_OP and OP take the operation, DONE is cleared, MODE becomes RUN, and the speeds and,
for RUN_SCRIPT, the start offset are sampled (R34). -/
def acceptCmd (op : HostOp) (s : State) : State :=
  { s with
    lastOp := hostOpCode op
    done := false
    mode := .run
    op := op
    spdCmd := s.speedHz
    spdData := s.dataSpeedHz
    sp := if op = .runScript then s.scriptStart.setWidth 17 else s.sp }

/-- The normal end of an operation: MODE becomes IDLE, so BUSY 0, and DONE is set (R72, R76, R80, R81, R86). -/
def endOperation (s : State) : State := { s with mode := .idle, done := true }

end Sys2Proof.Machine
end

