-- ==== Sys2Proof/Machine/Ops.lean ====
section
/-! DEFINITION. The named operations over memory, lines, trace and free values; taking a fatal error, the one exception of
DSEQ (R98), and beside it the only way out of it, reset (R99, R110). -/

namespace Sys2Proof.Machine

/-! ### Memory -/

/-- The written byte at an address, if there is one. -/
def memRead (m : Memory) (a : Nat) : Option Byte :=
  match m with
  | [] => none
  | (b, x) :: rest => if a = b then some x else memRead rest a

/-- Writes a byte at an address; the form of the list stays canonical. -/
def memWrite (m : Memory) (a : Nat) (v : Byte) : Memory :=
  match m with
  | [] => [(a, v)]
  | (b, x) :: rest =>
    if a < b then (a, v) :: (b, x) :: rest
    else if a = b then (a, v) :: rest
    else (b, x) :: memWrite rest a v

/-- Writes bytes at rising addresses from `a` on. -/
def memWriteBytes (m : Memory) (a : Nat) (bytes : List Byte) : Memory :=
  match bytes with
  | [] => m
  | b :: bs => memWriteBytes (memWrite m a b) (a + 1) bs

/-- ScriptByte(i) for i below SCRIPT_ROM_BYTES (R47). -/
def scriptByte (p : Params) (i : Nat) : Byte := p.rom.getD i 0

/-! ### Trace, model faults and free values -/

/-- Emit(e) (R9, R10). -/
def emit (e : Event) (s : State) : State := { s with trace := s.trace ++ [e] }

/-- Records a model fault; a recorded fault is never cleared (R102). -/
def recordFault (f : Fault) (s : State) : State :=
  { s with faults := if f ∈ s.faults then s.faults else s.faults ++ [f] }

/-- The link's answer to the j-th attempt from here on: the j-th of the answers given beforehand, and where those end, the
free value of that draw (R68). -/
def answerAt (s : State) (j : Nat) : Bool := (s.answers[j]?).getD (Config.linkAnswer (s.draws + j))

/-- Takes the link's next answer: one draw. -/
def takeAnswer (s : State) : State := { s with answers := s.answers.tail, draws := s.draws + 1 }

/-- What RAW byte `a` reads as while nothing has written it (R36, R37): a free value, the same at each read until the next
reset (R42). -/
def unwrittenRaw (s : State) (a : Nat) : Byte := Config.unwrittenRaw s.resets a

/-- What FB byte `a` reads as while nothing has written it (R36, R37, R42). -/
def unwrittenFb (s : State) (a : Nat) : Byte := Config.unwrittenFb s.resets a

/-- A byte of RAW or FB as it reads: its written value, or else the free value `free` gives it (R36, R37). -/
def peek (free : Nat → Byte) (m : Memory) (a : Nat) : Byte := (memRead m a).getD (free a)

/-- What a sequencer read of a byte does beside giving its value: a byte that nothing wrote is the model fault UNINIT_READ
(R36). -/
def checkWritten (m : Memory) (a : Nat) (s : State) : State :=
  match memRead m a with
  | some _ => s
  | none => recordFault .uninitRead s

/-- A sequencer read of a byte of RAW or FB (R36). -/
def seqRead (free : Nat → Byte) (m : Memory) (a : Nat) (s : State) : Byte × State :=
  (peek free m a, checkWritten m a s)

/-! ### The sequencer's registers and the host's program -/

/-- SP <- i (R73). -/
def setPointer (i : Nat) (s : State) : State := { s with sp := BitVec.ofNat 17 i }

/-- N and DFLAG take the fields of META (R77, R78). -/
def setHeader (n : Nat) (delay : Bool) (s : State) : State := { s with n := BitVec.ofNat 7 n, dflag := delay }

/-- ARGI <- j, the loop variable of R77 and R78. DESIGN CHOICE (log 21): after the loop it keeps its last value. -/
def setArgIndex (j : Nat) (s : State) : State := { s with argi := j }

/-- PIXK <- k, the converter's pixel index (R31). DESIGN CHOICE (log 21): no rule says when PIXK is written; here it takes k
as pixel k of the statistics pass and of the pack pass begins, and keeps its last value after the operation. -/
def setPixelIndex (k : Nat) (s : State) : State := { s with pixk := k }

/-- What the host has left to do. -/
def setHost (l : List HostEvent) (s : State) : State := { s with host := l }

/-! ### Output lines -/

/-- PinLevel(line), what the display sees (R63). -/
def pinLevel (l : Line) (s : State) : PinLevel := levelOf (lineBit s.gpioOut l) (lineBit s.gpioOe l)

/-- Sets the latches and the output enables and emits EvPin for each line whose pair changes (R63). -/
def setLines (out oe : Lines) (s : State) : State :=
  { s with gpioOut := out, gpioOe := oe, trace := s.trace ++ pinEvents s.gpioOut s.gpioOe out oe }

/-- The sequencer's Pin(DC) <- level (R63). -/
def setDc (level : Bool) (s : State) : State := setLines { s.gpioOut with dc := level } s.gpioOe s

/-! ### Fatal entry and reset -/

/-- `raise Fatal(cause)` (R98): EvFatal, FATAL_CAUSE, and MODE = FATAL_HALT, so BUSY 0 and FATAL 1. Nothing else is written:
the lines, SCRIPT_PTR and the counters stay; FAULT_BYTE is written before, where R97 says so. -/
def raiseFatal (cause : FatalCause) (s : State) : State :=
  { emit (.fatal cause) s with fatalCause := cause, mode := .fatalHalt }

/-- Fatal entry with the payload byte whose transaction failed in FAULT_BYTE (R24, R97). -/
def raiseFatalByte (cause : FatalCause) (b : Byte) (s : State) : State :=
  raiseFatal cause { s with faultByte := b }

/-- The `rst` input (R110): every piece of DSEQ state takes its reset value, and the trace begins anew. The environment's
data go on: the host's remaining program and what it has read, the link's answers, the draw number, and the model faults,
which nothing clears (R102). The reset is counted: RAW and FB are unspecified anew (R37, log 14). -/
def assertReset (s : State) : State :=
  { State.resetWith s.cfg with
    host := s.host
    responses := s.responses
    answers := s.answers
    draws := s.draws
    resets := s.resets + 1
    faults := s.faults }

/-! ### The flow of an operation -/

/-- What a part of an operation comes to: it goes on with a value and a state, or the operation has stopped in a state (a
fatal error, a reset, or a hazard of the host). -/
inductive Flow (α : Type) where
  | go (a : α) (s : State)
  | stop (s : State)

/-- Goes on with `f` unless the operation has stopped. -/
def Flow.bind {α β : Type} (r : Flow α) (f : α → State → Flow β) : Flow β :=
  match r with
  | .go a s => f a s
  | .stop s => .stop s

/-- The state an operation ends in. -/
def Flow.state {α : Type} : Flow α → State
  | .go _ s => s
  | .stop s => s

end Sys2Proof.Machine
end

