-- ==== Sys2Proof/Machine/Host.lean ====
section
/-! DEFINITION. The host's side of the bus: registers and windows (R14 to R30, R38 to R46), bus errors (R39) and hazards
(R116 to R118), and the host's turn between two moves of the sequencer (R48). -/

namespace Sys2Proof.Machine

/-! ### Registers -/

/-- LUT[i] as the host reads it (R29). -/
def lutWord (i : Fin 256) (s : State) : Word :=
  (s.lutB[i] ++ s.lutG[i] ++ s.lutR[i]).setWidth 32

/-- A host read of a register (R15 to R30). -/
def readReg (r : Reg) (s : State) : Word :=
  match r with
  | .cmd => 0
  | .status => statusWord s
  | .gpioOe => linesToWord s.gpioOe
  | .gpioOut => linesToWord s.gpioOut
  | .speedHz => s.speedHz
  | .dataSpeedHz => s.dataSpeedHz
  | .spiMode => 0
  | .scriptStart => s.scriptStart.setWidth 32
  | .scriptPtr => s.sp.setWidth 32
  | .faultByte => s.faultByte.setWidth 32
  | .skipCount => s.skipCount
  | .frameCount => s.frameCount
  | .dims => BitVec.ofNat 16 s.cfg.height ++ BitVec.ofNat 16 s.cfg.width
  | .sumR => s.sumR
  | .sumG => s.sumG
  | .sumB => s.sumB
  | .lut i => lutWord i s
  | .reserved => 0

/-- The latches a host write to GPIO_OUT leaves: DC keeps its latch while BUSY = 1 (R18). -/
def hostLatches (v : Word) (s : State) : Lines :=
  { linesOfWord v with dc := if busy s then s.gpioOut.dc else v.getLsbD 0 }

/-- A host write to a register other than an accepted CMD write (R15 to R30). A CMD write comes here only while an
operation runs, and then it is rejected (R96): every other CMD write is an instruction, which `step` runs. -/
def writeReg (r : Reg) (v : Word) (s : State) : State :=
  match r with
  | .cmd => rejectCmd s
  | .status => writeStatus v s
  | .gpioOe => setLines s.gpioOut (linesOfWord v) s
  | .gpioOut => setLines (hostLatches v s) s.gpioOe s
  | .speedHz => { s with speedHz := v }
  | .dataSpeedHz => { s with dataSpeedHz := v }
  | .scriptStart => { s with scriptStart := v.setWidth 16 }
  | .skipCount => { s with skipCount := 0 }
  | .frameCount => { s with frameCount := 0 }
  | .spiMode => s
  | .scriptPtr => s
  | .faultByte => s
  | .dims => s
  | .sumR => s
  | .sumG => s
  | .sumB => s
  | .lut _ => s
  | .reserved => s

/-! ### Windows -/

/-- The bytes of a memory at `count` rising addresses from `a` on, as the host reads them: an unwritten byte is a free
value and no fault (R36, R37, log 6). Reading changes nothing (R42). -/
def peekBytes (free : Nat → Byte) (m : Memory) (a count : Nat) : List Byte :=
  (List.range count).map fun k => peek free m (a + k)

/-- The first `count` bytes of a word on the bus, as a write moves them: R43 for two and four bytes. DESIGN CHOICE (log 19):
one byte is on data bits 7:0 whatever its address. -/
def busBytes (v : Word) (count : Nat) : List Byte := (List.range count).map (busByte v)

/-! ### Accesses -/

/-- Whether the running operation makes an access the host must not make a HAZARD (R116, R117, R118). Reading a register
is named by it, and writing GPIO_OE is one where it would change DC_OE. -/
def isHazard (a : Access) (s : State) : Bool :=
  busy s &&
    match regionOf s.cfg (accessAddr a), a with
    | .raw _, .write _ _ _ => decide (s.op = .convertFrame)
    | .fb _, .read _ _ => decide (s.op = .convertFrame)
    | .aperture off, .read _ _ =>
      decide (s.op = .convertFrame) &&
        match regAt off with
        | .sumR => true
        | .sumG => true
        | .sumB => true
        | .lut _ => true
        | _ => false
    | .aperture off, .write _ _ data =>
      makesAttempts s.op && decide (regAt off = .gpioOe) && decide ((linesOfWord data).dc ≠ s.gpioOe.dc)
    | _, _ => false

/-- The host gets an answer. -/
def respond (r : Response) (s : State) : State := { s with responses := s.responses ++ [r] }

/-- An access the bus allows and no hazard forbids (R38 to R43). -/
def performAccess (a : Access) (s : State) : State :=
  match regionOf s.cfg (accessAddr a), a with
  | .aperture off, .read _ _ => respond (.data (readReg (regAt off) s)) s
  | .aperture off, .write _ _ data => writeReg (regAt off) data s
  | .raw off, .read _ w =>
    respond (.data (busWord (peekBytes (unwrittenRaw s) s.raw off (widthBytes w)))) s
  | .raw off, .write _ w data => { s with raw := memWriteBytes s.raw off (busBytes data (widthBytes w)) }
  | .fb off, .read _ w =>
    respond (.data (busWord (peekBytes (unwrittenFb s) s.fb off (widthBytes w)))) s
  | .rom off, .read _ w =>
    respond (.data (busWord ((List.range (widthBytes w)).map fun k => scriptByte s.cfg (off + k)))) s
  | _, _ => s

/-- A host access: a bus error has no effect but the error response and the model fault BUS_ERR (R39); a hazard is refused
as the model fault HAZARD (R102, R124). -/
def hostAccess (a : Access) (s : State) : State :=
  if !accessAllowed s.cfg a then recordFault .busErr (respond .busError s)
  else if isHazard a s then recordFault .hazard s
  else performAccess a s

/-- The host's turn while an operation runs: its accesses up to the next `pass` are made, in order, before the sequencer
moves on. A reset abandons the operation (R110), a hazard ends what can be said of the run (R102), and a `poll` reads
STATUS on until the operation ends (R59). -/
def serveHost (s : State) : List HostEvent → Flow Unit
  | [] => .go () (setHost [] s)
  | .pass :: rest => .go () (setHost rest s)
  | .poll :: rest => .go () (setHost (.poll :: rest) s)
  | .reset :: rest => .stop (assertReset (setHost rest s))
  | .access a :: rest =>
    if accessAllowed s.cfg a && isHazard a s then .stop (hostAccess a (setHost rest s))
    else serveHost (hostAccess a s) rest

/-- The host's turn (R48). -/
def hostTurn (s : State) : Flow Unit := serveHost s s.host

end Sys2Proof.Machine
end

