-- ==== Sys2Proof/Machine/Transport.lean ====
section
/-! DEFINITION. The sequencer's primitives (R9 and spec/40_transport.md): Pin, Attempt, Xfer and Wait, with the host's turn
before each and inside each that takes time. -/

namespace Sys2Proof.Machine

/-- Pin(DC) <- level, the sequencer's write of the D/C latch (R63). -/
def drivePin (level : Bool) (s : State) : Flow Unit :=
  (hostTurn s).bind fun _ s => .go () (setDc level s)

/-- CS_N is asserted for attempt n (R66, R69). DESIGN CHOICE (log 21): no rule says when ATT, the attempt counter of R31, is
written; here it takes n as attempt n begins, and keeps its last value after the transaction. -/
def beginAttempt (n : Nat) (s : State) : State := { s with att := n, csN := false }

/-- The burst ends with the link's answer: EvAttempt is emitted and CS_N deasserted, SCLK low (R66, R69). -/
def endAttempt (n : Nat) (dc : PinLevel) (speed : Word) (bytes : List Byte) (s : State) : State :=
  { emit (.attempt n dc speed bytes (answerAt s 0)) (takeAnswer s) with csN := true, sclk := false }

/-- Attempt(n, bytes, speed) of R69: DC is sampled as CS_N is asserted; the answer is a draw (R68). -/
def attempt (n : Nat) (bytes : List Byte) (speed : Word) (s : State) : Flow Bool :=
  (hostTurn s).bind fun _ s =>
    let dc := pinLevel .dc s
    (hostTurn (beginAttempt n s)).bind fun _ s =>
      .go (answerAt s 0) (endAttempt n dc speed bytes s)

/-- A Wait starts: EvWait, and the timer takes the lower bound (R71, R105). -/
def startWait (ms : Nat) (s : State) : State := { emit (.wait ms) s with timer := some ms }

/-- A Wait ends (R71). -/
def endWait (s : State) : State := { s with timer := none }

/-- Wait(ms) of R71: EvWait, then the internal timer runs (R105). -/
def wait (ms : Nat) (s : State) : Flow Unit :=
  (hostTurn s).bind fun _ s =>
    (hostTurn (startWait ms s)).bind fun _ s => .go () (endWait s)

/-- The attempts of a transaction from attempt RETRY_MAX - left + 1 on, `left` of them at most (R70). -/
def xferLoop (bytes : List Byte) (speed : Word) : Nat → State → Flow Bool
  | 0, s => .go false s
  | left + 1, s =>
    (attempt (Config.retryMax - left) bytes speed s).bind fun ok s =>
      if ok then .go true s
      else if left = 0 then .go false s
      else (wait Config.retryWaitMs s).bind fun _ s => xferLoop bytes speed left s

/-- Xfer(bytes, speed) of R70, bounded retry: true is OK, false FAIL. -/
def xfer (bytes : List Byte) (speed : Word) (s : State) : Flow Bool := xferLoop bytes speed Config.retryMax s

/-- A one-byte transaction at the command speed whose failure is fatal with that byte (R77, R80, R97). DESIGN CHOICE (log
20): R98 does not say whether a host access can fall between the last failed EvAttempt and EvFatal; here the host has a turn
there, so both orders are runs of the model. -/
def sendByte (cause : FatalCause) (b : Byte) (s : State) : Flow Unit :=
  (xfer [b] s.spdCmd s).bind fun ok s =>
    if ok then .go () s
    else (hostTurn s).bind fun _ s => .stop (raiseFatalByte cause b s)

/-- The end of an operation, after the host's last turn in it. -/
def finish (s : State) : Flow Unit :=
  (hostTurn s).bind fun _ s => .go () (endOperation s)

end Sys2Proof.Machine
end

