-- ==== Sys2Proof/Machine/Command.lean ====
section
/-! DEFINITION. Command acceptance (R96 of spec/60_exceptions.md), shared by the host operations, and HOSTOP_RESERVED. -/

namespace Sys2Proof.Machine

/-- A host write to CMD with the code of an operation (R96): in FATAL_HALT (check 1) and in RUN (check 2) it is rejected, in
IDLE it is accepted and the operation starts. -/
def hostWriteCmd (op : HostOp) (body : State → Flow Unit) (s : State) : State :=
  match s.mode with
  | .fatalHalt => rejectCmd s
  | .run => rejectCmd s
  | .idle => (body (acceptCmd op s)).state

/-- HOSTOP_RESERVED: a reserved operation code is rejected in every mode (R96, check 3). -/
def execHostopReserved (_op : BitVec 4) (s : State) : Host.Outcome State Fault Refusal := .next (rejectCmd s)

end Sys2Proof.Machine
end

