-- ==== Sys2Proof/Machine/Convert.lean ====
section
/-! DEFINITION. The Frame Converter of spec/43_convert.md: CONVERT_FRAME. -/

namespace Sys2Proof.Machine

/-- The three samples of a pixel (R84). -/
structure Rgb where
  r : Byte
  g : Byte
  b : Byte
  deriving DecidableEq, Repr

/-- The three channel sums, 32-bit accumulators (R87). -/
structure Sums where
  r : Word
  g : Word
  b : Word
  deriving DecidableEq, Repr

/-- A sequencer read of RAW byte `a` (R36). -/
def readRawByte (a : Nat) (s : State) : Byte × State := seqRead (unwrittenRaw s) s.raw a s

/-- Pixel(k) of R84. -/
def readPixel (k : Nat) (s : State) : Rgb × State :=
  let r := readRawByte (redOffset s.cfg.inOrder k) s
  let g := readRawByte (greenOffset k) r.2
  let b := readRawByte (blueOffset s.cfg.inOrder k) g.2
  (⟨r.1, g.1, b.1⟩, b.2)

/-- One pixel's samples added to the accumulators (R87). -/
def addSample (acc : Sums) (p : Rgb) : Sums :=
  ⟨acc.r + p.r.setWidth 32, acc.g + p.g.setWidth 32, acc.b + p.b.setWidth 32⟩

/-- Phase 1 over `left` pixels from pixel k on (R87). -/
def statsLoop : Nat → Nat → Sums → State → Flow Sums
  | 0, _, acc, s => .go acc s
  | left + 1, k, acc, s =>
    (hostTurn (setPixelIndex k s)).bind fun _ s =>
      statsLoop left (k + 1) (addSample acc (readPixel k s).1) (readPixel k s).2

/-- SUM_R, SUM_G and SUM_B take the sums (R86). -/
def storeSums (sums : Sums) (s : State) : State := { s with sumR := sums.r, sumG := sums.g, sumB := sums.b }

/-- T, the sum of the three sums (R87). -/
def sumTotal (sums : Sums) : Nat := sums.r.toNat + sums.g.toNat + sums.b.toNat

/-- Phase 2, BuildLut (R89): all 768 entries. -/
def buildLut (sums : Sums) (s : State) : State :=
  { s with
    lutR := lutTable s.cfg.awbRound sums.r.toNat (sumTotal sums)
    lutG := lutTable s.cfg.awbRound sums.g.toNat (sumTotal sums)
    lutB := lutTable s.cfg.awbRound sums.b.toNat (sumTotal sums) }

/-- The packed word of a pixel's samples under the LUT (R86, R91). -/
def convertPixel (s : State) (p : Rgb) : Pixel := pack565 (lutAt s.lutR p.r) (lutAt s.lutG p.g) (lutAt s.lutB p.b)

/-- Pixel k's word goes to FB, high byte first (R45, R86). -/
def storePixel (k : Nat) (w : Pixel) (s : State) : State :=
  { s with fb := memWrite (memWrite s.fb (2 * k) (pixelHigh w)) (2 * k + 1) (pixelLow w) }

/-- Phase 3 over `left` pixels from pixel k on (R90). -/
def packLoop : Nat → Nat → State → Flow Unit
  | 0, _, s => .go () s
  | left + 1, k, s =>
    (hostTurn (setPixelIndex k s)).bind fun _ s =>
      packLoop left (k + 1) (storePixel k (convertPixel s (readPixel k s).1) (readPixel k s).2)

/-- ConvertFrame() of R86: the three phases, each complete before the next. -/
def convertBody (s : State) : Flow Unit :=
  (statsLoop s.cfg.pixels 0 ⟨0, 0, 0⟩ s).bind fun sums s =>
    (packLoop s.cfg.pixels 0 (buildLut sums (storeSums sums s))).bind fun _ s => finish s

/-- CONVERT_FRAME (R86, R96). -/
def execConvertFrame (s : State) : Host.Outcome State Fault Refusal := .next (hostWriteCmd .convertFrame convertBody s)

end Sys2Proof.Machine
end

