-- ==== Sys2Proof/Machine/Frame.lean ====
section
/-! DEFINITION. The Frame Transmitter of spec/42_frame.md: BEGIN_RAM_WRITE and SEND_FRAME. -/

namespace Sys2Proof.Machine

/-- BeginRamWrite() of R80: DC is left low. -/
def beginRamWriteBody (s : State) : Flow Unit :=
  if s.spdCmd = 0 then .stop (raiseFatal .cfg s)
  else
    (drivePin false s).bind fun _ s =>
      (sendByte .cmdXfer s.cfg.ramwrOpcode s).bind fun _ s => finish s

/-- BEGIN_RAM_WRITE (R80, R96). -/
def execBeginRamWrite (s : State) : Host.Outcome State Fault Refusal :=
  .next (hostWriteCmd .beginRamWrite beginRamWriteBody s)

/-- A sequencer read of FB byte `a` (R36). -/
def readFbByte (a : Nat) (s : State) : Byte × State := seqRead (unwrittenFb s) s.fb a s

/-- FB[a .. a+count-1] as the sequencer reads it (R81). -/
def readFbBytes (a count : Nat) (s : State) : List Byte × State :=
  match count with
  | 0 => ([], s)
  | k + 1 =>
    let first := readFbByte a s
    let rest := readFbBytes (a + 1) k first.2
    (first.1 :: rest.1, rest.2)

/-- NB, the number of blocks of a frame (R82). -/
def blockCount (p : Params) : Nat := (p.fbBytes + Config.blockBytes - 1) / Config.blockBytes

/-- The length of the block at offset `off` (R81, R82). -/
def blockLength (p : Params) (off : Nat) : Nat := min Config.blockBytes (p.fbBytes - off)

/-- What follows a block's transaction: a failed block is skipped and counted, and OFF moves past the block (R81). -/
def endBlock (ok : Bool) (len : Nat) (s : State) : State :=
  { s with skipCount := if ok then s.skipCount else s.skipCount + 1, off := s.off + len }

/-- OFF <- 0 (R81). -/
def startBlocks (s : State) : State := { s with off := 0 }

/-- The blocks from OFF on, at most `left` of them (R81, R82). DESIGN CHOICE (log 22): the host has a turn between a block's
last EvAttempt and what follows it, SKIP_COUNT's increment after a failure among it. -/
def blockLoop : Nat → State → Flow Unit
  | 0, s => .go () s
  | left + 1, s =>
    let len := blockLength s.cfg s.off
    let block := readFbBytes s.off len s
    (xfer block.1 block.2.spdData block.2).bind fun ok s =>
      (hostTurn s).bind fun _ s => blockLoop left (endBlock ok len s)

/-- FRAME_COUNT is incremented at a normal end, whatever was skipped (R26, R81). -/
def countFrame (s : State) : State := { s with frameCount := s.frameCount + 1 }

/-- SendFrame() of R81. DESIGN CHOICE (log 22): R81 and R26 do not say whether a host access can fall between FRAME_COUNT's
increment and the normal end. Here the host has a turn before the increment and one after it, in `finish`, while BUSY is still
1: a clear of FRAME_COUNT in the first leaves 1 at the end, one in the second leaves 0. -/
def sendFrameBody (s : State) : Flow Unit :=
  if s.spdData = 0 then .stop (raiseFatal .cfg s)
  else
    (drivePin true s).bind fun _ s =>
      (blockLoop (blockCount s.cfg) (startBlocks s)).bind fun _ s =>
        (hostTurn s).bind fun _ s => finish (countFrame s)

/-- SEND_FRAME (R81, R96). -/
def execSendFrame (s : State) : Host.Outcome State Fault Refusal := .next (hostWriteCmd .sendFrame sendFrameBody s)

end Sys2Proof.Machine
end

