-- ==== Sys2Proof/Machine/Script.lean ====
section
/-! DEFINITION. The script sequencer of spec/41_script.md: RUN_SCRIPT and the entry forms TERM, CMD and CMD_DLY. RUN_SCRIPT
starts the run; each entry is then one step of the machine. -/

namespace Sys2Proof.Machine

/-- Fetch(i) of R73: SP shows the byte being read, and past the end of SCRIPT_ROM the fetch is fatal. -/
def fetch (i : Nat) (s : State) : Flow Byte :=
  (hostTurn s).bind fun _ s =>
    if s.cfg.romBytes ≤ i then .stop (raiseFatal .scriptOverrun (setPointer i s))
    else .go (scriptByte s.cfg i) (setPointer i s)

/-- Step 2 of R77 and R78: DC low, then the opcode. -/
def sendOpcode (opc : Byte) (s : State) : Flow Unit :=
  (drivePin false s).bind fun _ s => sendByte .cmdXfer opc s

/-- Step 3 and the start of step 4 (R77, R78): the META byte at `i` is fetched, N and DFLAG take its fields, DC goes high. -/
def readMeta (i n : Nat) (delay : Bool) (s : State) : Flow Unit :=
  (fetch i s).bind fun _ s => drivePin true (setHeader n delay s)

/-- The rest of step 4 (R77, R78): the arguments from index `j` on, the first of them at offset `i`, each a transaction of its
own. -/
def sendArgs (i j : Nat) : List Byte → State → Flow Unit
  | [], s => .go () s
  | a :: rest, s =>
    (fetch i (setArgIndex j s)).bind fun _ s =>
      (sendByte .argXfer a s).bind fun _ s => sendArgs (i + 1) (j + 1) rest s

/-- Steps 2 to 4, common to CMD and CMD_DLY, of the entry at offset `i` (R77, R78). -/
def commandBody (i : Nat) (opc : Byte) (args : List Byte) (delay : Bool) (s : State) : Flow Unit :=
  (sendOpcode opc s).bind fun _ s =>
    (readMeta (i + 1) args.length delay s).bind fun _ s => sendArgs (i + 2) 0 args s

/-- TERM (R76): the operation ends; SP stays at the terminator. -/
def execTerm (s : State) : Host.Outcome State Fault Refusal := .next (finish s).state

/-- The effect of CMD on the entry at SP (R77). -/
def runCmd (opc : Byte) (args : List Byte) (s : State) : Flow Unit :=
  (commandBody s.sp.toNat opc args false s).bind fun _ s' =>
    .go () (setPointer (s.sp.toNat + 2 + args.length) s')

/-- CMD (R77): a command entry without a trailing delay. -/
def execCmd (opc : Byte) (args : List Byte) (s : State) : Host.Outcome State Fault Refusal :=
  .next (runCmd opc args s).state

/-- The effect of CMD_DLY on the entry at SP (R78). -/
def runCmdDly (opc : Byte) (args : List Byte) (dly : Byte) (s : State) : Flow Unit :=
  (commandBody s.sp.toNat opc args true s).bind fun _ s' =>
    (fetch (s.sp.toNat + 2 + args.length) s').bind fun _ s' =>
      (wait (delayMs dly) s').bind fun _ s' =>
        .go () (setPointer (s.sp.toNat + 3 + args.length) s')

/-- CMD_DLY (R78): a command entry with a trailing delay. -/
def execCmdDly (opc : Byte) (args : List Byte) (dly : Byte) (s : State) : Host.Outcome State Fault Refusal :=
  .next (runCmdDly opc args dly s).state

/-- What the sequencer does with an entry that runs past the end of SCRIPT_ROM (R73, R77, R78): everything up to the fetch
of the byte that is not there, which raises Fatal(SCRIPT_OVERRUN). -/
def runOverrun (e : DecodeError) (s : State) : Flow Unit :=
  match e with
  | .noOpcode => (fetch s.sp.toNat s).bind fun _ s => .go () s
  | .noMeta opc =>
    (sendOpcode opc s).bind fun _ s' => (fetch (s.sp.toNat + 1) s').bind fun _ s' => .go () s'
  | .shortArgs opc hdr avail =>
    (sendOpcode opc s).bind fun _ s' =>
      (readMeta (s.sp.toNat + 1) (metaCount hdr) (metaDelay hdr) s').bind fun _ s' =>
        (sendArgs (s.sp.toNat + 2) 0 avail s').bind fun _ s' =>
          (fetch (s.sp.toNat + 2 + avail.length) (setArgIndex avail.length s')).bind fun _ s' => .go () s'
  | .noDelay opc args =>
    (commandBody s.sp.toNat opc args true s).bind fun _ s' =>
      (fetch (s.sp.toNat + 2 + args.length) s').bind fun _ s' => .go () s'

/-- The start of RUN_SCRIPT (R72): a speed of 0 is Fatal(CFG) before any event; else the run has begun, and its entries are
the steps that follow. -/
def startScript (s : State) : Flow Unit :=
  if s.spdCmd = 0 then .stop (raiseFatal .cfg s) else .go () s

/-- RUN_SCRIPT (R72, R96). -/
def execRunScript (s : State) : Host.Outcome State Fault Refusal := .next (hostWriteCmd .runScript startScript s)

end Sys2Proof.Machine
end

