-- ==== Sys2Proof/Machine/Dispatch.lean ====
section
/-! DEFINITION. The dispatch: one arm for each constructor of Instr, each one direct call of its meaning. -/

namespace Sys2Proof.Machine

def exec (i : Instr) (s : State) : Host.Outcome State Fault Refusal :=
  match i with
  | .term => Sys2Proof.Machine.execTerm s
  | .cmd opc args => Sys2Proof.Machine.execCmd opc args s
  | .cmdDly opc args dly => Sys2Proof.Machine.execCmdDly opc args dly s
  | .runScript => Sys2Proof.Machine.execRunScript s
  | .convertFrame => Sys2Proof.Machine.execConvertFrame s
  | .beginRamWrite => Sys2Proof.Machine.execBeginRamWrite s
  | .sendFrame => Sys2Proof.Machine.execSendFrame s
  | .hostopReserved op => Sys2Proof.Machine.execHostopReserved op s

end Sys2Proof.Machine
end

