-- ==== Sys2Proof/Machine/Sequencer.lean ====
section
/-! DEFINITION. What a step does around an instruction: the host's next act, and the sequencer's next move (R5, R48, R72). -/

namespace Sys2Proof.Machine

/-- The bytes of SCRIPT_ROM from SP on: where the sequencer fetches its next entry (R33, R72). -/
def fetchBytes (s : State) : List Byte := s.cfg.rom.drop s.sp.toNat

/-- The next entry of a running script (R72, R75): it is decoded at SP and executed; one that runs past the end of SCRIPT_ROM
ends in Fatal(SCRIPT_OVERRUN). -/
def nextEntry (s : State) : Host.Outcome State Fault Refusal :=
  match decodeScript (fetchBytes s) with
  | .ok (i, _) => exec i s
  | .error e => .next (runOverrun e s).state

/-- The sequencer's move: none unless an operation runs (R31, R32). Operations other than RUN_SCRIPT run to their end when
they are accepted; in a state that holds one in progress, it is run from its start. -/
def advance (s : State) : Host.Outcome State Fault Refusal :=
  match s.mode with
  | .idle => .next s
  | .fatalHalt => .next s
  | .run =>
    match s.op with
    | .runScript => nextEntry s
    | .convertFrame => .next (convertBody s).state
    | .beginRamWrite => .next (beginRamWriteBody s).state
    | .sendFrame => .next (sendFrameBody s).state

/-- The host's next access: a word written to CMD is an instruction, decoded and executed (R58, R96); every other access is
made as `hostAccess` says. -/
def hostStep (a : Access) (s : State) : Host.Outcome State Fault Refusal :=
  match cmdWord? a with
  | some w => exec (decodeHostOp w) s
  | none => .next (hostAccess a s)

/-- One step of the machine with no model fault recorded: the host's next act if there is one, else the sequencer's move. -/
def stepCore (s : State) : Host.Outcome State Fault Refusal :=
  match s.host with
  | [] => advance s
  | .pass :: rest => advance (setHost rest s)
  | .poll :: rest =>
    if busy s then advance s else .next (respond (.data (statusWord s)) (setHost rest s))
  | .reset :: rest => .next (assertReset (setHost rest s))
  | .access a :: rest => hostStep a (setHost rest s)

/-- A script entry's bytes placed where the sequencer fetches next: SCRIPT_ROM holds them at offset 0, and a script runs
there. -/
def placeEntry (bytes : List Byte) (s : State) : State :=
  { s with
    cfg := { s.cfg with rom := bytes }
    mode := .run
    op := .runScript
    sp := 0
    host := .pass :: s.host
    faults := [] }

/-- A host operation word placed as the host's next access: a 32-bit write to CMD. -/
def placeHostOp (w : Word) (s : State) : State :=
  { s with host := .access (.write 0 .w32 w) :: s.host, faults := [] }

end Sys2Proof.Machine
end

