-- ==== Sys2Proof/Machine/Step.lean ====
section
/-! DEFINITION. One step of the machine, and how an instruction is placed for the next step. -/

namespace Sys2Proof.Machine

/-- One step. A run in which a model fault is recorded goes no further (R102, R123): the step answers with the first one. -/
def step (s : State) : Host.Outcome State Fault Refusal :=
  match s.faults with
  | f :: _ => .fault f
  | [] => stepCore s

/-- The state with an instruction of spec/opcode_table.json placed so that the next step runs it. -/
def State.withFetchWord (s : State) (nbits w : Nat) : State :=
  if tableIsHostOp nbits w then placeHostOp (BitVec.ofNat 32 w) s
  else placeEntry (tableEntryBytes nbits w) s

end Sys2Proof.Machine
end

