-- ==== Sys2Proof/Machine/HostProgram.lean ====
section
/-! DEFINITION. Host programs in the syntax of R59 and the pseudo-instructions of R60, and the sequences R112 to R114 ask the
host for, as lists of what the host does. The host's own waiting times (R113) are not part of the model: it has no time. -/

namespace Sys2Proof.Machine

/-- `wr REG, value`: a 32-bit write (R59). -/
def wr (r : Reg) (v : Word) : HostEvent := .access (.write (BitVec.ofNat 24 (regOffset r)) .w32 v)

/-- `rd REG`: a 32-bit read (R59). -/
def rd (r : Reg) : HostEvent := .access (.read (BitVec.ofNat 24 (regOffset r)) .w32)

/-- `op` of a host operation: its code written to CMD (R60). -/
def hostOpProgram (op : HostOp) : List HostEvent := [wr .cmd (encodeHostOp (hostOpCode op))]

/-- `op RUN_SCRIPT @ off` (R60). -/
def runScriptProgram (off : BitVec 16) : List HostEvent :=
  wr .scriptStart (off.setWidth 32) :: hostOpProgram .runScript

/-- `frame`: convert, begin RAM write, send, each followed by a poll (R60). -/
def frameProgram : List HostEvent :=
  hostOpProgram .convertFrame ++ [.poll] ++ hostOpProgram .beginRamWrite ++ [.poll]
    ++ hostOpProgram .sendFrame ++ [.poll]

/-- Byte writes of a frame to the RAW window, from offset `off` on (R112 step 7, R120). -/
def loadRawProgram (off : Nat) : List Byte → List HostEvent
  | [] => []
  | b :: bs => .access (.write (BitVec.ofNat 24 (0x100000 + off)) .w8 (b.setWidth 32)) :: loadRawProgram (off + 1) bs

/-- The display reset pulse on GPIO_OUT.RST, the other lines held: inactive, active, inactive (R113). -/
def resetPulseProgram (p : Params) (lines : Lines) : List HostEvent :=
  [wr .gpioOut (linesToWord { lines with rst := !p.rstActiveLevel }),
   wr .gpioOut (linesToWord { lines with rst := p.rstActiveLevel }),
   wr .gpioOut (linesToWord { lines with rst := !p.rstActiveLevel })]

/-- The bring-up sequence, steps 1 to 6 of R112, with the backlight's on level `blOn`. -/
def bringUpProgram (p : Params) (speed dataSpeed : Word) (blOn : Bool) : List HostEvent :=
  let dark : Lines := ⟨false, !p.rstActiveLevel, !blOn⟩
  [wr .gpioOut (linesToWord dark), wr .gpioOe 0x7, wr .speedHz speed, wr .dataSpeedHz dataSpeed]
    ++ resetPulseProgram p dark
    ++ [wr .gpioOut (linesToWord { dark with bl := blOn })]
    ++ runScriptProgram (BitVec.ofNat 16 p.initScriptOffset) ++ [.poll]
    ++ runScriptProgram (BitVec.ofNat 16 p.windowScriptOffset) ++ [.poll]

/-- Shutdown (R114): wait for the operation's end, backlight off, lines released. -/
def shutdownProgram (lines : Lines) (blOn : Bool) : List HostEvent :=
  [.poll, wr .gpioOut (linesToWord { lines with bl := !blOn }), wr .gpioOe 0]

end Sys2Proof.Machine
end

