-- ==== Sys2Proof/Safety.lean ====
section
/-! DEFINITION. What counts as a safe run, and the notions the claims are written in: quiet hosts, the link's answers and
the events that come of them, the state invariant, and readings of a trace. -/

namespace Sys2Proof.Machine

/-! ### Runs -/

/-- No model fault is recorded (R102). -/
def noModelFault (s : State) : Prop := s.faults = []

/-- No EvFatal in the trace (R102). -/
def noFatalEvent (s : State) : Prop := ∀ c, Event.fatal c ∉ s.trace

/-- The premise a claim about a run takes, unless it is about the fatal path itself (R102). -/
def SafeRun (s : State) : Prop := noModelFault s ∧ noFatalEvent s

/-- The run has ended (R123): the host has made its last access and no operation is in progress. -/
def RunEnded (s : State) : Prop := s.host = [] ∧ s.mode ≠ .run

/-- An act of the host that touches nothing: a `pass`, or a `poll` while an operation runs. -/
def quietEvent : HostEvent → Bool
  | .access _ => false
  | .reset => false
  | .pass => true
  | .poll => true

/-- The host makes no access and no reset from here on. -/
def Quiet (s : State) : Prop := s.host.all quietEvent = true

/-! ### The link's answers and the events of a transaction -/

/-- The link's answers to the attempts from here on are the listed ones, in order. -/
def LinkGives (s : State) (answers : List Bool) : Prop := ∀ j ok, answers[j]? = some ok → answerAt s j = ok

/-- The answers to a transaction that succeeds after `k` failed attempts (R70). -/
def retriedAnswers (k : Nat) : List Bool := List.replicate k false ++ [true]

/-- The answers to a transaction that fails (R70). -/
def failedAnswers : List Bool := List.replicate Config.retryMax false

/-- The events of a transaction that succeeds after `k` failed attempts: a wait of 1 ms after each of them (R70). -/
def retriedEvents (dc : PinLevel) (speed : Word) (bytes : List Byte) (k : Nat) : List Event :=
  ((List.range k).flatMap fun j => [.attempt (j + 1) dc speed bytes false, .wait 1])
    ++ [.attempt (k + 1) dc speed bytes true]

/-- The events of a transaction that fails: three attempts with a wait of 1 ms between them (R70). -/
def failedEvents (dc : PinLevel) (speed : Word) (bytes : List Byte) : List Event :=
  [.attempt 1 dc speed bytes false, .wait 1, .attempt 2 dc speed bytes false, .wait 1, .attempt 3 dc speed bytes false]

/-- The EvPin of the sequencer's write of `level` to the DC latch: none where the latch has that level already (R63). -/
def dcEvents (s : State) (level : Bool) : List Event :=
  if s.gpioOut.dc = level then [] else [.pin .dc level s.gpioOe.dc]

/-- The events of a script entry up to its opcode, sent after `k` failed attempts (steps 2 of R77 and R78). -/
def opcodeEvents (s : State) (opc : Byte) (k : Nat) : List Event :=
  dcEvents s false ++ retriedEvents (levelOf false s.gpioOe.dc) s.spdCmd [opc] k

/-- The events of arguments, each sent in a transaction of its own after the number of failed attempts beside it, with DC high
(step 4 of R77 and R78). -/
def argEvents (s : State) (args : List Byte) (ks : List Nat) : List Event :=
  (args.zip ks).flatMap fun x => retriedEvents (levelOf true s.gpioOe.dc) s.spdCmd [x.1] x.2

/-! ### The invariant -/

/-- Every listed address lies below a bound. -/
def addressesBelow (m : Memory) (bound : Nat) : Prop := ∀ c ∈ m, c.1 < bound

/-- RAW and FB are canonical and no larger than R35 says. -/
def MemoryInv (s : State) : Prop :=
  Memory.wf s.raw = true ∧ Memory.wf s.fb = true
    ∧ addressesBelow s.raw s.cfg.rawBytes ∧ addressesBelow s.fb s.cfg.fbBytes

/-- DONE is 0 while an operation runs and after a fatal error, and FATAL_CAUSE names a cause exactly in FATAL_HALT
(R16, R98). -/
def StatusInv (s : State) : Prop :=
  (s.mode ≠ .idle → s.done = false) ∧ (s.fatalCause ≠ .none ↔ s.mode = .fatalHalt)

/-- Between two steps the link is idle (R66): CS_N deasserted, SCLK low, no wait in progress. Where the host broke a hazard
rule the run is over and nothing is said. -/
def LinkInv (s : State) : Prop :=
  Fault.hazard ∉ s.faults → s.csN = true ∧ s.sclk = false ∧ s.timer = none

/-- The invariant every step keeps. -/
def Inv (s : State) : Prop := MemoryInv s ∧ StatusInv s ∧ LinkInv s

/-! ### Reading a trace -/

/-- Whether an event is an SPI attempt. -/
def isAttempt : Event → Bool
  | .attempt _ _ _ _ _ => true
  | _ => false

/-- Whether an event is the first attempt of a transaction. -/
def isFirstAttempt : Event → Bool
  | .attempt n _ _ _ _ => n == 1
  | _ => false

/-- Whether an event is a wait. -/
def isWait : Event → Bool
  | .wait _ => true
  | _ => false

/-- The payload of a successful attempt; of every other event, nothing. -/
def okPayload : Event → List Byte
  | .attempt _ _ _ bytes true => bytes
  | _ => []

/-- The payloads of the successful attempts, concatenated in order (R83). -/
def okPayloads (t : List Event) : List Byte := t.flatMap okPayload

/-- Every byte of RAW is written. -/
def RawWritten (s : State) : Prop := ∀ a, a < s.cfg.rawBytes → memRead s.raw a ≠ none

/-- Every byte of FB is written. -/
def FbWritten (s : State) : Prop := ∀ a, a < s.cfg.fbBytes → memRead s.fb a ≠ none

/-- The written value of a byte; 0 for a byte nothing wrote (claims assume that there is none). -/
def byteAt (m : Memory) (a : Nat) : Byte := (memRead m a).getD 0

/-- The samples of pixel k as RAW holds them, the offsets written out from R44 and R84: R, G, B at 3k, 3k+1, 3k+2 under RGB,
and B, G, R there under BGR. -/
def samples (s : State) (k : Nat) : Rgb :=
  match s.cfg.inOrder with
  | .rgb => { r := byteAt s.raw (3 * k), g := byteAt s.raw (3 * k + 1), b := byteAt s.raw (3 * k + 2) }
  | .bgr => { b := byteAt s.raw (3 * k), g := byteAt s.raw (3 * k + 1), r := byteAt s.raw (3 * k + 2) }

/-- The exact sum of a channel over the first `count` pixels (R87). -/
def channelSum (channel : Rgb → Byte) (s : State) (count : Nat) : Nat :=
  ((List.range count).map fun k => (channel (samples s k)).toNat).sum

end Sys2Proof.Machine
end

