-- ==== Sys2Proof/Certificates/Slice0/Obligations.lean ====
section
/-! DEFINITION. The statements for the provers. `s.host = []` says that the host makes no access while the instruction runs,
`Quiet s` that it only passes or polls; `answerAt s j` is the SPI link's answer to the j-th attempt from `s` on, a draw, and `LinkGives s l` says
that the first of them are the list `l`. -/

open Sys2Proof Sys2Proof.Machine

/-! ### Encodings -/

/-- R52, R53, R57, R58: decoding what the encoder writes gives every well-formed instruction back, at every value of every
operand. -/
def Obligations.DecodeEncode : Prop :=
  ∀ i : Instr, i.wf = true → decode (encode i) = .ok i

/-- R57: EncodeScript is one-to-one: the entries of a script are read back, whatever bytes follow its terminator. -/
def Obligations.ScriptDecodesBack : Prop :=
  ∀ (es : List Instr) (rest : List Byte),
    (∀ i ∈ es, i.wf = true ∧ ((∃ opc args, i = .cmd opc args) ∨ ∃ opc args dly, i = .cmdDly opc args dly)) →
    decodeEntries (es.length + 1) (encodeScript (es ++ [.term]) ++ rest) = .ok (es ++ [.term])

/-- R52, R53: what the decoder reads is a well-formed entry, and its bytes are exactly the bytes read. -/
def Obligations.DecodedEntryIsEncoded : Prop :=
  ∀ (bytes rest : List Byte) (i : Instr), decodeScript bytes = .ok (i, rest) →
    i.wf = true ∧ bytes = entryBytes i ++ rest ∧ entryBytes i ≠ []

/-- R53, R55, R56: with a nonzero opcode and a META byte the decoder reads an entry exactly when the bytes META asks for are
there, 2 + META[6:0] + META[7] bytes in all (`need` beside OPC and META: bits 6:0 and bit 7 of META), at least 2 and at most
130; with bit 7 clear it is CMD and with bit 7 set CMD_DLY, of META[6:0] arguments; a zero at the opcode position is TERM, of
length 1.
That an entry which is not whole decodes to an error is the model's (log 11): R56 and R73 say what the sequencer does with
it. -/
def Obligations.EntryLengthFromMeta : Prop :=
  ∀ (opc hdr : Byte) (body : List Byte),
    let count := (hdr.extractLsb' 0 7).toNat
    let need := count + (hdr.extractLsb' 7 1).toNat
    (opc ≠ 0 → need ≤ body.length → ∃ i rest, decodeScript (opc :: hdr :: body) = .ok (i, rest) ∧
        (entryBytes i).length = 2 + need ∧ 2 ≤ 2 + need ∧ 2 + need ≤ 130 ∧ rest.length = body.length - need
        ∧ ((hdr.getLsbD 7 = false ∧ ∃ args, i = .cmd opc args ∧ args.length = count)
          ∨ (hdr.getLsbD 7 = true ∧ ∃ args dly, i = .cmdDly opc args dly ∧ args.length = count)))
      ∧ (opc ≠ 0 → body.length < need → ∃ e, decodeScript (opc :: hdr :: body) = .error e)
      ∧ decodeScript (0 :: body) = .ok (.term, body)

/-- R58: OP = w[3:0] selects the operation, and bits 31:4 are ignored. -/
def Obligations.HostOpFromLowBits : Prop :=
  ∀ (upper : BitVec 28) (op : BitVec 4),
    decodeHostOp (upper ++ op) =
      (if op = 1 then .runScript else if op = 2 then .convertFrame else if op = 3 then .beginRamWrite
       else if op = 4 then .sendFrame else .hostopReserved op)

/-- R54: codes 0 to 254 mean their own number of milliseconds and 255 means 500; the assembler's code of a wait (R57, R59) is
its only code, and a wait from 255 to 499 ms or above 500 ms has none. -/
def Obligations.DelayCodes : Prop :=
  (∀ d : Byte, delayMs d = if d = 255 then 500 else d.toNat)
    ∧ (∀ (d : Byte) (ms : Nat), delayMs d = ms ↔ delayByte? ms = some d)
    ∧ (∀ ms : Nat, (255 ≤ ms ∧ ms ≤ 499) ∨ 500 < ms → ∀ d : Byte, delayMs d ≠ ms)

/-- R61 and the encodings of R52 and R58, on words written out. -/
def Obligations.SpecWordsDecode : Prop :=
  decodeScript [0x11, 0x80, 0xFF, 0x00] = .ok (.cmdDly 0x11 [] 0xFF, [0x00])
    ∧ decodeScript [0x00] = .ok (.term, [])
    ∧ decodeScript [0x2A, 0x04, 0x00, 0x00, 0x01, 0x3F] = .ok (.cmd 0x2A [0x00, 0x00, 0x01, 0x3F], [])
    ∧ decodeHostOp 0x00000001 = .runScript ∧ decodeHostOp 0x00000012 = .convertFrame
    ∧ decodeHostOp 0x00000003 = .beginRamWrite ∧ decodeHostOp 0x00000004 = .sendFrame
    ∧ decodeHostOp 0x00000000 = .hostopReserved 0 ∧ decodeHostOp 0x0000000F = .hostopReserved 15

/-! ### Steps -/

/-- R72, R75: while a script runs and the host makes no access (or passes), a step decodes the entry at SP and executes it;
around `exec` the step only takes the host's pass. That a step is one entry, and the host's pass and poll, are the model's
(log 9, log 10). -/
def Obligations.StepRunsScriptEntry : Prop :=
  ∀ (s : State) (i : Instr) (rest : List Byte),
    s.faults = [] → s.mode = .run → s.op = .runScript → decodeScript (s.cfg.rom.drop s.sp.toNat) = .ok (i, rest) →
    (s.host = [] → step s = exec i s)
      ∧ (∀ more, s.host = .pass :: more → step s = exec i (setHost more s))
      ∧ (∀ more, s.host = .poll :: more → step s = exec i s)

/-- R58, R96: a host's 32-bit write of a word to CMD is a step that decodes the word and executes the operation; around
`exec` the step only takes the access off the host's program. That the host's accesses are a list in State is the model's
(log 9). -/
def Obligations.StepRunsHostOp : Prop :=
  ∀ (s : State) (w : Word) (more : List HostEvent),
    s.faults = [] → s.host = .access (.write 0 .w32 w) :: more → step s = exec (decodeHostOp w) (setHost more s)

/-- R5, R48: the other steps: a host access other than a CMD write is made; a poll of an idle or halted DSEQ reads STATUS;
and with nothing to do an idle or halted DSEQ stays as it is and fetches nothing. The list of acts, the pass and the poll
are the model's form of the host (log 9). -/
def Obligations.StepServesHost : Prop :=
  ∀ (s : State) (more : List HostEvent), s.faults = [] →
    (∀ a, cmdWord? a = none → s.host = .access a :: more → step s = .next (hostAccess a (setHost more s)))
      ∧ (s.mode ≠ .run → s.host = .poll :: more → step s = .next (respond (.data (statusWord s)) (setHost more s)))
      ∧ (s.mode ≠ .run → s.host = [] → step s = .next s)
      ∧ (s.mode ≠ .run → s.host = .pass :: more → step s = .next (setHost more s))

/-- R102, R123: a run in which a model fault is recorded goes no further: the step stops with the first one. That it is the
next step which stops is the model's (log 7). -/
def Obligations.StepStopsAfterModelFault : Prop :=
  ∀ (s : State) (f : Fault) (fs : List Fault), s.faults = f :: fs → step s = .fault f

/-- R73, R77, R78, R97, R98: a script whose next entry is not whole within SCRIPT_ROM, where every transaction of what is
there succeeds, at its first, second or third attempt: the whole next state. With SP at or past the end of SCRIPT_ROM, only
the fatal. With the opcode alone: DC low, the opcode, SCRIPT_PTR one past it, DC left low. With the opcode, META and fewer
bytes than META asks for: DC low, the opcode, DC high, each argument that is there; no wait for a missing DLY; SCRIPT_PTR at
SCRIPT_ROM_BYTES, DC left high. FAULT_BYTE is unchanged. SCRIPT_ROM_BYTES is at most 65536 (R6), which the 17 bits of SP hold
(log 1). That this is one step is the model's (log 10, log 11); so are the list of answers and the draw number (log 4), ATT,
and ARGI after its loop (log 21). -/
def Obligations.OverrunIsFatal : Prop :=
  ∀ (s : State) (opc hdr : Byte) (avail : List Byte) (k : Nat) (ks : List Nat),
    s.faults = [] → s.host = [] → s.mode = .run → s.op = .runScript → s.cfg.romBytes ≤ 65536 →
    (∀ x ∈ k :: ks, x < 3) → ks.length = avail.length →
    let tail := s.cfg.rom.drop s.sp.toNat
    let count := (hdr.extractLsb' 0 7).toNat
    let headAnswers := retriedAnswers k
    let allAnswers := (k :: ks).flatMap retriedAnswers
    (tail = [] →
        step s = .next { s with
          mode := .fatalHalt
          fatalCause := .scriptOverrun
          trace := s.trace ++ [.fatal .scriptOverrun] })
      ∧ (tail = [opc] → opc ≠ 0 → LinkGives s headAnswers →
        step s = .next { s with
          mode := .fatalHalt
          fatalCause := .scriptOverrun
          sp := BitVec.ofNat 17 (s.sp.toNat + 1)
          att := k + 1
          csN := true
          sclk := false
          timer := if k = 0 then s.timer else none
          gpioOut := { s.gpioOut with dc := false }
          answers := s.answers.drop headAnswers.length
          draws := s.draws + headAnswers.length
          trace := s.trace ++ opcodeEvents s opc k ++ [.fatal .scriptOverrun] })
      ∧ (tail = opc :: hdr :: avail → opc ≠ 0 → avail.length < count + (if hdr.getLsbD 7 then 1 else 0) →
        LinkGives s allAnswers →
        step s = .next { s with
          mode := .fatalHalt
          fatalCause := .scriptOverrun
          sp := BitVec.ofNat 17 s.cfg.romBytes
          n := hdr.extractLsb' 0 7
          dflag := hdr.getLsbD 7
          argi := if avail.length < count then avail.length else if avail = [] then s.argi else avail.length - 1
          att := ks.getLastD k + 1
          csN := true
          sclk := false
          timer := if ∀ x ∈ k :: ks, x = 0 then s.timer else none
          gpioOut := { s.gpioOut with dc := true }
          answers := s.answers.drop allAnswers.length
          draws := s.draws + allAnswers.length
          trace := s.trace ++ opcodeEvents s opc k ++ [.pin .dc true s.gpioOe.dc] ++ argEvents s avail ks
            ++ [.fatal .scriptOverrun] })

/-! ### The transaction primitives -/

/-- R70: bounded retry. The outcome and the events of a transaction for each sequence of answers: success on attempt 1, 2 or
3, or three failures; a wait of 1 ms between attempts only, and never a fourth attempt. -/
def Obligations.XferBoundedRetry : Prop :=
  ∀ (bytes : List Byte) (speed : Word) (s : State), s.host = [] →
    let ev := fun (k : Nat) (ok : Bool) => Event.attempt k (pinLevel .dc s) speed bytes ok
    ∃ ok t, xfer bytes speed s = .go ok t ∧ ok = (answerAt s 0 || answerAt s 1 || answerAt s 2)
      ∧ t.trace = s.trace ++
          (if answerAt s 0 then [ev 1 true]
           else if answerAt s 1 then [ev 1 false, .wait 1, ev 2 true]
           else [ev 1 false, .wait 1, ev 2 false, .wait 1, ev 3 (answerAt s 2)])
      ∧ t.gpioOut = s.gpioOut ∧ t.gpioOe = s.gpioOe ∧ t.mode = s.mode ∧ t.sp = s.sp

/-- R66, R69: one attempt while the host makes no access: DC is sampled, the link answers, EvAttempt is emitted with that
answer, and the link is idle again. The list of answers and the draw number are the model's (log 4), and so is when ATT is
written (log 21). -/
def Obligations.AttemptResult : Prop :=
  ∀ (k : Nat) (bytes : List Byte) (speed : Word) (s : State), s.host = [] →
    attempt k bytes speed s = .go (answerAt s 0) { s with
      att := k
      csN := true
      sclk := false
      answers := s.answers.tail
      draws := s.draws + 1
      trace := s.trace ++ [.attempt k (if s.gpioOe.dc then (if s.gpioOut.dc then .high else .low) else .z) speed bytes
        (answerAt s 0)] }

/-- R71, R105: a wait while the host makes no access records EvWait and nothing else. The model has no time (log 15). -/
def Obligations.WaitResult : Prop :=
  ∀ (ms : Nat) (s : State), s.host = [] →
    wait ms s = .go () { s with timer := none, trace := s.trace ++ [.wait ms] }

/-- R73: a fetch sets SP to the offset; past the end of SCRIPT_ROM it raises Fatal(SCRIPT_OVERRUN) and reads nothing, and else
it gives the byte of SCRIPT_ROM there and has no other effect. -/
def Obligations.FetchResult : Prop :=
  ∀ (i : Nat) (s : State), s.host = [] →
    (∀ b, s.cfg.rom[i]? = some b → fetch i s = .go b { s with sp := BitVec.ofNat 17 i })
      ∧ (s.cfg.rom[i]? = none → fetch i s = .stop { s with
          sp := BitVec.ofNat 17 i, mode := .fatalHalt, fatalCause := .scriptOverrun
          trace := s.trace ++ [.fatal .scriptOverrun] })

/-- R41, R48, R59, R110: the host's turn between two moves of a running operation: its accesses are made in order, each
before the next, up to the next pass; a reset abandons the operation; a hazard ends it; a poll lets the sequencer go on.
That the host's program is a list, and what ends a turn, are the model's (log 9); so is that a hazard freezes the operation
(log 8). -/
def Obligations.HostTurnOrder : Prop :=
  ∀ (s : State) (more : List HostEvent),
    (s.host = [] → hostTurn s = .go () s)
      ∧ (s.host = .pass :: more → hostTurn s = .go () (setHost more s))
      ∧ (s.host = .poll :: more → hostTurn s = .go () s)
      ∧ (s.host = .reset :: more → hostTurn s = .stop (assertReset (setHost more s)))
      ∧ (∀ a, s.host = .access a :: more → (accessAllowed s.cfg a && isHazard a s) = false →
          hostTurn s = hostTurn (setHost more (hostAccess a s)))
      ∧ (∀ a, s.host = .access a :: more → accessAllowed s.cfg a = true → isHazard a s = true →
          hostTurn s = .stop (recordFault .hazard (setHost more s)))

/-- R63: a change of the latches and enables writes them, and emits one EvPin for each line whose (latch, OE) pair changes, in
the order DC, RST, BL, with the new latch and OE bit, and none for a line that stays; a pin shows its latch where it is driven
and else `Z`. The sequencer's write of DC is the change of that one latch. -/
def Obligations.PinEventsOfChange : Prop :=
  ∀ (out oe : Lines) (s : State),
    (setLines out oe s).gpioOut = out ∧ (setLines out oe s).gpioOe = oe
      ∧ pinLevel .dc s = (if s.gpioOe.dc then (if s.gpioOut.dc then .high else .low) else .z)
      ∧ pinLevel .rst s = (if s.gpioOe.rst then (if s.gpioOut.rst then .high else .low) else .z)
      ∧ pinLevel .bl s = (if s.gpioOe.bl then (if s.gpioOut.bl then .high else .low) else .z)
      ∧ (∀ v, setDc v s = setLines ⟨v, s.gpioOut.rst, s.gpioOut.bl⟩ s.gpioOe s)
      ∧ (setLines out oe s).trace = s.trace
        ++ (if out.dc = s.gpioOut.dc ∧ oe.dc = s.gpioOe.dc then [] else [.pin .dc out.dc oe.dc])
        ++ (if out.rst = s.gpioOut.rst ∧ oe.rst = s.gpioOe.rst then [] else [.pin .rst out.rst oe.rst])
        ++ (if out.bl = s.gpioOut.bl ∧ oe.bl = s.gpioOe.bl then [] else [.pin .bl out.bl oe.bl])

/-- R46, R66: on MOSI bit number 8i + j of a payload is bit 7 - j of its byte i: bytes in increasing order, each most
significant bit first. The order of the bits in a byte is the model's, from general knowledge (log 17). -/
def Obligations.MosiOrder : Prop :=
  ∀ (bytes : List Byte) (i j : Nat) (b : Byte), bytes[i]? = some b → j < 8 →
    (mosiBits bytes)[8 * i + j]? = some (b.getLsbD (7 - j)) ∧ (mosiBits bytes).length = 8 * bytes.length

/-! ### Script entries -/

/-- R76: TERM ends the operation: MODE = IDLE, DONE = 1, nothing else changes. -/
def Obligations.TermResult : Prop :=
  ∀ s : State, s.host = [] → exec .term s = .next { s with mode := .idle, done := true }

/-- R70, R77: CMD with every transaction successful, the opcode's after `k` failed attempts and each argument's after its
number in `ks` (0, 1 or 2): DC low, the opcode, DC high, each argument in a transaction of its own; SP moves on by 2 + N.
The whole next state. The list of answers and the draw number are the model's (log 4), and so are ATT, and ARGI after its loop
(log 21). -/
def Obligations.CmdResult : Prop :=
  ∀ (opc : Byte) (args : List Byte) (k : Nat) (ks : List Nat) (s : State),
    s.host = [] → s.sp.toNat + 2 + args.length ≤ s.cfg.romBytes →
    (∀ x ∈ k :: ks, x < 3) → ks.length = args.length →
    let given := (k :: ks).flatMap retriedAnswers
    LinkGives s given →
    exec (.cmd opc args) s = .next { s with
      sp := BitVec.ofNat 17 (s.sp.toNat + 2 + args.length)
      n := BitVec.ofNat 7 args.length
      dflag := false
      argi := if args = [] then s.argi else args.length - 1
      att := ks.getLastD k + 1
      csN := true
      sclk := false
      timer := if ∀ x ∈ k :: ks, x = 0 then s.timer else none
      gpioOut := { s.gpioOut with dc := true }
      answers := s.answers.drop given.length
      draws := s.draws + given.length
      trace := s.trace ++ opcodeEvents s opc k ++ [.pin .dc true s.gpioOe.dc] ++ argEvents s args ks }

/-- R70, R78: CMD_DLY with every transaction successful, each at its first, second or third attempt: as CMD, then the wait
that DLY encodes; SP moves on by 3 + N. The whole next state. The list of answers and the draw number are the model's
(log 4), and so are ATT, and ARGI after its loop (log 21). -/
def Obligations.CmdDlyResult : Prop :=
  ∀ (opc : Byte) (args : List Byte) (dly : Byte) (k : Nat) (ks : List Nat) (s : State),
    s.host = [] → s.sp.toNat + 3 + args.length ≤ s.cfg.romBytes →
    (∀ x ∈ k :: ks, x < 3) → ks.length = args.length →
    let given := (k :: ks).flatMap retriedAnswers
    LinkGives s given →
    exec (.cmdDly opc args dly) s = .next { s with
      sp := BitVec.ofNat 17 (s.sp.toNat + 3 + args.length)
      n := BitVec.ofNat 7 args.length
      dflag := true
      argi := if args = [] then s.argi else args.length - 1
      att := ks.getLastD k + 1
      csN := true
      sclk := false
      timer := none
      gpioOut := { s.gpioOut with dc := true }
      answers := s.answers.drop given.length
      draws := s.draws + given.length
      trace := s.trace ++ opcodeEvents s opc k ++ [.pin .dc true s.gpioOe.dc] ++ argEvents s args ks
        ++ [.wait (if dly = 255 then 500 else dly.toNat)] }

/-- R77, R78, R97, R98: an opcode whose transaction fails three times is Fatal(CMD_XFER): FAULT_BYTE takes the opcode, SP
stays at its offset, DC stays low, and nothing after it happens. The list of answers and the draw number are the model's
(log 4), and so is ATT (log 21). -/
def Obligations.OpcodeFailureIsFatal : Prop :=
  ∀ (i : Instr) (opc : Byte) (args : List Byte) (dly : Byte) (s : State),
    (i = .cmd opc args ∨ i = .cmdDly opc args dly) → s.host = [] → (∀ j, j < 3 → answerAt s j = false) →
    exec i s = .next { s with
      mode := .fatalHalt
      fatalCause := .cmdXfer
      faultByte := opc
      att := 3
      csN := true
      sclk := false
      timer := none
      gpioOut := { s.gpioOut with dc := false }
      answers := s.answers.drop 3
      draws := s.draws + 3
      trace := s.trace ++ dcEvents s false ++ failedEvents (levelOf false s.gpioOe.dc) s.spdCmd [opc] ++ [.fatal .cmdXfer] }

/-- R70, R77, R78, R97, R98: an argument whose transaction fails three times is Fatal(ARG_XFER): FAULT_BYTE takes the
argument, SCRIPT_PTR its offset, DC stays high, the opcode and the arguments before it stay sent (each at its first, second or
third attempt) and nothing after it happens. SCRIPT_ROM_BYTES is at most 65536 (R6), which the 17 bits of SP hold (log 1). The
list of answers is the model's (log 4). -/
def Obligations.ArgumentFailureIsFatal : Prop :=
  ∀ (i : Instr) (opc a : Byte) (pre post : List Byte) (dly : Byte) (k : Nat) (ks : List Nat) (s : State),
    (i = .cmd opc (pre ++ a :: post) ∨ i = .cmdDly opc (pre ++ a :: post) dly) → s.host = [] →
    s.sp.toNat + 2 + pre.length < s.cfg.romBytes → s.cfg.romBytes ≤ 65536 →
    (∀ x ∈ k :: ks, x < 3) → ks.length = pre.length →
    LinkGives s ((k :: ks).flatMap retriedAnswers ++ failedAnswers) →
    ∃ t, exec i s = .next t ∧ t.mode = .fatalHalt ∧ t.fatalCause = .argXfer ∧ t.faultByte = a
      ∧ t.sp.toNat = s.sp.toNat + 2 + pre.length ∧ t.gpioOut = { s.gpioOut with dc := true } ∧ t.done = s.done
      ∧ t.trace = s.trace ++ opcodeEvents s opc k ++ [.pin .dc true s.gpioOe.dc] ++ argEvents s pre ks
        ++ failedEvents (levelOf true s.gpioOe.dc) s.spdCmd [a] ++ [.fatal .argXfer]

/-- The frame of the script entries, while the host only passes or polls, whatever the link answers. TERM writes MODE and
DONE; CMD and CMD_DLY write SP, N, DFLAG, ARGI, ATT, the DC latch, the link's pins and timer, and on a fatal error FAULT_BYTE,
FATAL_CAUSE and MODE. Every byte of RAW and FB reads as before. -/
def Obligations.ScriptEntryFrame : Prop :=
  ∀ (i : Instr) (opc : Byte) (args : List Byte) (dly : Byte) (s t : State),
    (i = .term ∨ i = .cmd opc args ∨ i = .cmdDly opc args dly) → Quiet s → exec i s = .next t →
    (∀ a, memRead t.raw a = memRead s.raw a) ∧ (∀ a, memRead t.fb a = memRead s.fb a)
      ∧ t.cfg = s.cfg ∧ t.cmdErr = s.cmdErr ∧ t.lastOp = s.lastOp ∧ t.op = s.op
      ∧ t.gpioOe = s.gpioOe ∧ t.gpioOut.rst = s.gpioOut.rst ∧ t.gpioOut.bl = s.gpioOut.bl
      ∧ t.speedHz = s.speedHz ∧ t.dataSpeedHz = s.dataSpeedHz ∧ t.scriptStart = s.scriptStart
      ∧ t.spdCmd = s.spdCmd ∧ t.spdData = s.spdData ∧ t.skipCount = s.skipCount ∧ t.frameCount = s.frameCount
      ∧ t.sumR = s.sumR ∧ t.sumG = s.sumG ∧ t.sumB = s.sumB ∧ t.lutR = s.lutR ∧ t.lutG = s.lutG ∧ t.lutB = s.lutB
      ∧ t.off = s.off ∧ t.pixk = s.pixk ∧ t.responses = s.responses ∧ t.faults = s.faults
      ∧ (i ≠ .term → t.done = s.done ∧ (t.mode = s.mode ∨ t.mode = .fatalHalt))
      ∧ (i = .term → t.sp = s.sp ∧ t.gpioOut = s.gpioOut ∧ t.trace = s.trace ∧ t.faultByte = s.faultByte
          ∧ t.fatalCause = s.fatalCause ∧ t.n = s.n ∧ t.dflag = s.dflag ∧ t.argi = s.argi ∧ t.att = s.att
          ∧ t.csN = s.csN ∧ t.sclk = s.sclk ∧ t.timer = s.timer ∧ t.answers = s.answers ∧ t.draws = s.draws)
      ∧ (t.mode ≠ .fatalHalt → s.mode ≠ .fatalHalt → t.faultByte = s.faultByte ∧ t.fatalCause = s.fatalCause)

/-! ### Host operations -/

/-- R72, R96: RUN_SCRIPT accepted in IDLE with a nonzero SPEED_HZ starts the run: the whole next state, for every host
program. That the entries are steps of their own is the model's (log 10). -/
def Obligations.RunScriptStarts : Prop :=
  ∀ s : State, s.mode = .idle → s.speedHz ≠ 0 →
    exec .runScript s = .next { s with
      mode := .run
      done := false
      lastOp := 1
      op := .runScript
      spdCmd := s.speedHz
      spdData := s.dataSpeedHz
      sp := s.scriptStart.setWidth 17 }

/-- R19, R20, R72, R80, R81, R97: an operation accepted with the speed it would use at 0 raises Fatal(CFG) before any pin or
link event. The whole next state, for every host program. -/
def Obligations.ZeroSpeedIsCfgFatal : Prop :=
  ∀ (i : Instr) (op : HostOp) (s : State), s.mode = .idle →
    ((i = .runScript ∧ op = .runScript ∧ s.speedHz = 0) ∨ (i = .beginRamWrite ∧ op = .beginRamWrite ∧ s.speedHz = 0)
      ∨ (i = .sendFrame ∧ op = .sendFrame ∧ s.dataSpeedHz = 0)) →
    exec i s = .next { s with
      mode := .fatalHalt
      fatalCause := .cfg
      done := false
      lastOp := match op with | .runScript => 1 | .convertFrame => 2 | .beginRamWrite => 3 | .sendFrame => 4
      op := op
      spdCmd := s.speedHz
      spdData := s.dataSpeedHz
      sp := if i = .runScript then s.scriptStart.setWidth 17 else s.sp
      trace := s.trace ++ [.fatal .cfg] }

/-- R96, R99, R115: a CMD write that is not accepted (DSEQ is running or in FATAL_HALT) sets CMD_ERR and changes nothing
else. -/
def Obligations.RejectedCmdWrite : Prop :=
  ∀ (i : Instr) (s : State), (i = .runScript ∨ i = .convertFrame ∨ i = .beginRamWrite ∨ i = .sendFrame) →
    s.mode ≠ .idle → exec i s = .next { s with cmdErr := true }

/-- R96: a reserved operation code sets CMD_ERR and changes nothing else, in every mode. -/
def Obligations.ReservedCodeRejected : Prop :=
  ∀ (op : BitVec 4) (s : State), exec (.hostopReserved op) s = .next { s with cmdErr := true }

/-- R70, R80, R96: BEGIN_RAM_WRITE accepted with a nonzero SPEED_HZ and a transaction that succeeds after `k` failed attempts
(0, 1 or 2): DC low, RAMWR_OPCODE, and DC is left low; SP is not changed. The whole next state. The list of answers and the
draw number are the model's (log 4), and so is ATT (log 21). -/
def Obligations.BeginRamWriteResult : Prop :=
  ∀ (k : Nat) (s : State), s.host = [] → s.mode = .idle → s.speedHz ≠ 0 → k < 3 → LinkGives s (retriedAnswers k) →
    exec .beginRamWrite s = .next { s with
      done := true
      lastOp := 3
      op := .beginRamWrite
      spdCmd := s.speedHz
      spdData := s.dataSpeedHz
      att := k + 1
      csN := true
      sclk := false
      timer := if k = 0 then s.timer else none
      gpioOut := { s.gpioOut with dc := false }
      answers := s.answers.drop (k + 1)
      draws := s.draws + (k + 1)
      trace := s.trace ++ dcEvents s false ++ retriedEvents (levelOf false s.gpioOe.dc) s.speedHz [s.cfg.ramwrOpcode] k }

/-- R80, R97, R98: BEGIN_RAM_WRITE whose opcode fails three times is Fatal(CMD_XFER), FAULT_BYTE = RAMWR_OPCODE, SCRIPT_PTR
unchanged. -/
def Obligations.BeginRamWriteFailure : Prop :=
  ∀ s : State, s.host = [] → s.mode = .idle → s.speedHz ≠ 0 → (∀ j, j < 3 → answerAt s j = false) →
    ∃ t, exec .beginRamWrite s = .next t ∧ t.mode = .fatalHalt ∧ t.fatalCause = .cmdXfer
      ∧ t.faultByte = s.cfg.ramwrOpcode ∧ t.sp = s.sp ∧ t.done = false ∧ t.lastOp = 3
      ∧ t.gpioOut = { s.gpioOut with dc := false }
      ∧ t.trace = s.trace ++ dcEvents s false
        ++ failedEvents (levelOf false s.gpioOe.dc) s.speedHz [s.cfg.ramwrOpcode] ++ [.fatal .cmdXfer]

/-- R44, R45, R84, R86, R87, R89, R90, R91: CONVERT_FRAME over a RAW that is all written (pixel k's samples are R, G, B at RAW
bytes 3k, 3k+1, 3k+2 under RGB, and B, G, R there under BGR): the exact channel sums, the whole LUT, every
pixel's packed word in FB high byte first; no event, RAW unchanged, a normal end. -/
def Obligations.ConvertFrameResult : Prop :=
  ∀ s : State, s.host = [] → s.mode = .idle → RawWritten s → 255 * s.cfg.pixels < 2 ^ 32 →
    let sr := channelSum Rgb.r s s.cfg.pixels
    let sg := channelSum Rgb.g s s.cfg.pixels
    let sb := channelSum Rgb.b s s.cfg.pixels
    let entry := fun (sc : Nat) (v : Byte) =>
      if sc = 0 then v else BitVec.ofNat 8 (min (roundDiv s.cfg.awbRound (v.toNat * (sr + sg + sb)) (3 * sc)) 255)
    ∃ t, exec .convertFrame s = .next t
      ∧ t.sumR.toNat = sr ∧ t.sumG.toNat = sg ∧ t.sumB.toNat = sb
      ∧ (∀ v, lutAt t.lutR v = entry sr v ∧ lutAt t.lutG v = entry sg v ∧ lutAt t.lutB v = entry sb v)
      ∧ (∀ k, k < s.cfg.pixels →
          let p := pack565 (entry sr (samples s k).r) (entry sg (samples s k).g) (entry sb (samples s k).b)
          memRead t.fb (2 * k) = some (p.extractLsb' 8 8) ∧ memRead t.fb (2 * k + 1) = some (p.extractLsb' 0 8))
      ∧ t.raw = s.raw ∧ t.trace = s.trace ∧ t.mode = .idle ∧ t.done = true ∧ t.lastOp = 2 ∧ t.faults = s.faults

/-- R36, R86, R111: CONVERT_FRAME over a RAW with an unwritten byte, and SEND_FRAME over an FB with one, record the model
fault UNINIT_READ, and a run that had none stops with it at the next step. That the operation completes and the next step
stops is the model's (log 5, log 7). -/
def Obligations.UnwrittenByteIsModelFault : Prop :=
  ∀ (s : State) (a : Nat), s.host = [] → s.mode = .idle → s.faults = [] →
    (a < s.cfg.rawBytes → memRead s.raw a = none →
      ∃ t, exec .convertFrame s = .next t ∧ Fault.uninitRead ∈ t.faults ∧ step t = .fault .uninitRead)
    ∧ (a < s.cfg.fbBytes → memRead s.fb a = none → s.dataSpeedHz ≠ 0 →
      ∃ t, exec .sendFrame s = .next t ∧ Fault.uninitRead ∈ t.faults ∧ step t = .fault .uninitRead)

/-- R81, R82: SEND_FRAME over an FB that is all written, each block's first attempt successful: DC high once, the blocks of at
most 4096 bytes in increasing offset, each one attempt, FRAME_COUNT up by 1, nothing skipped. -/
def Obligations.SendFrameResult : Prop :=
  ∀ s : State, s.host = [] → s.mode = .idle → s.dataSpeedHz ≠ 0 → FbWritten s →
    let blocks := (s.cfg.fbBytes + 4095) / 4096
    (∀ j, j < blocks → answerAt s j = true) →
    ∃ t, exec .sendFrame s = .next t
      ∧ t.trace = s.trace ++ (if s.gpioOut.dc then [] else [.pin .dc true s.gpioOe.dc])
        ++ ((List.range blocks).map fun b => .attempt 1 (levelOf true s.gpioOe.dc) s.dataSpeedHz
            ((List.range (min 4096 (s.cfg.fbBytes - 4096 * b))).map fun j => byteAt s.fb (4096 * b + j)) true)
      ∧ t.frameCount = s.frameCount + 1 ∧ t.skipCount = s.skipCount ∧ t.fb = s.fb ∧ t.faults = s.faults
      ∧ t.gpioOut = { s.gpioOut with dc := true } ∧ t.mode = .idle ∧ t.done = true ∧ t.lastOp = 4

/-- R83: in a SEND_FRAME whose every block's transaction returns OK (here: none is skipped), the successful attempts,
concatenated, equal FB[0 .. FB_BYTES-1], however many attempts each block took. -/
def Obligations.SendFrameSendsEveryByteOnce : Prop :=
  ∀ s t : State, s.host = [] → s.mode = .idle → s.dataSpeedHz ≠ 0 → FbWritten s → s.cfg.wf = true →
    exec .sendFrame s = .next t → t.skipCount = s.skipCount →
    ∃ new, t.trace = s.trace ++ new
      ∧ okPayloads new = (List.range s.cfg.fbBytes).map fun a => byteAt s.fb a

/-- R81, R82, R101: whatever the link answers, SEND_FRAME with a nonzero DATA_SPEED_HZ ends normally after exactly
NB = ceil(FB_BYTES/4096) transactions, at most 3 NB attempts and 2 NB waits; FRAME_COUNT goes up by 1, and SKIP_COUNT by the
number of transactions that failed. -/
def Obligations.SendFrameAlwaysEnds : Prop :=
  ∀ s : State, s.host = [] → s.mode = .idle → s.dataSpeedHz ≠ 0 →
    let blocks := (s.cfg.fbBytes + 4095) / 4096
    ∃ t new, exec .sendFrame s = .next t ∧ t.trace = s.trace ++ new
      ∧ t.mode = .idle ∧ t.done = true ∧ t.fatalCause = s.fatalCause ∧ t.frameCount = s.frameCount + 1
      ∧ new.countP isFirstAttempt = blocks ∧ new.countP isAttempt ≤ 3 * blocks ∧ new.countP isWait ≤ 2 * blocks
      ∧ t.skipCount = s.skipCount + BitVec.ofNat 32 (new.countP fun e =>
          match e with | .attempt k _ _ _ ok => k == 3 && !ok | _ => false)

/-- The frame of RUN_SCRIPT, BEGIN_RAM_WRITE, SEND_FRAME and a reserved code, while the host only passes or polls, whatever
the link answers: what none of them writes, and what only some of them write. Every byte of RAW and FB reads as before. -/
def Obligations.HostOpFrame : Prop :=
  ∀ (i : Instr) (op : BitVec 4) (s t : State),
    (i = .runScript ∨ i = .beginRamWrite ∨ i = .sendFrame ∨ i = .hostopReserved op) → Quiet s → exec i s = .next t →
    (∀ a, memRead t.raw a = memRead s.raw a) ∧ (∀ a, memRead t.fb a = memRead s.fb a)
      ∧ t.cfg = s.cfg ∧ t.gpioOe = s.gpioOe ∧ t.gpioOut.rst = s.gpioOut.rst ∧ t.gpioOut.bl = s.gpioOut.bl
      ∧ t.speedHz = s.speedHz ∧ t.dataSpeedHz = s.dataSpeedHz ∧ t.scriptStart = s.scriptStart
      ∧ t.sumR = s.sumR ∧ t.sumG = s.sumG ∧ t.sumB = s.sumB ∧ t.lutR = s.lutR ∧ t.lutG = s.lutG ∧ t.lutB = s.lutB
      ∧ t.n = s.n ∧ t.dflag = s.dflag ∧ t.argi = s.argi ∧ t.pixk = s.pixk ∧ t.responses = s.responses
      ∧ (i ≠ .runScript → t.sp = s.sp)
      ∧ (i ≠ .beginRamWrite → t.faultByte = s.faultByte)
      ∧ (i ≠ .sendFrame → t.skipCount = s.skipCount ∧ t.frameCount = s.frameCount ∧ t.off = s.off
          ∧ t.faults = s.faults)
      ∧ (s.mode = .idle → i ≠ .hostopReserved op → t.cmdErr = s.cmdErr)
      ∧ (s.mode ≠ .idle → t.mode = s.mode ∧ t.done = s.done ∧ t.trace = s.trace ∧ t.lastOp = s.lastOp
          ∧ t.fatalCause = s.fatalCause ∧ t.gpioOut = s.gpioOut)

/-- The frame of CONVERT_FRAME, while the host only passes or polls: it writes the sums, the LUT, MODE, DONE, LAST_OP, OP,
PIXK, the latched speeds, and of memory the bytes 2k and 2k+1 of FB for each pixel k; every other byte of FB, and every byte of
RAW, reads as before. -/
def Obligations.ConvertFrameFrame : Prop :=
  ∀ s t : State, Quiet s → exec .convertFrame s = .next t →
    (∀ a, memRead t.raw a = memRead s.raw a)
      ∧ (∀ a, (∀ k, k < s.cfg.pixels → a ≠ 2 * k ∧ a ≠ 2 * k + 1) → memRead t.fb a = memRead s.fb a)
      ∧ t.cfg = s.cfg ∧ t.fatalCause = s.fatalCause ∧ t.gpioOe = s.gpioOe ∧ t.gpioOut = s.gpioOut
      ∧ t.speedHz = s.speedHz ∧ t.dataSpeedHz = s.dataSpeedHz ∧ t.scriptStart = s.scriptStart ∧ t.sp = s.sp
      ∧ t.faultByte = s.faultByte ∧ t.skipCount = s.skipCount ∧ t.frameCount = s.frameCount
      ∧ t.n = s.n ∧ t.dflag = s.dflag ∧ t.argi = s.argi ∧ t.off = s.off ∧ t.att = s.att
      ∧ t.csN = s.csN ∧ t.sclk = s.sclk ∧ t.timer = s.timer ∧ t.trace = s.trace ∧ t.responses = s.responses
      ∧ t.answers = s.answers ∧ (s.mode = .idle → t.cmdErr = s.cmdErr)

/-! ### The host's registers and windows -/

/-- R16, R31, R97: the fields of STATUS, bit by bit, with the five codes of FATAL_CAUSE. -/
def Obligations.StatusFields : Prop :=
  ∀ s : State, (statusWord s).getLsbD 0 = decide (s.mode = .run) ∧ (statusWord s).getLsbD 1 = decide (s.mode = .fatalHalt)
    ∧ (statusWord s).getLsbD 2 = s.cmdErr ∧ (statusWord s).getLsbD 3 = s.done
    ∧ (statusWord s).extractLsb' 4 4 = 0
    ∧ (statusWord s).extractLsb' 8 4 = (match s.fatalCause with
        | .none => 0 | .cfg => 1 | .cmdXfer => 2 | .argXfer => 3 | .scriptOverrun => 4)
    ∧ (statusWord s).extractLsb' 12 4 = s.lastOp ∧ (statusWord s).extractLsb' 16 16 = 0

/-- R14 to R30, R96, R115: each register, and what a host write to it leaves. A CMD write while an operation runs sets CMD_ERR
and changes nothing else (every other CMD write is an instruction: StepRunsHostOp). CMD_ERR and DONE are write-1-to-clear
(R16), any write clears a counter (R25, R26), DC is ignored while BUSY = 1 (R18), and a write to a read-only or reserved
offset changes nothing (R21, R23, R24, R27 to R30). That a GPIO_OE write which keeps DC_OE is made while an operation with SPI
attempts runs is the model's reading of R118 (b) (log 8). -/
def Obligations.RegisterWrites : Prop :=
  ∀ (v : Word) (s : State),
    (s.mode = .run → hostAccess (.write 0x000000 .w32 v) s = { s with cmdErr := true })
      ∧ hostAccess (.write 0x000004 .w32 v) s =
        { s with cmdErr := s.cmdErr && !v.getLsbD 2, done := s.done && !v.getLsbD 3 }
      ∧ (s.mode ≠ .run ∨ s.op = .convertFrame ∨ v.getLsbD 0 = s.gpioOe.dc → hostAccess (.write 0x000008 .w32 v) s =
          setLines s.gpioOut ⟨v.getLsbD 0, v.getLsbD 1, v.getLsbD 2⟩ s)
      ∧ hostAccess (.write 0x00000C .w32 v) s =
          setLines ⟨if s.mode = .run then s.gpioOut.dc else v.getLsbD 0, v.getLsbD 1, v.getLsbD 2⟩ s.gpioOe s
      ∧ hostAccess (.write 0x000010 .w32 v) s = { s with speedHz := v }
      ∧ hostAccess (.write 0x000014 .w32 v) s = { s with dataSpeedHz := v }
      ∧ hostAccess (.write 0x00001C .w32 v) s = { s with scriptStart := v.setWidth 16 }
      ∧ hostAccess (.write 0x000028 .w32 v) s = { s with skipCount := 0 }
      ∧ hostAccess (.write 0x00002C .w32 v) s = { s with frameCount := 0 }
      ∧ (∀ off : Nat, off % 4 = 0 → (off = 0x18 ∨ off = 0x20 ∨ off = 0x24 ∨ (0x30 ≤ off ∧ off < 0x1000)) →
          hostAccess (.write (BitVec.ofNat 24 off) .w32 v) s = s)

/-- R15 to R30: what a 32-bit read of each register gives back, in every mode: the named registers (STATUS by its fields: the
statement StatusFields; of GPIO_OE and GPIO_OUT bit 0 DC, bit 1 RST, bit 2 BL, the rest zero), LUT[i] for every i, and 0 at a
reserved offset. SUM_R, SUM_G, SUM_B and the LUT are read here while CONVERT_FRAME does not run; while it runs such a
read is a hazard (R118 (a): the statement Hazards). -/
def Obligations.RegisterReads : Prop :=
  ∀ s : State,
    let gives := fun (off : Nat) (v : Word) =>
      hostAccess (.read (BitVec.ofNat 24 off) .w32) s = { s with responses := s.responses ++ [.data v] }
    gives 0x000 0 ∧ gives 0x004 (statusWord s)
      ∧ gives 0x008 ((0 : BitVec 29) ++ BitVec.ofBool s.gpioOe.bl ++ BitVec.ofBool s.gpioOe.rst ++ BitVec.ofBool s.gpioOe.dc)
      ∧ gives 0x00C ((0 : BitVec 29) ++ BitVec.ofBool s.gpioOut.bl ++ BitVec.ofBool s.gpioOut.rst ++ BitVec.ofBool s.gpioOut.dc)
      ∧ gives 0x010 s.speedHz ∧ gives 0x014 s.dataSpeedHz ∧ gives 0x018 0
      ∧ gives 0x01C (s.scriptStart.setWidth 32) ∧ gives 0x020 (s.sp.setWidth 32) ∧ gives 0x024 (s.faultByte.setWidth 32)
      ∧ gives 0x028 s.skipCount ∧ gives 0x02C s.frameCount
      ∧ gives 0x030 (BitVec.ofNat 16 s.cfg.height ++ BitVec.ofNat 16 s.cfg.width)
      ∧ (¬ (s.mode = .run ∧ s.op = .convertFrame) →
          gives 0x034 s.sumR ∧ gives 0x038 s.sumG ∧ gives 0x03C s.sumB
            ∧ ∀ i : Fin 256, gives (0x400 + 4 * i.val) ((0 : BitVec 8) ++ s.lutB[i] ++ s.lutG[i] ++ s.lutR[i]))
      ∧ (∀ off, off % 4 = 0 → (0x040 ≤ off ∧ off < 0x400 ∨ 0x800 ≤ off ∧ off < 0x1000) → gives off 0)

/-- R42: no host read has a side effect on DSEQ: it changes at most the model's own record of answers and model faults. And
every read is idempotent: made twice, a read that the bus allows and that is no hazard gives the same data twice and changes
nothing else, unwritten bytes of RAW and FB included. That a read of an unwritten byte is no model fault is the model's
(log 6). -/
def Obligations.ReadsHaveNoSideEffect : Prop :=
  ∀ (addr : Addr) (w : Width) (s : State),
    (∃ responses faults, hostAccess (.read addr w) s = { s with responses := responses, faults := faults })
      ∧ (accessAllowed s.cfg (.read addr w) = true → isHazard (.read addr w) s = false →
          ∃ v, hostAccess (.read addr w) s = { s with responses := s.responses ++ [.data v] }
            ∧ hostAccess (.read addr w) (hostAccess (.read addr w) s)
              = { s with responses := s.responses ++ [.data v, .data v] })

/-- R6, R38, R39, R40: which accesses draw a bus error (for parameters that meet R6), and that such an access has no effect on any
state of DSEQ: the host gets an error response and the model fault BUS_ERR is recorded. -/
def Obligations.BusErrors : Prop :=
  ∀ (a : Access) (s : State), s.cfg.wf = true →
    let x := (accessAddr a).toNat
    let n := match accessWidth a with | .w8 => 1 | .w16 => 2 | .w32 => 4
    let pixels := s.cfg.width * s.cfg.height
    let inside := fun (base size : Nat) => base ≤ x ∧ x + n ≤ base + size
    let allowed := x % n = 0 ∧
      ((x < 0x1000 ∧ accessWidth a = .w32) ∨ inside 0x100000 (3 * pixels)
        ∨ (isWrite a = false ∧ (inside 0x200000 (2 * pixels) ∨ inside 0x300000 s.cfg.rom.length)))
    (allowed → accessAllowed s.cfg a = true)
      ∧ (¬ allowed → hostAccess a s =
          { s with
            responses := s.responses ++ [.busError]
            faults := if Fault.busErr ∈ s.faults then s.faults else s.faults ++ [.busErr] })

/-- R116, R117, R118: the hazards, and that no other allowed access is one. A hazard is refused: the model fault is
recorded and nothing else changes. That a write of GPIO_OE which keeps DC_OE is none, and that a hazard has no effect, are
the model's reading (log 8). -/
def Obligations.Hazards : Prop :=
  ∀ (a : Access) (s : State), s.cfg.wf = true → accessAllowed s.cfg a = true →
    let x := (accessAddr a).toNat
    let hazard := s.mode = .run ∧
      ((s.op = .convertFrame ∧
          ((isWrite a = true ∧ 0x100000 ≤ x ∧ x < 0x100000 + s.cfg.rawBytes)
            ∨ (isWrite a = false ∧ 0x200000 ≤ x ∧ x < 0x200000 + s.cfg.fbBytes)
            ∨ (isWrite a = false ∧ (x = 0x034 ∨ x = 0x038 ∨ x = 0x03C ∨ (0x400 ≤ x ∧ x < 0x800)))))
        ∨ (s.op ≠ .convertFrame ∧ ∃ v, a = .write 0x000008 .w32 v ∧ v.getLsbD 0 ≠ s.gpioOe.dc))
    (hazard → hostAccess a s = { s with faults := if Fault.hazard ∈ s.faults then s.faults else s.faults ++ [.hazard] })
      ∧ (¬ hazard → hostAccess a s = performAccess a s)

/-- R41, R43, R44: a host write to the RAW window stores its bytes in little-endian lanes, and no other byte of RAW changes.
R43 gives the lanes of 16- and 32-bit accesses; that an 8-bit write stores data bits 7:0 is the model's (log 19). -/
def Obligations.RawWindowWrite : Prop :=
  ∀ (off : Nat) (w : Width) (v : Word) (s : State),
    s.cfg.rawBytes ≤ 0x100000 → off % widthBytes w = 0 → off + widthBytes w ≤ s.cfg.rawBytes →
    ¬ (s.mode = .run ∧ s.op = .convertFrame) →
    ∃ t, hostAccess (.write (BitVec.ofNat 24 (0x100000 + off)) w v) s = t ∧ t = { s with raw := t.raw }
      ∧ (∀ k, k < widthBytes w → memRead t.raw (off + k) = some (v.extractLsb' (8 * k) 8))
      ∧ (∀ a, (∀ k, k < widthBytes w → a ≠ off + k) → memRead t.raw a = memRead s.raw a)

/-- R38, R43, R45, R47: a host read of the RAW, the FB or the SCRIPT_ROM window gives the bytes in little-endian lanes and
changes nothing but the responses; an FB read is made here while CONVERT_FRAME does not run (R117: the statement Hazards).
R43 gives the lanes that a 16- or 32-bit access moves; that an 8-bit read gives its byte on data bits 7:0, and that the
unused lanes of a narrow read are zero, is the model's (log 19). A byte of RAW or FB that nothing wrote reads as a free
value, with no fault, which is the model's too (log 6). -/
def Obligations.WindowReads : Prop :=
  ∀ (off : Nat) (w : Width) (s : State), off % widthBytes w = 0 → s.cfg.wf = true →
    let gives := fun (base : Nat) (byte : Nat → Byte) => ∃ v : Word,
      hostAccess (.read (BitVec.ofNat 24 (base + off)) w) s = { s with responses := s.responses ++ [.data v] }
        ∧ (∀ k, k < 4 → v.extractLsb' (8 * k) 8 = if k < widthBytes w then byte (off + k) else 0)
    (off + widthBytes w ≤ s.cfg.rawBytes →
        gives 0x100000 fun a => (memRead s.raw a).getD (Config.unwrittenRaw s.resets a))
      ∧ (off + widthBytes w ≤ s.cfg.fbBytes → ¬ (s.mode = .run ∧ s.op = .convertFrame) →
        gives 0x200000 fun a => (memRead s.fb a).getD (Config.unwrittenFb s.resets a))
      ∧ (off + widthBytes w ≤ s.cfg.romBytes → gives 0x300000 fun i => s.cfg.rom.getD i 0)

/-! ### The converter's arithmetic -/

/-- R85: each rounding mode, by the exact fraction: TRUNC is the floor; the other two are nearest, and a tie goes up under
HALF_UP and to the even neighbour under HALF_EVEN. -/
def Obligations.RoundModes : Prop :=
  ∀ a b : Nat, 0 < b →
    (∃ r, r < b ∧ a = roundDiv .trunc a b * b + r)
      ∧ (∀ q, q = roundDiv .halfUp a b → 2 * q * b ≤ 2 * a + b ∧ 2 * a < 2 * q * b + b)
      ∧ (∀ q, q = roundDiv .halfEven a b → 2 * q * b ≤ 2 * a + b ∧ 2 * a ≤ 2 * q * b + b
          ∧ (2 * q * b = 2 * a + b ∨ 2 * a = 2 * q * b + b → q % 2 = 0))

/-- R91: Pack565 takes the high bits of each sample: (r >> 3) << 11 | (g >> 2) << 5 | (b >> 3); and the word goes to FB high
byte first. -/
def Obligations.PackLayout : Prop :=
  ∀ (r g b : Byte) (k : Nat) (s : State),
    (pack565 r g b).extractLsb' 11 5 = r.extractLsb' 3 5 ∧ (pack565 r g b).extractLsb' 5 6 = g.extractLsb' 2 6
      ∧ (pack565 r g b).extractLsb' 0 5 = b.extractLsb' 3 5
      ∧ pack565 r g b = ((r.setWidth 16 >>> 3) <<< 11) ||| ((g.setWidth 16 >>> 2) <<< 5) ||| (b.setWidth 16 >>> 3)
      ∧ memRead (storePixel k (pack565 r g b) s).fb (2 * k) = some ((pack565 r g b).extractLsb' 8 8)
      ∧ memRead (storePixel k (pack565 r g b) s).fb (2 * k + 1) = some ((pack565 r g b).extractLsb' 0 8)

/-- R92: unpacking a packed pixel recovers each channel within one step of its width. -/
def Obligations.PackQuantization : Prop :=
  ∀ r g b : Byte,
    let p := pack565 r g b
    let r' := (p.extractLsb' 11 5).toNat * 8
    let g' := (p.extractLsb' 5 6).toNat * 4
    let b' := (p.extractLsb' 0 5).toNat * 8
    (r' ≤ r.toNat ∧ r.toNat ≤ r' + 7) ∧ (g' ≤ g.toNat ∧ g.toNat ≤ g' + 3) ∧ (b' ≤ b.toNat ∧ b.toNat ≤ b' + 7)

/-- R93, R94: where the three sums are equal, the table is the identity in every rounding mode; and a channel whose sum is 0
keeps every sample. -/
def Obligations.EqualSumsAreIdentity : Prop :=
  ∀ (mode : Rounding) (sum t : Nat) (v : Byte),
    lutAt (lutTable mode sum (sum + sum + sum)) v = v ∧ lutAt (lutTable mode 0 t) v = v

/-- R95 (a), (b), (c): each table is nondecreasing and starts at 0; a gain of at most 1 never raises a sample; and above the
bound of each rounding mode the entry is 255. -/
def Obligations.LutLaws : Prop :=
  ∀ (mode : Rounding) (sc t : Nat),
    lutAt (lutTable mode sc t) 0 = 0
      ∧ (∀ u v : Byte, u.toNat ≤ v.toNat → (lutAt (lutTable mode sc t) u).toNat ≤ (lutAt (lutTable mode sc t) v).toNat)
      ∧ (∀ v : Byte, 0 < sc → t ≤ 3 * sc → (lutAt (lutTable mode sc t) v).toNat ≤ v.toNat)
      ∧ (∀ v : Byte, 0 < sc → 511 * (3 * sc) ≤ 2 * (v.toNat * t) → mode ≠ .trunc → lutAt (lutTable mode sc t) v = 255)
      ∧ (∀ v : Byte, 0 < sc → 256 * (3 * sc) ≤ v.toNat * t → lutAt (lutTable mode sc t) v = 255)

/-! ### Reset and invariants -/

/-- R37, R110: the state after reset, for every choice of the parameters: the values the spec gives. -/
def Obligations.ResetValues : Prop :=
  ∀ p : Params,
    let s := State.resetWith p
    s.mode = .idle ∧ statusWord s = 0 ∧ linesToWord s.gpioOe = 0 ∧ linesToWord s.gpioOut = 0
      ∧ s.speedHz = 0 ∧ s.dataSpeedHz = 0 ∧ s.scriptStart = 0 ∧ s.sp = 0 ∧ s.faultByte = 0
      ∧ s.skipCount = 0 ∧ s.frameCount = 0 ∧ s.sumR = 0 ∧ s.sumG = 0 ∧ s.sumB = 0
      ∧ (∀ v : Byte, lutAt s.lutR v = v ∧ lutAt s.lutG v = v ∧ lutAt s.lutB v = v)
      ∧ readReg .spiMode s = 0 ∧ readReg .dims s = BitVec.ofNat 16 p.height ++ BitVec.ofNat 16 p.width
      ∧ (∀ a, memRead s.raw a = none ∧ memRead s.fb a = none) ∧ s.cfg = p
      ∧ (∀ l, pinLevel l s = .z) ∧ s.csN = true ∧ s.trace = []

/-- R110: asserting `rst` puts the whole of DSEQ into its reset state, whatever it was doing, between two steps or in the
middle of an operation, which is then abandoned: every pin is at Z, CS_N deasserted, no wait in progress, and the trace is
empty. The parameters, the host's program, the link and the record of model faults are not DSEQ's. That those go on, and
that resets are counted, is the model's (log 14). R37 leaves the internal registers OP, N, DFLAG, ARGI, OFF, ATT, SPD_CMD,
SPD_DATA and PIXK unspecified: their values in `State.resetWith` are the model's choice (log 3). -/
def Obligations.ResetFromAnyState : Prop :=
  ∀ (s : State) (more : List HostEvent), s.host = .reset :: more →
    let t := { State.resetWith s.cfg with
      host := more, responses := s.responses, answers := s.answers, draws := s.draws,
      resets := s.resets + 1, faults := s.faults }
    (s.faults = [] → step s = .next t) ∧ hostTurn s = .stop t
      ∧ (∀ l, pinLevel l t = .z) ∧ t.csN = true ∧ t.timer = none ∧ t.trace = []

/-- The invariant of every step (R16, R35, R66, R98): RAW and FB are canonical and within their sizes; DONE is 0 while an
operation runs and after a fatal error, and FATAL_CAUSE names a cause exactly in FATAL_HALT; between steps the link is idle
unless the host broke a hazard rule. That nothing is said after a hazard is the model's (log 18). -/
def Obligations.StepKeepsInv : Prop :=
  ∀ s t : State, Inv s → step s = .next t → Inv t

/-- The invariant holds after reset, for every choice of the parameters. -/
def Obligations.ResetInv : Prop := ∀ p : Params, Inv (State.resetWith p)

/-- R35, R47, R50: no step changes a parameter: SCRIPT_ROM holds its reset contents for ever. That the parameters are a
field of State is the model's (log 2). -/
def Obligations.StepKeepsParameters : Prop :=
  ∀ s t : State, step s = .next t → t.cfg = s.cfg

/-- R99: only reset leaves FATAL_HALT: a step from there that ends in another mode is the host's reset, and while it lasts
FATAL_CAUSE, SCRIPT_PTR and FAULT_BYTE stay. -/
def Obligations.OnlyResetLeavesFatal : Prop :=
  ∀ s t : State, s.mode = .fatalHalt → step s = .next t →
    (t.mode ≠ .fatalHalt → (∃ more, s.host = .reset :: more) ∧ t.mode = .idle)
      ∧ (t.mode = .fatalHalt → t.fatalCause = s.fatalCause ∧ t.sp = s.sp ∧ t.faultByte = s.faultByte
          ∧ t.fb = s.fb ∧ t.lastOp = s.lastOp)

/-- R10, R110: no step but a reset takes an event out of the trace. That a reset empties the trace is the model's reading
of "A trace begins at reset" (log 14). -/
def Obligations.TraceOnlyGrows : Prop :=
  ∀ s t : State, HostEvent.reset ∉ s.host → step s = .next t → ∃ new, t.trace = s.trace ++ new

/-- R74: every RUN_SCRIPT ends: from any point of a running script, with the host making no access and whatever the link
answers, at most ceil(SCRIPT_ROM_BYTES / 2) entries and one more step are executed before no operation runs. That a step is
one entry is the model's (log 10). -/
def Obligations.ScriptEnds : Prop :=
  ∀ s : State, s.host = [] → s.faults = [] → s.mode = .run → s.op = .runScript → s.cfg.romBytes ≤ 65536 →
    ∃ k t, k ≤ (s.cfg.romBytes + 1) / 2 + 1 ∧ Host.Core.run core k s = .next t ∧ t.mode ≠ .run
      ∧ (t.mode = .idle ∧ t.done = true ∨ t.mode = .fatalHalt ∧ t.done = s.done)

/-! ### Cut-off entries -/

/-- R70, R73, R77, R78, R97, R100: an entry that is not whole within SCRIPT_ROM ends in the first failure of its step order: if
the opcode's transaction fails three times, in Fatal(CMD_XFER), and if that of an argument that is there does, in
Fatal(ARG_XFER), and not in Fatal(SCRIPT_OVERRUN). The whole next state of each; `avail` are the arguments that are there,
`pre` those before the failing one `a`. That this is one step is the model's (log 10, log 11); so are the list of answers and
the draw number (log 4), and ATT (log 21). SCRIPT_ROM_BYTES is at most 65536 (R6), which the 17 bits of SP hold (log 1). -/
def Obligations.TransferFailureComesBeforeOverrun : Prop :=
  ∀ (s : State) (e : DecodeError) (opc : Byte),
    s.faults = [] → s.host = [] → s.mode = .run → s.op = .runScript → s.cfg.romBytes ≤ 65536 →
    let tail := s.cfg.rom.drop s.sp.toNat
    decodeScript tail = .error e →
    (∀ rest, tail = opc :: rest → LinkGives s failedAnswers →
        step s = .next { s with
          mode := .fatalHalt
          fatalCause := .cmdXfer
          faultByte := opc
          att := 3
          csN := true
          sclk := false
          timer := none
          gpioOut := { s.gpioOut with dc := false }
          answers := s.answers.drop 3
          draws := s.draws + 3
          trace := s.trace ++ dcEvents s false ++ failedEvents (levelOf false s.gpioOe.dc) s.spdCmd [opc]
            ++ [.fatal .cmdXfer] })
      ∧ (∀ (hdr a : Byte) (pre post : List Byte) (k : Nat) (ks : List Nat), tail = opc :: hdr :: (pre ++ a :: post) →
        (∀ x ∈ k :: ks, x < 3) → ks.length = pre.length →
        let given := (k :: ks).flatMap retriedAnswers ++ failedAnswers
        LinkGives s given →
        step s = .next { s with
          mode := .fatalHalt
          fatalCause := .argXfer
          faultByte := a
          sp := BitVec.ofNat 17 (s.sp.toNat + 2 + pre.length)
          n := hdr.extractLsb' 0 7
          dflag := hdr.getLsbD 7
          argi := pre.length
          att := 3
          csN := true
          sclk := false
          timer := none
          gpioOut := { s.gpioOut with dc := true }
          answers := s.answers.drop given.length
          draws := s.draws + given.length
          trace := s.trace ++ opcodeEvents s opc k ++ [.pin .dc true s.gpioOe.dc] ++ argEvents s pre ks
            ++ failedEvents (levelOf true s.gpioOe.dc) s.spdCmd [a] ++ [.fatal .argXfer] })
end

