-- ==== Sys2Proof/Laws/Decode.lean ====
section
/-! SUPPORT. The fields of META, and what the decoder makes of a header and the bytes after it. -/

namespace Sys2Proof

theorem metaCount_lt (m : Byte) : metaCount m < 128 := (m.extractLsb' 0 7).isLt

/-- META's fields read back what the encoder wrote. -/
theorem metaCount_encodeMeta (n : Nat) (d : Bool) (h : n ≤ 127) : metaCount (encodeMeta n d) = n :=
  (by decide +kernel : ∀ (n : Fin 128) (d : Bool), metaCount (encodeMeta n.val d) = n.val) ⟨n, by omega⟩ d

theorem metaDelay_encodeMeta (n : Nat) (d : Bool) (h : n ≤ 127) : metaDelay (encodeMeta n d) = d :=
  (by decide +kernel : ∀ (n : Fin 128) (d : Bool), metaDelay (encodeMeta n.val d) = d) ⟨n, by omega⟩ d

/-- META is its two fields. -/
theorem encodeMeta_fields (m : Byte) : encodeMeta (metaCount m) (metaDelay m) = m :=
  (by decide +kernel : ∀ x : Fin 256, encodeMeta (metaCount (BitVec.ofFin x)) (metaDelay (BitVec.ofFin x)) = BitVec.ofFin x)
    m.toFin

/-- What the decoder makes of an opcode, a META byte and the bytes after them. -/
theorem decodeScript_header (opc hdr : Byte) (body : List Byte) (h : opc ≠ 0) :
    decodeScript (opc :: hdr :: body) =
      if (body.take (metaCount hdr)).length < metaCount hdr then .error (.shortArgs opc hdr body)
      else if metaDelay hdr then
        match body.drop (metaCount hdr) with
        | [] => .error (.noDelay opc (body.take (metaCount hdr)))
        | dly :: after => .ok (.cmdDly opc (body.take (metaCount hdr)) dly, after)
      else .ok (.cmd opc (body.take (metaCount hdr)), body.drop (metaCount hdr)) := by
  exact if_neg (show ¬ opc = Config.terminator from h)

/-- A zero at the opcode position is TERM. -/
theorem decodeScript_zero (rest : List Byte) : decodeScript (0 :: rest) = .ok (.term, rest) := by
  simp [decodeScript, Config.terminator]

end Sys2Proof
end

