-- ==== Sys2Proof/Laws/State.lean ====
section
/-! SUPPORT. One lemma for each field and each named update of State: what the field is afterwards. Proofs rewrite with these
and never unfold an update. -/

namespace Sys2Proof.Machine

/-! ### emit -/

@[simp] theorem emit_cfg (e : Event) (s : State) : (emit e s).cfg = s.cfg := rfl
@[simp] theorem emit_mode (e : Event) (s : State) : (emit e s).mode = s.mode := rfl
@[simp] theorem emit_cmdErr (e : Event) (s : State) : (emit e s).cmdErr = s.cmdErr := rfl
@[simp] theorem emit_done (e : Event) (s : State) : (emit e s).done = s.done := rfl
@[simp] theorem emit_fatalCause (e : Event) (s : State) : (emit e s).fatalCause = s.fatalCause := rfl
@[simp] theorem emit_lastOp (e : Event) (s : State) : (emit e s).lastOp = s.lastOp := rfl
@[simp] theorem emit_gpioOe (e : Event) (s : State) : (emit e s).gpioOe = s.gpioOe := rfl
@[simp] theorem emit_gpioOut (e : Event) (s : State) : (emit e s).gpioOut = s.gpioOut := rfl
@[simp] theorem emit_speedHz (e : Event) (s : State) : (emit e s).speedHz = s.speedHz := rfl
@[simp] theorem emit_dataSpeedHz (e : Event) (s : State) : (emit e s).dataSpeedHz = s.dataSpeedHz := rfl
@[simp] theorem emit_scriptStart (e : Event) (s : State) : (emit e s).scriptStart = s.scriptStart := rfl
@[simp] theorem emit_sp (e : Event) (s : State) : (emit e s).sp = s.sp := rfl
@[simp] theorem emit_faultByte (e : Event) (s : State) : (emit e s).faultByte = s.faultByte := rfl
@[simp] theorem emit_skipCount (e : Event) (s : State) : (emit e s).skipCount = s.skipCount := rfl
@[simp] theorem emit_frameCount (e : Event) (s : State) : (emit e s).frameCount = s.frameCount := rfl
@[simp] theorem emit_sumR (e : Event) (s : State) : (emit e s).sumR = s.sumR := rfl
@[simp] theorem emit_sumG (e : Event) (s : State) : (emit e s).sumG = s.sumG := rfl
@[simp] theorem emit_sumB (e : Event) (s : State) : (emit e s).sumB = s.sumB := rfl
@[simp] theorem emit_lutR (e : Event) (s : State) : (emit e s).lutR = s.lutR := rfl
@[simp] theorem emit_lutG (e : Event) (s : State) : (emit e s).lutG = s.lutG := rfl
@[simp] theorem emit_lutB (e : Event) (s : State) : (emit e s).lutB = s.lutB := rfl
@[simp] theorem emit_raw (e : Event) (s : State) : (emit e s).raw = s.raw := rfl
@[simp] theorem emit_fb (e : Event) (s : State) : (emit e s).fb = s.fb := rfl
@[simp] theorem emit_op (e : Event) (s : State) : (emit e s).op = s.op := rfl
@[simp] theorem emit_n (e : Event) (s : State) : (emit e s).n = s.n := rfl
@[simp] theorem emit_dflag (e : Event) (s : State) : (emit e s).dflag = s.dflag := rfl
@[simp] theorem emit_argi (e : Event) (s : State) : (emit e s).argi = s.argi := rfl
@[simp] theorem emit_off (e : Event) (s : State) : (emit e s).off = s.off := rfl
@[simp] theorem emit_att (e : Event) (s : State) : (emit e s).att = s.att := rfl
@[simp] theorem emit_spdCmd (e : Event) (s : State) : (emit e s).spdCmd = s.spdCmd := rfl
@[simp] theorem emit_spdData (e : Event) (s : State) : (emit e s).spdData = s.spdData := rfl
@[simp] theorem emit_pixk (e : Event) (s : State) : (emit e s).pixk = s.pixk := rfl
@[simp] theorem emit_csN (e : Event) (s : State) : (emit e s).csN = s.csN := rfl
@[simp] theorem emit_sclk (e : Event) (s : State) : (emit e s).sclk = s.sclk := rfl
@[simp] theorem emit_timer (e : Event) (s : State) : (emit e s).timer = s.timer := rfl
@[simp] theorem emit_trace (e : Event) (s : State) : (emit e s).trace = s.trace ++ [e] := rfl
@[simp] theorem emit_host (e : Event) (s : State) : (emit e s).host = s.host := rfl
@[simp] theorem emit_responses (e : Event) (s : State) : (emit e s).responses = s.responses := rfl
@[simp] theorem emit_answers (e : Event) (s : State) : (emit e s).answers = s.answers := rfl
@[simp] theorem emit_draws (e : Event) (s : State) : (emit e s).draws = s.draws := rfl
@[simp] theorem emit_resets (e : Event) (s : State) : (emit e s).resets = s.resets := rfl
@[simp] theorem emit_faults (e : Event) (s : State) : (emit e s).faults = s.faults := rfl

/-! ### recordFault -/

@[simp] theorem recordFault_cfg (f : Fault) (s : State) : (recordFault f s).cfg = s.cfg := rfl
@[simp] theorem recordFault_mode (f : Fault) (s : State) : (recordFault f s).mode = s.mode := rfl
@[simp] theorem recordFault_cmdErr (f : Fault) (s : State) : (recordFault f s).cmdErr = s.cmdErr := rfl
@[simp] theorem recordFault_done (f : Fault) (s : State) : (recordFault f s).done = s.done := rfl
@[simp] theorem recordFault_fatalCause (f : Fault) (s : State) : (recordFault f s).fatalCause = s.fatalCause := rfl
@[simp] theorem recordFault_lastOp (f : Fault) (s : State) : (recordFault f s).lastOp = s.lastOp := rfl
@[simp] theorem recordFault_gpioOe (f : Fault) (s : State) : (recordFault f s).gpioOe = s.gpioOe := rfl
@[simp] theorem recordFault_gpioOut (f : Fault) (s : State) : (recordFault f s).gpioOut = s.gpioOut := rfl
@[simp] theorem recordFault_speedHz (f : Fault) (s : State) : (recordFault f s).speedHz = s.speedHz := rfl
@[simp] theorem recordFault_dataSpeedHz (f : Fault) (s : State) : (recordFault f s).dataSpeedHz = s.dataSpeedHz := rfl
@[simp] theorem recordFault_scriptStart (f : Fault) (s : State) : (recordFault f s).scriptStart = s.scriptStart := rfl
@[simp] theorem recordFault_sp (f : Fault) (s : State) : (recordFault f s).sp = s.sp := rfl
@[simp] theorem recordFault_faultByte (f : Fault) (s : State) : (recordFault f s).faultByte = s.faultByte := rfl
@[simp] theorem recordFault_skipCount (f : Fault) (s : State) : (recordFault f s).skipCount = s.skipCount := rfl
@[simp] theorem recordFault_frameCount (f : Fault) (s : State) : (recordFault f s).frameCount = s.frameCount := rfl
@[simp] theorem recordFault_sumR (f : Fault) (s : State) : (recordFault f s).sumR = s.sumR := rfl
@[simp] theorem recordFault_sumG (f : Fault) (s : State) : (recordFault f s).sumG = s.sumG := rfl
@[simp] theorem recordFault_sumB (f : Fault) (s : State) : (recordFault f s).sumB = s.sumB := rfl
@[simp] theorem recordFault_lutR (f : Fault) (s : State) : (recordFault f s).lutR = s.lutR := rfl
@[simp] theorem recordFault_lutG (f : Fault) (s : State) : (recordFault f s).lutG = s.lutG := rfl
@[simp] theorem recordFault_lutB (f : Fault) (s : State) : (recordFault f s).lutB = s.lutB := rfl
@[simp] theorem recordFault_raw (f : Fault) (s : State) : (recordFault f s).raw = s.raw := rfl
@[simp] theorem recordFault_fb (f : Fault) (s : State) : (recordFault f s).fb = s.fb := rfl
@[simp] theorem recordFault_op (f : Fault) (s : State) : (recordFault f s).op = s.op := rfl
@[simp] theorem recordFault_n (f : Fault) (s : State) : (recordFault f s).n = s.n := rfl
@[simp] theorem recordFault_dflag (f : Fault) (s : State) : (recordFault f s).dflag = s.dflag := rfl
@[simp] theorem recordFault_argi (f : Fault) (s : State) : (recordFault f s).argi = s.argi := rfl
@[simp] theorem recordFault_off (f : Fault) (s : State) : (recordFault f s).off = s.off := rfl
@[simp] theorem recordFault_att (f : Fault) (s : State) : (recordFault f s).att = s.att := rfl
@[simp] theorem recordFault_spdCmd (f : Fault) (s : State) : (recordFault f s).spdCmd = s.spdCmd := rfl
@[simp] theorem recordFault_spdData (f : Fault) (s : State) : (recordFault f s).spdData = s.spdData := rfl
@[simp] theorem recordFault_pixk (f : Fault) (s : State) : (recordFault f s).pixk = s.pixk := rfl
@[simp] theorem recordFault_csN (f : Fault) (s : State) : (recordFault f s).csN = s.csN := rfl
@[simp] theorem recordFault_sclk (f : Fault) (s : State) : (recordFault f s).sclk = s.sclk := rfl
@[simp] theorem recordFault_timer (f : Fault) (s : State) : (recordFault f s).timer = s.timer := rfl
@[simp] theorem recordFault_trace (f : Fault) (s : State) : (recordFault f s).trace = s.trace := rfl
@[simp] theorem recordFault_host (f : Fault) (s : State) : (recordFault f s).host = s.host := rfl
@[simp] theorem recordFault_responses (f : Fault) (s : State) : (recordFault f s).responses = s.responses := rfl
@[simp] theorem recordFault_answers (f : Fault) (s : State) : (recordFault f s).answers = s.answers := rfl
@[simp] theorem recordFault_draws (f : Fault) (s : State) : (recordFault f s).draws = s.draws := rfl
@[simp] theorem recordFault_resets (f : Fault) (s : State) : (recordFault f s).resets = s.resets := rfl
@[simp] theorem recordFault_faults (f : Fault) (s : State) : (recordFault f s).faults = if f ∈ s.faults then s.faults else s.faults ++ [f] := rfl

/-! ### takeAnswer -/

@[simp] theorem takeAnswer_cfg (s : State) : (takeAnswer s).cfg = s.cfg := rfl
@[simp] theorem takeAnswer_mode (s : State) : (takeAnswer s).mode = s.mode := rfl
@[simp] theorem takeAnswer_cmdErr (s : State) : (takeAnswer s).cmdErr = s.cmdErr := rfl
@[simp] theorem takeAnswer_done (s : State) : (takeAnswer s).done = s.done := rfl
@[simp] theorem takeAnswer_fatalCause (s : State) : (takeAnswer s).fatalCause = s.fatalCause := rfl
@[simp] theorem takeAnswer_lastOp (s : State) : (takeAnswer s).lastOp = s.lastOp := rfl
@[simp] theorem takeAnswer_gpioOe (s : State) : (takeAnswer s).gpioOe = s.gpioOe := rfl
@[simp] theorem takeAnswer_gpioOut (s : State) : (takeAnswer s).gpioOut = s.gpioOut := rfl
@[simp] theorem takeAnswer_speedHz (s : State) : (takeAnswer s).speedHz = s.speedHz := rfl
@[simp] theorem takeAnswer_dataSpeedHz (s : State) : (takeAnswer s).dataSpeedHz = s.dataSpeedHz := rfl
@[simp] theorem takeAnswer_scriptStart (s : State) : (takeAnswer s).scriptStart = s.scriptStart := rfl
@[simp] theorem takeAnswer_sp (s : State) : (takeAnswer s).sp = s.sp := rfl
@[simp] theorem takeAnswer_faultByte (s : State) : (takeAnswer s).faultByte = s.faultByte := rfl
@[simp] theorem takeAnswer_skipCount (s : State) : (takeAnswer s).skipCount = s.skipCount := rfl
@[simp] theorem takeAnswer_frameCount (s : State) : (takeAnswer s).frameCount = s.frameCount := rfl
@[simp] theorem takeAnswer_sumR (s : State) : (takeAnswer s).sumR = s.sumR := rfl
@[simp] theorem takeAnswer_sumG (s : State) : (takeAnswer s).sumG = s.sumG := rfl
@[simp] theorem takeAnswer_sumB (s : State) : (takeAnswer s).sumB = s.sumB := rfl
@[simp] theorem takeAnswer_lutR (s : State) : (takeAnswer s).lutR = s.lutR := rfl
@[simp] theorem takeAnswer_lutG (s : State) : (takeAnswer s).lutG = s.lutG := rfl
@[simp] theorem takeAnswer_lutB (s : State) : (takeAnswer s).lutB = s.lutB := rfl
@[simp] theorem takeAnswer_raw (s : State) : (takeAnswer s).raw = s.raw := rfl
@[simp] theorem takeAnswer_fb (s : State) : (takeAnswer s).fb = s.fb := rfl
@[simp] theorem takeAnswer_op (s : State) : (takeAnswer s).op = s.op := rfl
@[simp] theorem takeAnswer_n (s : State) : (takeAnswer s).n = s.n := rfl
@[simp] theorem takeAnswer_dflag (s : State) : (takeAnswer s).dflag = s.dflag := rfl
@[simp] theorem takeAnswer_argi (s : State) : (takeAnswer s).argi = s.argi := rfl
@[simp] theorem takeAnswer_off (s : State) : (takeAnswer s).off = s.off := rfl
@[simp] theorem takeAnswer_att (s : State) : (takeAnswer s).att = s.att := rfl
@[simp] theorem takeAnswer_spdCmd (s : State) : (takeAnswer s).spdCmd = s.spdCmd := rfl
@[simp] theorem takeAnswer_spdData (s : State) : (takeAnswer s).spdData = s.spdData := rfl
@[simp] theorem takeAnswer_pixk (s : State) : (takeAnswer s).pixk = s.pixk := rfl
@[simp] theorem takeAnswer_csN (s : State) : (takeAnswer s).csN = s.csN := rfl
@[simp] theorem takeAnswer_sclk (s : State) : (takeAnswer s).sclk = s.sclk := rfl
@[simp] theorem takeAnswer_timer (s : State) : (takeAnswer s).timer = s.timer := rfl
@[simp] theorem takeAnswer_trace (s : State) : (takeAnswer s).trace = s.trace := rfl
@[simp] theorem takeAnswer_host (s : State) : (takeAnswer s).host = s.host := rfl
@[simp] theorem takeAnswer_responses (s : State) : (takeAnswer s).responses = s.responses := rfl
@[simp] theorem takeAnswer_answers (s : State) : (takeAnswer s).answers = s.answers.tail := rfl
@[simp] theorem takeAnswer_draws (s : State) : (takeAnswer s).draws = s.draws + 1 := rfl
@[simp] theorem takeAnswer_resets (s : State) : (takeAnswer s).resets = s.resets := rfl
@[simp] theorem takeAnswer_faults (s : State) : (takeAnswer s).faults = s.faults := rfl

/-! ### setPointer -/

@[simp] theorem setPointer_cfg (i : Nat) (s : State) : (setPointer i s).cfg = s.cfg := rfl
@[simp] theorem setPointer_mode (i : Nat) (s : State) : (setPointer i s).mode = s.mode := rfl
@[simp] theorem setPointer_cmdErr (i : Nat) (s : State) : (setPointer i s).cmdErr = s.cmdErr := rfl
@[simp] theorem setPointer_done (i : Nat) (s : State) : (setPointer i s).done = s.done := rfl
@[simp] theorem setPointer_fatalCause (i : Nat) (s : State) : (setPointer i s).fatalCause = s.fatalCause := rfl
@[simp] theorem setPointer_lastOp (i : Nat) (s : State) : (setPointer i s).lastOp = s.lastOp := rfl
@[simp] theorem setPointer_gpioOe (i : Nat) (s : State) : (setPointer i s).gpioOe = s.gpioOe := rfl
@[simp] theorem setPointer_gpioOut (i : Nat) (s : State) : (setPointer i s).gpioOut = s.gpioOut := rfl
@[simp] theorem setPointer_speedHz (i : Nat) (s : State) : (setPointer i s).speedHz = s.speedHz := rfl
@[simp] theorem setPointer_dataSpeedHz (i : Nat) (s : State) : (setPointer i s).dataSpeedHz = s.dataSpeedHz := rfl
@[simp] theorem setPointer_scriptStart (i : Nat) (s : State) : (setPointer i s).scriptStart = s.scriptStart := rfl
@[simp] theorem setPointer_sp (i : Nat) (s : State) : (setPointer i s).sp = BitVec.ofNat 17 i := rfl
@[simp] theorem setPointer_faultByte (i : Nat) (s : State) : (setPointer i s).faultByte = s.faultByte := rfl
@[simp] theorem setPointer_skipCount (i : Nat) (s : State) : (setPointer i s).skipCount = s.skipCount := rfl
@[simp] theorem setPointer_frameCount (i : Nat) (s : State) : (setPointer i s).frameCount = s.frameCount := rfl
@[simp] theorem setPointer_sumR (i : Nat) (s : State) : (setPointer i s).sumR = s.sumR := rfl
@[simp] theorem setPointer_sumG (i : Nat) (s : State) : (setPointer i s).sumG = s.sumG := rfl
@[simp] theorem setPointer_sumB (i : Nat) (s : State) : (setPointer i s).sumB = s.sumB := rfl
@[simp] theorem setPointer_lutR (i : Nat) (s : State) : (setPointer i s).lutR = s.lutR := rfl
@[simp] theorem setPointer_lutG (i : Nat) (s : State) : (setPointer i s).lutG = s.lutG := rfl
@[simp] theorem setPointer_lutB (i : Nat) (s : State) : (setPointer i s).lutB = s.lutB := rfl
@[simp] theorem setPointer_raw (i : Nat) (s : State) : (setPointer i s).raw = s.raw := rfl
@[simp] theorem setPointer_fb (i : Nat) (s : State) : (setPointer i s).fb = s.fb := rfl
@[simp] theorem setPointer_op (i : Nat) (s : State) : (setPointer i s).op = s.op := rfl
@[simp] theorem setPointer_n (i : Nat) (s : State) : (setPointer i s).n = s.n := rfl
@[simp] theorem setPointer_dflag (i : Nat) (s : State) : (setPointer i s).dflag = s.dflag := rfl
@[simp] theorem setPointer_argi (i : Nat) (s : State) : (setPointer i s).argi = s.argi := rfl
@[simp] theorem setPointer_off (i : Nat) (s : State) : (setPointer i s).off = s.off := rfl
@[simp] theorem setPointer_att (i : Nat) (s : State) : (setPointer i s).att = s.att := rfl
@[simp] theorem setPointer_spdCmd (i : Nat) (s : State) : (setPointer i s).spdCmd = s.spdCmd := rfl
@[simp] theorem setPointer_spdData (i : Nat) (s : State) : (setPointer i s).spdData = s.spdData := rfl
@[simp] theorem setPointer_pixk (i : Nat) (s : State) : (setPointer i s).pixk = s.pixk := rfl
@[simp] theorem setPointer_csN (i : Nat) (s : State) : (setPointer i s).csN = s.csN := rfl
@[simp] theorem setPointer_sclk (i : Nat) (s : State) : (setPointer i s).sclk = s.sclk := rfl
@[simp] theorem setPointer_timer (i : Nat) (s : State) : (setPointer i s).timer = s.timer := rfl
@[simp] theorem setPointer_trace (i : Nat) (s : State) : (setPointer i s).trace = s.trace := rfl
@[simp] theorem setPointer_host (i : Nat) (s : State) : (setPointer i s).host = s.host := rfl
@[simp] theorem setPointer_responses (i : Nat) (s : State) : (setPointer i s).responses = s.responses := rfl
@[simp] theorem setPointer_answers (i : Nat) (s : State) : (setPointer i s).answers = s.answers := rfl
@[simp] theorem setPointer_draws (i : Nat) (s : State) : (setPointer i s).draws = s.draws := rfl
@[simp] theorem setPointer_resets (i : Nat) (s : State) : (setPointer i s).resets = s.resets := rfl
@[simp] theorem setPointer_faults (i : Nat) (s : State) : (setPointer i s).faults = s.faults := rfl

/-! ### setHeader -/

@[simp] theorem setHeader_cfg (k : Nat) (d : Bool) (s : State) : (setHeader k d s).cfg = s.cfg := rfl
@[simp] theorem setHeader_mode (k : Nat) (d : Bool) (s : State) : (setHeader k d s).mode = s.mode := rfl
@[simp] theorem setHeader_cmdErr (k : Nat) (d : Bool) (s : State) : (setHeader k d s).cmdErr = s.cmdErr := rfl
@[simp] theorem setHeader_done (k : Nat) (d : Bool) (s : State) : (setHeader k d s).done = s.done := rfl
@[simp] theorem setHeader_fatalCause (k : Nat) (d : Bool) (s : State) : (setHeader k d s).fatalCause = s.fatalCause := rfl
@[simp] theorem setHeader_lastOp (k : Nat) (d : Bool) (s : State) : (setHeader k d s).lastOp = s.lastOp := rfl
@[simp] theorem setHeader_gpioOe (k : Nat) (d : Bool) (s : State) : (setHeader k d s).gpioOe = s.gpioOe := rfl
@[simp] theorem setHeader_gpioOut (k : Nat) (d : Bool) (s : State) : (setHeader k d s).gpioOut = s.gpioOut := rfl
@[simp] theorem setHeader_speedHz (k : Nat) (d : Bool) (s : State) : (setHeader k d s).speedHz = s.speedHz := rfl
@[simp] theorem setHeader_dataSpeedHz (k : Nat) (d : Bool) (s : State) : (setHeader k d s).dataSpeedHz = s.dataSpeedHz := rfl
@[simp] theorem setHeader_scriptStart (k : Nat) (d : Bool) (s : State) : (setHeader k d s).scriptStart = s.scriptStart := rfl
@[simp] theorem setHeader_sp (k : Nat) (d : Bool) (s : State) : (setHeader k d s).sp = s.sp := rfl
@[simp] theorem setHeader_faultByte (k : Nat) (d : Bool) (s : State) : (setHeader k d s).faultByte = s.faultByte := rfl
@[simp] theorem setHeader_skipCount (k : Nat) (d : Bool) (s : State) : (setHeader k d s).skipCount = s.skipCount := rfl
@[simp] theorem setHeader_frameCount (k : Nat) (d : Bool) (s : State) : (setHeader k d s).frameCount = s.frameCount := rfl
@[simp] theorem setHeader_sumR (k : Nat) (d : Bool) (s : State) : (setHeader k d s).sumR = s.sumR := rfl
@[simp] theorem setHeader_sumG (k : Nat) (d : Bool) (s : State) : (setHeader k d s).sumG = s.sumG := rfl
@[simp] theorem setHeader_sumB (k : Nat) (d : Bool) (s : State) : (setHeader k d s).sumB = s.sumB := rfl
@[simp] theorem setHeader_lutR (k : Nat) (d : Bool) (s : State) : (setHeader k d s).lutR = s.lutR := rfl
@[simp] theorem setHeader_lutG (k : Nat) (d : Bool) (s : State) : (setHeader k d s).lutG = s.lutG := rfl
@[simp] theorem setHeader_lutB (k : Nat) (d : Bool) (s : State) : (setHeader k d s).lutB = s.lutB := rfl
@[simp] theorem setHeader_raw (k : Nat) (d : Bool) (s : State) : (setHeader k d s).raw = s.raw := rfl
@[simp] theorem setHeader_fb (k : Nat) (d : Bool) (s : State) : (setHeader k d s).fb = s.fb := rfl
@[simp] theorem setHeader_op (k : Nat) (d : Bool) (s : State) : (setHeader k d s).op = s.op := rfl
@[simp] theorem setHeader_n (k : Nat) (d : Bool) (s : State) : (setHeader k d s).n = BitVec.ofNat 7 k := rfl
@[simp] theorem setHeader_dflag (k : Nat) (d : Bool) (s : State) : (setHeader k d s).dflag = d := rfl
@[simp] theorem setHeader_argi (k : Nat) (d : Bool) (s : State) : (setHeader k d s).argi = s.argi := rfl
@[simp] theorem setHeader_off (k : Nat) (d : Bool) (s : State) : (setHeader k d s).off = s.off := rfl
@[simp] theorem setHeader_att (k : Nat) (d : Bool) (s : State) : (setHeader k d s).att = s.att := rfl
@[simp] theorem setHeader_spdCmd (k : Nat) (d : Bool) (s : State) : (setHeader k d s).spdCmd = s.spdCmd := rfl
@[simp] theorem setHeader_spdData (k : Nat) (d : Bool) (s : State) : (setHeader k d s).spdData = s.spdData := rfl
@[simp] theorem setHeader_pixk (k : Nat) (d : Bool) (s : State) : (setHeader k d s).pixk = s.pixk := rfl
@[simp] theorem setHeader_csN (k : Nat) (d : Bool) (s : State) : (setHeader k d s).csN = s.csN := rfl
@[simp] theorem setHeader_sclk (k : Nat) (d : Bool) (s : State) : (setHeader k d s).sclk = s.sclk := rfl
@[simp] theorem setHeader_timer (k : Nat) (d : Bool) (s : State) : (setHeader k d s).timer = s.timer := rfl
@[simp] theorem setHeader_trace (k : Nat) (d : Bool) (s : State) : (setHeader k d s).trace = s.trace := rfl
@[simp] theorem setHeader_host (k : Nat) (d : Bool) (s : State) : (setHeader k d s).host = s.host := rfl
@[simp] theorem setHeader_responses (k : Nat) (d : Bool) (s : State) : (setHeader k d s).responses = s.responses := rfl
@[simp] theorem setHeader_answers (k : Nat) (d : Bool) (s : State) : (setHeader k d s).answers = s.answers := rfl
@[simp] theorem setHeader_draws (k : Nat) (d : Bool) (s : State) : (setHeader k d s).draws = s.draws := rfl
@[simp] theorem setHeader_resets (k : Nat) (d : Bool) (s : State) : (setHeader k d s).resets = s.resets := rfl
@[simp] theorem setHeader_faults (k : Nat) (d : Bool) (s : State) : (setHeader k d s).faults = s.faults := rfl

/-! ### setArgIndex -/

@[simp] theorem setArgIndex_cfg (j : Nat) (s : State) : (setArgIndex j s).cfg = s.cfg := rfl
@[simp] theorem setArgIndex_mode (j : Nat) (s : State) : (setArgIndex j s).mode = s.mode := rfl
@[simp] theorem setArgIndex_cmdErr (j : Nat) (s : State) : (setArgIndex j s).cmdErr = s.cmdErr := rfl
@[simp] theorem setArgIndex_done (j : Nat) (s : State) : (setArgIndex j s).done = s.done := rfl
@[simp] theorem setArgIndex_fatalCause (j : Nat) (s : State) : (setArgIndex j s).fatalCause = s.fatalCause := rfl
@[simp] theorem setArgIndex_lastOp (j : Nat) (s : State) : (setArgIndex j s).lastOp = s.lastOp := rfl
@[simp] theorem setArgIndex_gpioOe (j : Nat) (s : State) : (setArgIndex j s).gpioOe = s.gpioOe := rfl
@[simp] theorem setArgIndex_gpioOut (j : Nat) (s : State) : (setArgIndex j s).gpioOut = s.gpioOut := rfl
@[simp] theorem setArgIndex_speedHz (j : Nat) (s : State) : (setArgIndex j s).speedHz = s.speedHz := rfl
@[simp] theorem setArgIndex_dataSpeedHz (j : Nat) (s : State) : (setArgIndex j s).dataSpeedHz = s.dataSpeedHz := rfl
@[simp] theorem setArgIndex_scriptStart (j : Nat) (s : State) : (setArgIndex j s).scriptStart = s.scriptStart := rfl
@[simp] theorem setArgIndex_sp (j : Nat) (s : State) : (setArgIndex j s).sp = s.sp := rfl
@[simp] theorem setArgIndex_faultByte (j : Nat) (s : State) : (setArgIndex j s).faultByte = s.faultByte := rfl
@[simp] theorem setArgIndex_skipCount (j : Nat) (s : State) : (setArgIndex j s).skipCount = s.skipCount := rfl
@[simp] theorem setArgIndex_frameCount (j : Nat) (s : State) : (setArgIndex j s).frameCount = s.frameCount := rfl
@[simp] theorem setArgIndex_sumR (j : Nat) (s : State) : (setArgIndex j s).sumR = s.sumR := rfl
@[simp] theorem setArgIndex_sumG (j : Nat) (s : State) : (setArgIndex j s).sumG = s.sumG := rfl
@[simp] theorem setArgIndex_sumB (j : Nat) (s : State) : (setArgIndex j s).sumB = s.sumB := rfl
@[simp] theorem setArgIndex_lutR (j : Nat) (s : State) : (setArgIndex j s).lutR = s.lutR := rfl
@[simp] theorem setArgIndex_lutG (j : Nat) (s : State) : (setArgIndex j s).lutG = s.lutG := rfl
@[simp] theorem setArgIndex_lutB (j : Nat) (s : State) : (setArgIndex j s).lutB = s.lutB := rfl
@[simp] theorem setArgIndex_raw (j : Nat) (s : State) : (setArgIndex j s).raw = s.raw := rfl
@[simp] theorem setArgIndex_fb (j : Nat) (s : State) : (setArgIndex j s).fb = s.fb := rfl
@[simp] theorem setArgIndex_op (j : Nat) (s : State) : (setArgIndex j s).op = s.op := rfl
@[simp] theorem setArgIndex_n (j : Nat) (s : State) : (setArgIndex j s).n = s.n := rfl
@[simp] theorem setArgIndex_dflag (j : Nat) (s : State) : (setArgIndex j s).dflag = s.dflag := rfl
@[simp] theorem setArgIndex_argi (j : Nat) (s : State) : (setArgIndex j s).argi = j := rfl
@[simp] theorem setArgIndex_off (j : Nat) (s : State) : (setArgIndex j s).off = s.off := rfl
@[simp] theorem setArgIndex_att (j : Nat) (s : State) : (setArgIndex j s).att = s.att := rfl
@[simp] theorem setArgIndex_spdCmd (j : Nat) (s : State) : (setArgIndex j s).spdCmd = s.spdCmd := rfl
@[simp] theorem setArgIndex_spdData (j : Nat) (s : State) : (setArgIndex j s).spdData = s.spdData := rfl
@[simp] theorem setArgIndex_pixk (j : Nat) (s : State) : (setArgIndex j s).pixk = s.pixk := rfl
@[simp] theorem setArgIndex_csN (j : Nat) (s : State) : (setArgIndex j s).csN = s.csN := rfl
@[simp] theorem setArgIndex_sclk (j : Nat) (s : State) : (setArgIndex j s).sclk = s.sclk := rfl
@[simp] theorem setArgIndex_timer (j : Nat) (s : State) : (setArgIndex j s).timer = s.timer := rfl
@[simp] theorem setArgIndex_trace (j : Nat) (s : State) : (setArgIndex j s).trace = s.trace := rfl
@[simp] theorem setArgIndex_host (j : Nat) (s : State) : (setArgIndex j s).host = s.host := rfl
@[simp] theorem setArgIndex_responses (j : Nat) (s : State) : (setArgIndex j s).responses = s.responses := rfl
@[simp] theorem setArgIndex_answers (j : Nat) (s : State) : (setArgIndex j s).answers = s.answers := rfl
@[simp] theorem setArgIndex_draws (j : Nat) (s : State) : (setArgIndex j s).draws = s.draws := rfl
@[simp] theorem setArgIndex_resets (j : Nat) (s : State) : (setArgIndex j s).resets = s.resets := rfl
@[simp] theorem setArgIndex_faults (j : Nat) (s : State) : (setArgIndex j s).faults = s.faults := rfl

/-! ### setPixelIndex -/

@[simp] theorem setPixelIndex_cfg (k : Nat) (s : State) : (setPixelIndex k s).cfg = s.cfg := rfl
@[simp] theorem setPixelIndex_mode (k : Nat) (s : State) : (setPixelIndex k s).mode = s.mode := rfl
@[simp] theorem setPixelIndex_cmdErr (k : Nat) (s : State) : (setPixelIndex k s).cmdErr = s.cmdErr := rfl
@[simp] theorem setPixelIndex_done (k : Nat) (s : State) : (setPixelIndex k s).done = s.done := rfl
@[simp] theorem setPixelIndex_fatalCause (k : Nat) (s : State) : (setPixelIndex k s).fatalCause = s.fatalCause := rfl
@[simp] theorem setPixelIndex_lastOp (k : Nat) (s : State) : (setPixelIndex k s).lastOp = s.lastOp := rfl
@[simp] theorem setPixelIndex_gpioOe (k : Nat) (s : State) : (setPixelIndex k s).gpioOe = s.gpioOe := rfl
@[simp] theorem setPixelIndex_gpioOut (k : Nat) (s : State) : (setPixelIndex k s).gpioOut = s.gpioOut := rfl
@[simp] theorem setPixelIndex_speedHz (k : Nat) (s : State) : (setPixelIndex k s).speedHz = s.speedHz := rfl
@[simp] theorem setPixelIndex_dataSpeedHz (k : Nat) (s : State) : (setPixelIndex k s).dataSpeedHz = s.dataSpeedHz := rfl
@[simp] theorem setPixelIndex_scriptStart (k : Nat) (s : State) : (setPixelIndex k s).scriptStart = s.scriptStart := rfl
@[simp] theorem setPixelIndex_sp (k : Nat) (s : State) : (setPixelIndex k s).sp = s.sp := rfl
@[simp] theorem setPixelIndex_faultByte (k : Nat) (s : State) : (setPixelIndex k s).faultByte = s.faultByte := rfl
@[simp] theorem setPixelIndex_skipCount (k : Nat) (s : State) : (setPixelIndex k s).skipCount = s.skipCount := rfl
@[simp] theorem setPixelIndex_frameCount (k : Nat) (s : State) : (setPixelIndex k s).frameCount = s.frameCount := rfl
@[simp] theorem setPixelIndex_sumR (k : Nat) (s : State) : (setPixelIndex k s).sumR = s.sumR := rfl
@[simp] theorem setPixelIndex_sumG (k : Nat) (s : State) : (setPixelIndex k s).sumG = s.sumG := rfl
@[simp] theorem setPixelIndex_sumB (k : Nat) (s : State) : (setPixelIndex k s).sumB = s.sumB := rfl
@[simp] theorem setPixelIndex_lutR (k : Nat) (s : State) : (setPixelIndex k s).lutR = s.lutR := rfl
@[simp] theorem setPixelIndex_lutG (k : Nat) (s : State) : (setPixelIndex k s).lutG = s.lutG := rfl
@[simp] theorem setPixelIndex_lutB (k : Nat) (s : State) : (setPixelIndex k s).lutB = s.lutB := rfl
@[simp] theorem setPixelIndex_raw (k : Nat) (s : State) : (setPixelIndex k s).raw = s.raw := rfl
@[simp] theorem setPixelIndex_fb (k : Nat) (s : State) : (setPixelIndex k s).fb = s.fb := rfl
@[simp] theorem setPixelIndex_op (k : Nat) (s : State) : (setPixelIndex k s).op = s.op := rfl
@[simp] theorem setPixelIndex_n (k : Nat) (s : State) : (setPixelIndex k s).n = s.n := rfl
@[simp] theorem setPixelIndex_dflag (k : Nat) (s : State) : (setPixelIndex k s).dflag = s.dflag := rfl
@[simp] theorem setPixelIndex_argi (k : Nat) (s : State) : (setPixelIndex k s).argi = s.argi := rfl
@[simp] theorem setPixelIndex_off (k : Nat) (s : State) : (setPixelIndex k s).off = s.off := rfl
@[simp] theorem setPixelIndex_att (k : Nat) (s : State) : (setPixelIndex k s).att = s.att := rfl
@[simp] theorem setPixelIndex_spdCmd (k : Nat) (s : State) : (setPixelIndex k s).spdCmd = s.spdCmd := rfl
@[simp] theorem setPixelIndex_spdData (k : Nat) (s : State) : (setPixelIndex k s).spdData = s.spdData := rfl
@[simp] theorem setPixelIndex_pixk (k : Nat) (s : State) : (setPixelIndex k s).pixk = k := rfl
@[simp] theorem setPixelIndex_csN (k : Nat) (s : State) : (setPixelIndex k s).csN = s.csN := rfl
@[simp] theorem setPixelIndex_sclk (k : Nat) (s : State) : (setPixelIndex k s).sclk = s.sclk := rfl
@[simp] theorem setPixelIndex_timer (k : Nat) (s : State) : (setPixelIndex k s).timer = s.timer := rfl
@[simp] theorem setPixelIndex_trace (k : Nat) (s : State) : (setPixelIndex k s).trace = s.trace := rfl
@[simp] theorem setPixelIndex_host (k : Nat) (s : State) : (setPixelIndex k s).host = s.host := rfl
@[simp] theorem setPixelIndex_responses (k : Nat) (s : State) : (setPixelIndex k s).responses = s.responses := rfl
@[simp] theorem setPixelIndex_answers (k : Nat) (s : State) : (setPixelIndex k s).answers = s.answers := rfl
@[simp] theorem setPixelIndex_draws (k : Nat) (s : State) : (setPixelIndex k s).draws = s.draws := rfl
@[simp] theorem setPixelIndex_resets (k : Nat) (s : State) : (setPixelIndex k s).resets = s.resets := rfl
@[simp] theorem setPixelIndex_faults (k : Nat) (s : State) : (setPixelIndex k s).faults = s.faults := rfl

/-! ### setHost -/

@[simp] theorem setHost_cfg (l : List HostEvent) (s : State) : (setHost l s).cfg = s.cfg := rfl
@[simp] theorem setHost_mode (l : List HostEvent) (s : State) : (setHost l s).mode = s.mode := rfl
@[simp] theorem setHost_cmdErr (l : List HostEvent) (s : State) : (setHost l s).cmdErr = s.cmdErr := rfl
@[simp] theorem setHost_done (l : List HostEvent) (s : State) : (setHost l s).done = s.done := rfl
@[simp] theorem setHost_fatalCause (l : List HostEvent) (s : State) : (setHost l s).fatalCause = s.fatalCause := rfl
@[simp] theorem setHost_lastOp (l : List HostEvent) (s : State) : (setHost l s).lastOp = s.lastOp := rfl
@[simp] theorem setHost_gpioOe (l : List HostEvent) (s : State) : (setHost l s).gpioOe = s.gpioOe := rfl
@[simp] theorem setHost_gpioOut (l : List HostEvent) (s : State) : (setHost l s).gpioOut = s.gpioOut := rfl
@[simp] theorem setHost_speedHz (l : List HostEvent) (s : State) : (setHost l s).speedHz = s.speedHz := rfl
@[simp] theorem setHost_dataSpeedHz (l : List HostEvent) (s : State) : (setHost l s).dataSpeedHz = s.dataSpeedHz := rfl
@[simp] theorem setHost_scriptStart (l : List HostEvent) (s : State) : (setHost l s).scriptStart = s.scriptStart := rfl
@[simp] theorem setHost_sp (l : List HostEvent) (s : State) : (setHost l s).sp = s.sp := rfl
@[simp] theorem setHost_faultByte (l : List HostEvent) (s : State) : (setHost l s).faultByte = s.faultByte := rfl
@[simp] theorem setHost_skipCount (l : List HostEvent) (s : State) : (setHost l s).skipCount = s.skipCount := rfl
@[simp] theorem setHost_frameCount (l : List HostEvent) (s : State) : (setHost l s).frameCount = s.frameCount := rfl
@[simp] theorem setHost_sumR (l : List HostEvent) (s : State) : (setHost l s).sumR = s.sumR := rfl
@[simp] theorem setHost_sumG (l : List HostEvent) (s : State) : (setHost l s).sumG = s.sumG := rfl
@[simp] theorem setHost_sumB (l : List HostEvent) (s : State) : (setHost l s).sumB = s.sumB := rfl
@[simp] theorem setHost_lutR (l : List HostEvent) (s : State) : (setHost l s).lutR = s.lutR := rfl
@[simp] theorem setHost_lutG (l : List HostEvent) (s : State) : (setHost l s).lutG = s.lutG := rfl
@[simp] theorem setHost_lutB (l : List HostEvent) (s : State) : (setHost l s).lutB = s.lutB := rfl
@[simp] theorem setHost_raw (l : List HostEvent) (s : State) : (setHost l s).raw = s.raw := rfl
@[simp] theorem setHost_fb (l : List HostEvent) (s : State) : (setHost l s).fb = s.fb := rfl
@[simp] theorem setHost_op (l : List HostEvent) (s : State) : (setHost l s).op = s.op := rfl
@[simp] theorem setHost_n (l : List HostEvent) (s : State) : (setHost l s).n = s.n := rfl
@[simp] theorem setHost_dflag (l : List HostEvent) (s : State) : (setHost l s).dflag = s.dflag := rfl
@[simp] theorem setHost_argi (l : List HostEvent) (s : State) : (setHost l s).argi = s.argi := rfl
@[simp] theorem setHost_off (l : List HostEvent) (s : State) : (setHost l s).off = s.off := rfl
@[simp] theorem setHost_att (l : List HostEvent) (s : State) : (setHost l s).att = s.att := rfl
@[simp] theorem setHost_spdCmd (l : List HostEvent) (s : State) : (setHost l s).spdCmd = s.spdCmd := rfl
@[simp] theorem setHost_spdData (l : List HostEvent) (s : State) : (setHost l s).spdData = s.spdData := rfl
@[simp] theorem setHost_pixk (l : List HostEvent) (s : State) : (setHost l s).pixk = s.pixk := rfl
@[simp] theorem setHost_csN (l : List HostEvent) (s : State) : (setHost l s).csN = s.csN := rfl
@[simp] theorem setHost_sclk (l : List HostEvent) (s : State) : (setHost l s).sclk = s.sclk := rfl
@[simp] theorem setHost_timer (l : List HostEvent) (s : State) : (setHost l s).timer = s.timer := rfl
@[simp] theorem setHost_trace (l : List HostEvent) (s : State) : (setHost l s).trace = s.trace := rfl
@[simp] theorem setHost_host (l : List HostEvent) (s : State) : (setHost l s).host = l := rfl
@[simp] theorem setHost_responses (l : List HostEvent) (s : State) : (setHost l s).responses = s.responses := rfl
@[simp] theorem setHost_answers (l : List HostEvent) (s : State) : (setHost l s).answers = s.answers := rfl
@[simp] theorem setHost_draws (l : List HostEvent) (s : State) : (setHost l s).draws = s.draws := rfl
@[simp] theorem setHost_resets (l : List HostEvent) (s : State) : (setHost l s).resets = s.resets := rfl
@[simp] theorem setHost_faults (l : List HostEvent) (s : State) : (setHost l s).faults = s.faults := rfl

/-! ### respond -/

@[simp] theorem respond_cfg (r : Response) (s : State) : (respond r s).cfg = s.cfg := rfl
@[simp] theorem respond_mode (r : Response) (s : State) : (respond r s).mode = s.mode := rfl
@[simp] theorem respond_cmdErr (r : Response) (s : State) : (respond r s).cmdErr = s.cmdErr := rfl
@[simp] theorem respond_done (r : Response) (s : State) : (respond r s).done = s.done := rfl
@[simp] theorem respond_fatalCause (r : Response) (s : State) : (respond r s).fatalCause = s.fatalCause := rfl
@[simp] theorem respond_lastOp (r : Response) (s : State) : (respond r s).lastOp = s.lastOp := rfl
@[simp] theorem respond_gpioOe (r : Response) (s : State) : (respond r s).gpioOe = s.gpioOe := rfl
@[simp] theorem respond_gpioOut (r : Response) (s : State) : (respond r s).gpioOut = s.gpioOut := rfl
@[simp] theorem respond_speedHz (r : Response) (s : State) : (respond r s).speedHz = s.speedHz := rfl
@[simp] theorem respond_dataSpeedHz (r : Response) (s : State) : (respond r s).dataSpeedHz = s.dataSpeedHz := rfl
@[simp] theorem respond_scriptStart (r : Response) (s : State) : (respond r s).scriptStart = s.scriptStart := rfl
@[simp] theorem respond_sp (r : Response) (s : State) : (respond r s).sp = s.sp := rfl
@[simp] theorem respond_faultByte (r : Response) (s : State) : (respond r s).faultByte = s.faultByte := rfl
@[simp] theorem respond_skipCount (r : Response) (s : State) : (respond r s).skipCount = s.skipCount := rfl
@[simp] theorem respond_frameCount (r : Response) (s : State) : (respond r s).frameCount = s.frameCount := rfl
@[simp] theorem respond_sumR (r : Response) (s : State) : (respond r s).sumR = s.sumR := rfl
@[simp] theorem respond_sumG (r : Response) (s : State) : (respond r s).sumG = s.sumG := rfl
@[simp] theorem respond_sumB (r : Response) (s : State) : (respond r s).sumB = s.sumB := rfl
@[simp] theorem respond_lutR (r : Response) (s : State) : (respond r s).lutR = s.lutR := rfl
@[simp] theorem respond_lutG (r : Response) (s : State) : (respond r s).lutG = s.lutG := rfl
@[simp] theorem respond_lutB (r : Response) (s : State) : (respond r s).lutB = s.lutB := rfl
@[simp] theorem respond_raw (r : Response) (s : State) : (respond r s).raw = s.raw := rfl
@[simp] theorem respond_fb (r : Response) (s : State) : (respond r s).fb = s.fb := rfl
@[simp] theorem respond_op (r : Response) (s : State) : (respond r s).op = s.op := rfl
@[simp] theorem respond_n (r : Response) (s : State) : (respond r s).n = s.n := rfl
@[simp] theorem respond_dflag (r : Response) (s : State) : (respond r s).dflag = s.dflag := rfl
@[simp] theorem respond_argi (r : Response) (s : State) : (respond r s).argi = s.argi := rfl
@[simp] theorem respond_off (r : Response) (s : State) : (respond r s).off = s.off := rfl
@[simp] theorem respond_att (r : Response) (s : State) : (respond r s).att = s.att := rfl
@[simp] theorem respond_spdCmd (r : Response) (s : State) : (respond r s).spdCmd = s.spdCmd := rfl
@[simp] theorem respond_spdData (r : Response) (s : State) : (respond r s).spdData = s.spdData := rfl
@[simp] theorem respond_pixk (r : Response) (s : State) : (respond r s).pixk = s.pixk := rfl
@[simp] theorem respond_csN (r : Response) (s : State) : (respond r s).csN = s.csN := rfl
@[simp] theorem respond_sclk (r : Response) (s : State) : (respond r s).sclk = s.sclk := rfl
@[simp] theorem respond_timer (r : Response) (s : State) : (respond r s).timer = s.timer := rfl
@[simp] theorem respond_trace (r : Response) (s : State) : (respond r s).trace = s.trace := rfl
@[simp] theorem respond_host (r : Response) (s : State) : (respond r s).host = s.host := rfl
@[simp] theorem respond_responses (r : Response) (s : State) : (respond r s).responses = s.responses ++ [r] := rfl
@[simp] theorem respond_answers (r : Response) (s : State) : (respond r s).answers = s.answers := rfl
@[simp] theorem respond_draws (r : Response) (s : State) : (respond r s).draws = s.draws := rfl
@[simp] theorem respond_resets (r : Response) (s : State) : (respond r s).resets = s.resets := rfl
@[simp] theorem respond_faults (r : Response) (s : State) : (respond r s).faults = s.faults := rfl

/-! ### setLines -/

@[simp] theorem setLines_cfg (out oe : Lines) (s : State) : (setLines out oe s).cfg = s.cfg := rfl
@[simp] theorem setLines_mode (out oe : Lines) (s : State) : (setLines out oe s).mode = s.mode := rfl
@[simp] theorem setLines_cmdErr (out oe : Lines) (s : State) : (setLines out oe s).cmdErr = s.cmdErr := rfl
@[simp] theorem setLines_done (out oe : Lines) (s : State) : (setLines out oe s).done = s.done := rfl
@[simp] theorem setLines_fatalCause (out oe : Lines) (s : State) : (setLines out oe s).fatalCause = s.fatalCause := rfl
@[simp] theorem setLines_lastOp (out oe : Lines) (s : State) : (setLines out oe s).lastOp = s.lastOp := rfl
@[simp] theorem setLines_gpioOe (out oe : Lines) (s : State) : (setLines out oe s).gpioOe = oe := rfl
@[simp] theorem setLines_gpioOut (out oe : Lines) (s : State) : (setLines out oe s).gpioOut = out := rfl
@[simp] theorem setLines_speedHz (out oe : Lines) (s : State) : (setLines out oe s).speedHz = s.speedHz := rfl
@[simp] theorem setLines_dataSpeedHz (out oe : Lines) (s : State) : (setLines out oe s).dataSpeedHz = s.dataSpeedHz := rfl
@[simp] theorem setLines_scriptStart (out oe : Lines) (s : State) : (setLines out oe s).scriptStart = s.scriptStart := rfl
@[simp] theorem setLines_sp (out oe : Lines) (s : State) : (setLines out oe s).sp = s.sp := rfl
@[simp] theorem setLines_faultByte (out oe : Lines) (s : State) : (setLines out oe s).faultByte = s.faultByte := rfl
@[simp] theorem setLines_skipCount (out oe : Lines) (s : State) : (setLines out oe s).skipCount = s.skipCount := rfl
@[simp] theorem setLines_frameCount (out oe : Lines) (s : State) : (setLines out oe s).frameCount = s.frameCount := rfl
@[simp] theorem setLines_sumR (out oe : Lines) (s : State) : (setLines out oe s).sumR = s.sumR := rfl
@[simp] theorem setLines_sumG (out oe : Lines) (s : State) : (setLines out oe s).sumG = s.sumG := rfl
@[simp] theorem setLines_sumB (out oe : Lines) (s : State) : (setLines out oe s).sumB = s.sumB := rfl
@[simp] theorem setLines_lutR (out oe : Lines) (s : State) : (setLines out oe s).lutR = s.lutR := rfl
@[simp] theorem setLines_lutG (out oe : Lines) (s : State) : (setLines out oe s).lutG = s.lutG := rfl
@[simp] theorem setLines_lutB (out oe : Lines) (s : State) : (setLines out oe s).lutB = s.lutB := rfl
@[simp] theorem setLines_raw (out oe : Lines) (s : State) : (setLines out oe s).raw = s.raw := rfl
@[simp] theorem setLines_fb (out oe : Lines) (s : State) : (setLines out oe s).fb = s.fb := rfl
@[simp] theorem setLines_op (out oe : Lines) (s : State) : (setLines out oe s).op = s.op := rfl
@[simp] theorem setLines_n (out oe : Lines) (s : State) : (setLines out oe s).n = s.n := rfl
@[simp] theorem setLines_dflag (out oe : Lines) (s : State) : (setLines out oe s).dflag = s.dflag := rfl
@[simp] theorem setLines_argi (out oe : Lines) (s : State) : (setLines out oe s).argi = s.argi := rfl
@[simp] theorem setLines_off (out oe : Lines) (s : State) : (setLines out oe s).off = s.off := rfl
@[simp] theorem setLines_att (out oe : Lines) (s : State) : (setLines out oe s).att = s.att := rfl
@[simp] theorem setLines_spdCmd (out oe : Lines) (s : State) : (setLines out oe s).spdCmd = s.spdCmd := rfl
@[simp] theorem setLines_spdData (out oe : Lines) (s : State) : (setLines out oe s).spdData = s.spdData := rfl
@[simp] theorem setLines_pixk (out oe : Lines) (s : State) : (setLines out oe s).pixk = s.pixk := rfl
@[simp] theorem setLines_csN (out oe : Lines) (s : State) : (setLines out oe s).csN = s.csN := rfl
@[simp] theorem setLines_sclk (out oe : Lines) (s : State) : (setLines out oe s).sclk = s.sclk := rfl
@[simp] theorem setLines_timer (out oe : Lines) (s : State) : (setLines out oe s).timer = s.timer := rfl
@[simp] theorem setLines_trace (out oe : Lines) (s : State) : (setLines out oe s).trace = s.trace ++ pinEvents s.gpioOut s.gpioOe out oe := rfl
@[simp] theorem setLines_host (out oe : Lines) (s : State) : (setLines out oe s).host = s.host := rfl
@[simp] theorem setLines_responses (out oe : Lines) (s : State) : (setLines out oe s).responses = s.responses := rfl
@[simp] theorem setLines_answers (out oe : Lines) (s : State) : (setLines out oe s).answers = s.answers := rfl
@[simp] theorem setLines_draws (out oe : Lines) (s : State) : (setLines out oe s).draws = s.draws := rfl
@[simp] theorem setLines_resets (out oe : Lines) (s : State) : (setLines out oe s).resets = s.resets := rfl
@[simp] theorem setLines_faults (out oe : Lines) (s : State) : (setLines out oe s).faults = s.faults := rfl

/-! ### setDc -/

@[simp] theorem setDc_cfg (v : Bool) (s : State) : (setDc v s).cfg = s.cfg := rfl
@[simp] theorem setDc_mode (v : Bool) (s : State) : (setDc v s).mode = s.mode := rfl
@[simp] theorem setDc_cmdErr (v : Bool) (s : State) : (setDc v s).cmdErr = s.cmdErr := rfl
@[simp] theorem setDc_done (v : Bool) (s : State) : (setDc v s).done = s.done := rfl
@[simp] theorem setDc_fatalCause (v : Bool) (s : State) : (setDc v s).fatalCause = s.fatalCause := rfl
@[simp] theorem setDc_lastOp (v : Bool) (s : State) : (setDc v s).lastOp = s.lastOp := rfl
@[simp] theorem setDc_gpioOe (v : Bool) (s : State) : (setDc v s).gpioOe = s.gpioOe := rfl
@[simp] theorem setDc_gpioOut (v : Bool) (s : State) : (setDc v s).gpioOut = { s.gpioOut with dc := v } := rfl
@[simp] theorem setDc_speedHz (v : Bool) (s : State) : (setDc v s).speedHz = s.speedHz := rfl
@[simp] theorem setDc_dataSpeedHz (v : Bool) (s : State) : (setDc v s).dataSpeedHz = s.dataSpeedHz := rfl
@[simp] theorem setDc_scriptStart (v : Bool) (s : State) : (setDc v s).scriptStart = s.scriptStart := rfl
@[simp] theorem setDc_sp (v : Bool) (s : State) : (setDc v s).sp = s.sp := rfl
@[simp] theorem setDc_faultByte (v : Bool) (s : State) : (setDc v s).faultByte = s.faultByte := rfl
@[simp] theorem setDc_skipCount (v : Bool) (s : State) : (setDc v s).skipCount = s.skipCount := rfl
@[simp] theorem setDc_frameCount (v : Bool) (s : State) : (setDc v s).frameCount = s.frameCount := rfl
@[simp] theorem setDc_sumR (v : Bool) (s : State) : (setDc v s).sumR = s.sumR := rfl
@[simp] theorem setDc_sumG (v : Bool) (s : State) : (setDc v s).sumG = s.sumG := rfl
@[simp] theorem setDc_sumB (v : Bool) (s : State) : (setDc v s).sumB = s.sumB := rfl
@[simp] theorem setDc_lutR (v : Bool) (s : State) : (setDc v s).lutR = s.lutR := rfl
@[simp] theorem setDc_lutG (v : Bool) (s : State) : (setDc v s).lutG = s.lutG := rfl
@[simp] theorem setDc_lutB (v : Bool) (s : State) : (setDc v s).lutB = s.lutB := rfl
@[simp] theorem setDc_raw (v : Bool) (s : State) : (setDc v s).raw = s.raw := rfl
@[simp] theorem setDc_fb (v : Bool) (s : State) : (setDc v s).fb = s.fb := rfl
@[simp] theorem setDc_op (v : Bool) (s : State) : (setDc v s).op = s.op := rfl
@[simp] theorem setDc_n (v : Bool) (s : State) : (setDc v s).n = s.n := rfl
@[simp] theorem setDc_dflag (v : Bool) (s : State) : (setDc v s).dflag = s.dflag := rfl
@[simp] theorem setDc_argi (v : Bool) (s : State) : (setDc v s).argi = s.argi := rfl
@[simp] theorem setDc_off (v : Bool) (s : State) : (setDc v s).off = s.off := rfl
@[simp] theorem setDc_att (v : Bool) (s : State) : (setDc v s).att = s.att := rfl
@[simp] theorem setDc_spdCmd (v : Bool) (s : State) : (setDc v s).spdCmd = s.spdCmd := rfl
@[simp] theorem setDc_spdData (v : Bool) (s : State) : (setDc v s).spdData = s.spdData := rfl
@[simp] theorem setDc_pixk (v : Bool) (s : State) : (setDc v s).pixk = s.pixk := rfl
@[simp] theorem setDc_csN (v : Bool) (s : State) : (setDc v s).csN = s.csN := rfl
@[simp] theorem setDc_sclk (v : Bool) (s : State) : (setDc v s).sclk = s.sclk := rfl
@[simp] theorem setDc_timer (v : Bool) (s : State) : (setDc v s).timer = s.timer := rfl
@[simp] theorem setDc_trace (v : Bool) (s : State) : (setDc v s).trace = s.trace ++ pinEvents s.gpioOut s.gpioOe { s.gpioOut with dc := v } s.gpioOe := rfl
@[simp] theorem setDc_host (v : Bool) (s : State) : (setDc v s).host = s.host := rfl
@[simp] theorem setDc_responses (v : Bool) (s : State) : (setDc v s).responses = s.responses := rfl
@[simp] theorem setDc_answers (v : Bool) (s : State) : (setDc v s).answers = s.answers := rfl
@[simp] theorem setDc_draws (v : Bool) (s : State) : (setDc v s).draws = s.draws := rfl
@[simp] theorem setDc_resets (v : Bool) (s : State) : (setDc v s).resets = s.resets := rfl
@[simp] theorem setDc_faults (v : Bool) (s : State) : (setDc v s).faults = s.faults := rfl

/-! ### raiseFatal -/

@[simp] theorem raiseFatal_cfg (c : FatalCause) (s : State) : (raiseFatal c s).cfg = s.cfg := rfl
@[simp] theorem raiseFatal_mode (c : FatalCause) (s : State) : (raiseFatal c s).mode = .fatalHalt := rfl
@[simp] theorem raiseFatal_cmdErr (c : FatalCause) (s : State) : (raiseFatal c s).cmdErr = s.cmdErr := rfl
@[simp] theorem raiseFatal_done (c : FatalCause) (s : State) : (raiseFatal c s).done = s.done := rfl
@[simp] theorem raiseFatal_fatalCause (c : FatalCause) (s : State) : (raiseFatal c s).fatalCause = c := rfl
@[simp] theorem raiseFatal_lastOp (c : FatalCause) (s : State) : (raiseFatal c s).lastOp = s.lastOp := rfl
@[simp] theorem raiseFatal_gpioOe (c : FatalCause) (s : State) : (raiseFatal c s).gpioOe = s.gpioOe := rfl
@[simp] theorem raiseFatal_gpioOut (c : FatalCause) (s : State) : (raiseFatal c s).gpioOut = s.gpioOut := rfl
@[simp] theorem raiseFatal_speedHz (c : FatalCause) (s : State) : (raiseFatal c s).speedHz = s.speedHz := rfl
@[simp] theorem raiseFatal_dataSpeedHz (c : FatalCause) (s : State) : (raiseFatal c s).dataSpeedHz = s.dataSpeedHz := rfl
@[simp] theorem raiseFatal_scriptStart (c : FatalCause) (s : State) : (raiseFatal c s).scriptStart = s.scriptStart := rfl
@[simp] theorem raiseFatal_sp (c : FatalCause) (s : State) : (raiseFatal c s).sp = s.sp := rfl
@[simp] theorem raiseFatal_faultByte (c : FatalCause) (s : State) : (raiseFatal c s).faultByte = s.faultByte := rfl
@[simp] theorem raiseFatal_skipCount (c : FatalCause) (s : State) : (raiseFatal c s).skipCount = s.skipCount := rfl
@[simp] theorem raiseFatal_frameCount (c : FatalCause) (s : State) : (raiseFatal c s).frameCount = s.frameCount := rfl
@[simp] theorem raiseFatal_sumR (c : FatalCause) (s : State) : (raiseFatal c s).sumR = s.sumR := rfl
@[simp] theorem raiseFatal_sumG (c : FatalCause) (s : State) : (raiseFatal c s).sumG = s.sumG := rfl
@[simp] theorem raiseFatal_sumB (c : FatalCause) (s : State) : (raiseFatal c s).sumB = s.sumB := rfl
@[simp] theorem raiseFatal_lutR (c : FatalCause) (s : State) : (raiseFatal c s).lutR = s.lutR := rfl
@[simp] theorem raiseFatal_lutG (c : FatalCause) (s : State) : (raiseFatal c s).lutG = s.lutG := rfl
@[simp] theorem raiseFatal_lutB (c : FatalCause) (s : State) : (raiseFatal c s).lutB = s.lutB := rfl
@[simp] theorem raiseFatal_raw (c : FatalCause) (s : State) : (raiseFatal c s).raw = s.raw := rfl
@[simp] theorem raiseFatal_fb (c : FatalCause) (s : State) : (raiseFatal c s).fb = s.fb := rfl
@[simp] theorem raiseFatal_op (c : FatalCause) (s : State) : (raiseFatal c s).op = s.op := rfl
@[simp] theorem raiseFatal_n (c : FatalCause) (s : State) : (raiseFatal c s).n = s.n := rfl
@[simp] theorem raiseFatal_dflag (c : FatalCause) (s : State) : (raiseFatal c s).dflag = s.dflag := rfl
@[simp] theorem raiseFatal_argi (c : FatalCause) (s : State) : (raiseFatal c s).argi = s.argi := rfl
@[simp] theorem raiseFatal_off (c : FatalCause) (s : State) : (raiseFatal c s).off = s.off := rfl
@[simp] theorem raiseFatal_att (c : FatalCause) (s : State) : (raiseFatal c s).att = s.att := rfl
@[simp] theorem raiseFatal_spdCmd (c : FatalCause) (s : State) : (raiseFatal c s).spdCmd = s.spdCmd := rfl
@[simp] theorem raiseFatal_spdData (c : FatalCause) (s : State) : (raiseFatal c s).spdData = s.spdData := rfl
@[simp] theorem raiseFatal_pixk (c : FatalCause) (s : State) : (raiseFatal c s).pixk = s.pixk := rfl
@[simp] theorem raiseFatal_csN (c : FatalCause) (s : State) : (raiseFatal c s).csN = s.csN := rfl
@[simp] theorem raiseFatal_sclk (c : FatalCause) (s : State) : (raiseFatal c s).sclk = s.sclk := rfl
@[simp] theorem raiseFatal_timer (c : FatalCause) (s : State) : (raiseFatal c s).timer = s.timer := rfl
@[simp] theorem raiseFatal_trace (c : FatalCause) (s : State) : (raiseFatal c s).trace = s.trace ++ [.fatal c] := rfl
@[simp] theorem raiseFatal_host (c : FatalCause) (s : State) : (raiseFatal c s).host = s.host := rfl
@[simp] theorem raiseFatal_responses (c : FatalCause) (s : State) : (raiseFatal c s).responses = s.responses := rfl
@[simp] theorem raiseFatal_answers (c : FatalCause) (s : State) : (raiseFatal c s).answers = s.answers := rfl
@[simp] theorem raiseFatal_draws (c : FatalCause) (s : State) : (raiseFatal c s).draws = s.draws := rfl
@[simp] theorem raiseFatal_resets (c : FatalCause) (s : State) : (raiseFatal c s).resets = s.resets := rfl
@[simp] theorem raiseFatal_faults (c : FatalCause) (s : State) : (raiseFatal c s).faults = s.faults := rfl

/-! ### raiseFatalByte -/

@[simp] theorem raiseFatalByte_cfg (c : FatalCause) (b : Byte) (s : State) : (raiseFatalByte c b s).cfg = s.cfg := rfl
@[simp] theorem raiseFatalByte_mode (c : FatalCause) (b : Byte) (s : State) : (raiseFatalByte c b s).mode = .fatalHalt := rfl
@[simp] theorem raiseFatalByte_cmdErr (c : FatalCause) (b : Byte) (s : State) : (raiseFatalByte c b s).cmdErr = s.cmdErr := rfl
@[simp] theorem raiseFatalByte_done (c : FatalCause) (b : Byte) (s : State) : (raiseFatalByte c b s).done = s.done := rfl
@[simp] theorem raiseFatalByte_fatalCause (c : FatalCause) (b : Byte) (s : State) : (raiseFatalByte c b s).fatalCause = c := rfl
@[simp] theorem raiseFatalByte_lastOp (c : FatalCause) (b : Byte) (s : State) : (raiseFatalByte c b s).lastOp = s.lastOp := rfl
@[simp] theorem raiseFatalByte_gpioOe (c : FatalCause) (b : Byte) (s : State) : (raiseFatalByte c b s).gpioOe = s.gpioOe := rfl
@[simp] theorem raiseFatalByte_gpioOut (c : FatalCause) (b : Byte) (s : State) : (raiseFatalByte c b s).gpioOut = s.gpioOut := rfl
@[simp] theorem raiseFatalByte_speedHz (c : FatalCause) (b : Byte) (s : State) : (raiseFatalByte c b s).speedHz = s.speedHz := rfl
@[simp] theorem raiseFatalByte_dataSpeedHz (c : FatalCause) (b : Byte) (s : State) : (raiseFatalByte c b s).dataSpeedHz = s.dataSpeedHz := rfl
@[simp] theorem raiseFatalByte_scriptStart (c : FatalCause) (b : Byte) (s : State) : (raiseFatalByte c b s).scriptStart = s.scriptStart := rfl
@[simp] theorem raiseFatalByte_sp (c : FatalCause) (b : Byte) (s : State) : (raiseFatalByte c b s).sp = s.sp := rfl
@[simp] theorem raiseFatalByte_faultByte (c : FatalCause) (b : Byte) (s : State) : (raiseFatalByte c b s).faultByte = b := rfl
@[simp] theorem raiseFatalByte_skipCount (c : FatalCause) (b : Byte) (s : State) : (raiseFatalByte c b s).skipCount = s.skipCount := rfl
@[simp] theorem raiseFatalByte_frameCount (c : FatalCause) (b : Byte) (s : State) : (raiseFatalByte c b s).frameCount = s.frameCount := rfl
@[simp] theorem raiseFatalByte_sumR (c : FatalCause) (b : Byte) (s : State) : (raiseFatalByte c b s).sumR = s.sumR := rfl
@[simp] theorem raiseFatalByte_sumG (c : FatalCause) (b : Byte) (s : State) : (raiseFatalByte c b s).sumG = s.sumG := rfl
@[simp] theorem raiseFatalByte_sumB (c : FatalCause) (b : Byte) (s : State) : (raiseFatalByte c b s).sumB = s.sumB := rfl
@[simp] theorem raiseFatalByte_lutR (c : FatalCause) (b : Byte) (s : State) : (raiseFatalByte c b s).lutR = s.lutR := rfl
@[simp] theorem raiseFatalByte_lutG (c : FatalCause) (b : Byte) (s : State) : (raiseFatalByte c b s).lutG = s.lutG := rfl
@[simp] theorem raiseFatalByte_lutB (c : FatalCause) (b : Byte) (s : State) : (raiseFatalByte c b s).lutB = s.lutB := rfl
@[simp] theorem raiseFatalByte_raw (c : FatalCause) (b : Byte) (s : State) : (raiseFatalByte c b s).raw = s.raw := rfl
@[simp] theorem raiseFatalByte_fb (c : FatalCause) (b : Byte) (s : State) : (raiseFatalByte c b s).fb = s.fb := rfl
@[simp] theorem raiseFatalByte_op (c : FatalCause) (b : Byte) (s : State) : (raiseFatalByte c b s).op = s.op := rfl
@[simp] theorem raiseFatalByte_n (c : FatalCause) (b : Byte) (s : State) : (raiseFatalByte c b s).n = s.n := rfl
@[simp] theorem raiseFatalByte_dflag (c : FatalCause) (b : Byte) (s : State) : (raiseFatalByte c b s).dflag = s.dflag := rfl
@[simp] theorem raiseFatalByte_argi (c : FatalCause) (b : Byte) (s : State) : (raiseFatalByte c b s).argi = s.argi := rfl
@[simp] theorem raiseFatalByte_off (c : FatalCause) (b : Byte) (s : State) : (raiseFatalByte c b s).off = s.off := rfl
@[simp] theorem raiseFatalByte_att (c : FatalCause) (b : Byte) (s : State) : (raiseFatalByte c b s).att = s.att := rfl
@[simp] theorem raiseFatalByte_spdCmd (c : FatalCause) (b : Byte) (s : State) : (raiseFatalByte c b s).spdCmd = s.spdCmd := rfl
@[simp] theorem raiseFatalByte_spdData (c : FatalCause) (b : Byte) (s : State) : (raiseFatalByte c b s).spdData = s.spdData := rfl
@[simp] theorem raiseFatalByte_pixk (c : FatalCause) (b : Byte) (s : State) : (raiseFatalByte c b s).pixk = s.pixk := rfl
@[simp] theorem raiseFatalByte_csN (c : FatalCause) (b : Byte) (s : State) : (raiseFatalByte c b s).csN = s.csN := rfl
@[simp] theorem raiseFatalByte_sclk (c : FatalCause) (b : Byte) (s : State) : (raiseFatalByte c b s).sclk = s.sclk := rfl
@[simp] theorem raiseFatalByte_timer (c : FatalCause) (b : Byte) (s : State) : (raiseFatalByte c b s).timer = s.timer := rfl
@[simp] theorem raiseFatalByte_trace (c : FatalCause) (b : Byte) (s : State) : (raiseFatalByte c b s).trace = s.trace ++ [.fatal c] := rfl
@[simp] theorem raiseFatalByte_host (c : FatalCause) (b : Byte) (s : State) : (raiseFatalByte c b s).host = s.host := rfl
@[simp] theorem raiseFatalByte_responses (c : FatalCause) (b : Byte) (s : State) : (raiseFatalByte c b s).responses = s.responses := rfl
@[simp] theorem raiseFatalByte_answers (c : FatalCause) (b : Byte) (s : State) : (raiseFatalByte c b s).answers = s.answers := rfl
@[simp] theorem raiseFatalByte_draws (c : FatalCause) (b : Byte) (s : State) : (raiseFatalByte c b s).draws = s.draws := rfl
@[simp] theorem raiseFatalByte_resets (c : FatalCause) (b : Byte) (s : State) : (raiseFatalByte c b s).resets = s.resets := rfl
@[simp] theorem raiseFatalByte_faults (c : FatalCause) (b : Byte) (s : State) : (raiseFatalByte c b s).faults = s.faults := rfl

/-! ### endOperation -/

@[simp] theorem endOperation_cfg (s : State) : (endOperation s).cfg = s.cfg := rfl
@[simp] theorem endOperation_mode (s : State) : (endOperation s).mode = .idle := rfl
@[simp] theorem endOperation_cmdErr (s : State) : (endOperation s).cmdErr = s.cmdErr := rfl
@[simp] theorem endOperation_done (s : State) : (endOperation s).done = true := rfl
@[simp] theorem endOperation_fatalCause (s : State) : (endOperation s).fatalCause = s.fatalCause := rfl
@[simp] theorem endOperation_lastOp (s : State) : (endOperation s).lastOp = s.lastOp := rfl
@[simp] theorem endOperation_gpioOe (s : State) : (endOperation s).gpioOe = s.gpioOe := rfl
@[simp] theorem endOperation_gpioOut (s : State) : (endOperation s).gpioOut = s.gpioOut := rfl
@[simp] theorem endOperation_speedHz (s : State) : (endOperation s).speedHz = s.speedHz := rfl
@[simp] theorem endOperation_dataSpeedHz (s : State) : (endOperation s).dataSpeedHz = s.dataSpeedHz := rfl
@[simp] theorem endOperation_scriptStart (s : State) : (endOperation s).scriptStart = s.scriptStart := rfl
@[simp] theorem endOperation_sp (s : State) : (endOperation s).sp = s.sp := rfl
@[simp] theorem endOperation_faultByte (s : State) : (endOperation s).faultByte = s.faultByte := rfl
@[simp] theorem endOperation_skipCount (s : State) : (endOperation s).skipCount = s.skipCount := rfl
@[simp] theorem endOperation_frameCount (s : State) : (endOperation s).frameCount = s.frameCount := rfl
@[simp] theorem endOperation_sumR (s : State) : (endOperation s).sumR = s.sumR := rfl
@[simp] theorem endOperation_sumG (s : State) : (endOperation s).sumG = s.sumG := rfl
@[simp] theorem endOperation_sumB (s : State) : (endOperation s).sumB = s.sumB := rfl
@[simp] theorem endOperation_lutR (s : State) : (endOperation s).lutR = s.lutR := rfl
@[simp] theorem endOperation_lutG (s : State) : (endOperation s).lutG = s.lutG := rfl
@[simp] theorem endOperation_lutB (s : State) : (endOperation s).lutB = s.lutB := rfl
@[simp] theorem endOperation_raw (s : State) : (endOperation s).raw = s.raw := rfl
@[simp] theorem endOperation_fb (s : State) : (endOperation s).fb = s.fb := rfl
@[simp] theorem endOperation_op (s : State) : (endOperation s).op = s.op := rfl
@[simp] theorem endOperation_n (s : State) : (endOperation s).n = s.n := rfl
@[simp] theorem endOperation_dflag (s : State) : (endOperation s).dflag = s.dflag := rfl
@[simp] theorem endOperation_argi (s : State) : (endOperation s).argi = s.argi := rfl
@[simp] theorem endOperation_off (s : State) : (endOperation s).off = s.off := rfl
@[simp] theorem endOperation_att (s : State) : (endOperation s).att = s.att := rfl
@[simp] theorem endOperation_spdCmd (s : State) : (endOperation s).spdCmd = s.spdCmd := rfl
@[simp] theorem endOperation_spdData (s : State) : (endOperation s).spdData = s.spdData := rfl
@[simp] theorem endOperation_pixk (s : State) : (endOperation s).pixk = s.pixk := rfl
@[simp] theorem endOperation_csN (s : State) : (endOperation s).csN = s.csN := rfl
@[simp] theorem endOperation_sclk (s : State) : (endOperation s).sclk = s.sclk := rfl
@[simp] theorem endOperation_timer (s : State) : (endOperation s).timer = s.timer := rfl
@[simp] theorem endOperation_trace (s : State) : (endOperation s).trace = s.trace := rfl
@[simp] theorem endOperation_host (s : State) : (endOperation s).host = s.host := rfl
@[simp] theorem endOperation_responses (s : State) : (endOperation s).responses = s.responses := rfl
@[simp] theorem endOperation_answers (s : State) : (endOperation s).answers = s.answers := rfl
@[simp] theorem endOperation_draws (s : State) : (endOperation s).draws = s.draws := rfl
@[simp] theorem endOperation_resets (s : State) : (endOperation s).resets = s.resets := rfl
@[simp] theorem endOperation_faults (s : State) : (endOperation s).faults = s.faults := rfl

/-! ### rejectCmd -/

@[simp] theorem rejectCmd_cfg (s : State) : (rejectCmd s).cfg = s.cfg := rfl
@[simp] theorem rejectCmd_mode (s : State) : (rejectCmd s).mode = s.mode := rfl
@[simp] theorem rejectCmd_cmdErr (s : State) : (rejectCmd s).cmdErr = true := rfl
@[simp] theorem rejectCmd_done (s : State) : (rejectCmd s).done = s.done := rfl
@[simp] theorem rejectCmd_fatalCause (s : State) : (rejectCmd s).fatalCause = s.fatalCause := rfl
@[simp] theorem rejectCmd_lastOp (s : State) : (rejectCmd s).lastOp = s.lastOp := rfl
@[simp] theorem rejectCmd_gpioOe (s : State) : (rejectCmd s).gpioOe = s.gpioOe := rfl
@[simp] theorem rejectCmd_gpioOut (s : State) : (rejectCmd s).gpioOut = s.gpioOut := rfl
@[simp] theorem rejectCmd_speedHz (s : State) : (rejectCmd s).speedHz = s.speedHz := rfl
@[simp] theorem rejectCmd_dataSpeedHz (s : State) : (rejectCmd s).dataSpeedHz = s.dataSpeedHz := rfl
@[simp] theorem rejectCmd_scriptStart (s : State) : (rejectCmd s).scriptStart = s.scriptStart := rfl
@[simp] theorem rejectCmd_sp (s : State) : (rejectCmd s).sp = s.sp := rfl
@[simp] theorem rejectCmd_faultByte (s : State) : (rejectCmd s).faultByte = s.faultByte := rfl
@[simp] theorem rejectCmd_skipCount (s : State) : (rejectCmd s).skipCount = s.skipCount := rfl
@[simp] theorem rejectCmd_frameCount (s : State) : (rejectCmd s).frameCount = s.frameCount := rfl
@[simp] theorem rejectCmd_sumR (s : State) : (rejectCmd s).sumR = s.sumR := rfl
@[simp] theorem rejectCmd_sumG (s : State) : (rejectCmd s).sumG = s.sumG := rfl
@[simp] theorem rejectCmd_sumB (s : State) : (rejectCmd s).sumB = s.sumB := rfl
@[simp] theorem rejectCmd_lutR (s : State) : (rejectCmd s).lutR = s.lutR := rfl
@[simp] theorem rejectCmd_lutG (s : State) : (rejectCmd s).lutG = s.lutG := rfl
@[simp] theorem rejectCmd_lutB (s : State) : (rejectCmd s).lutB = s.lutB := rfl
@[simp] theorem rejectCmd_raw (s : State) : (rejectCmd s).raw = s.raw := rfl
@[simp] theorem rejectCmd_fb (s : State) : (rejectCmd s).fb = s.fb := rfl
@[simp] theorem rejectCmd_op (s : State) : (rejectCmd s).op = s.op := rfl
@[simp] theorem rejectCmd_n (s : State) : (rejectCmd s).n = s.n := rfl
@[simp] theorem rejectCmd_dflag (s : State) : (rejectCmd s).dflag = s.dflag := rfl
@[simp] theorem rejectCmd_argi (s : State) : (rejectCmd s).argi = s.argi := rfl
@[simp] theorem rejectCmd_off (s : State) : (rejectCmd s).off = s.off := rfl
@[simp] theorem rejectCmd_att (s : State) : (rejectCmd s).att = s.att := rfl
@[simp] theorem rejectCmd_spdCmd (s : State) : (rejectCmd s).spdCmd = s.spdCmd := rfl
@[simp] theorem rejectCmd_spdData (s : State) : (rejectCmd s).spdData = s.spdData := rfl
@[simp] theorem rejectCmd_pixk (s : State) : (rejectCmd s).pixk = s.pixk := rfl
@[simp] theorem rejectCmd_csN (s : State) : (rejectCmd s).csN = s.csN := rfl
@[simp] theorem rejectCmd_sclk (s : State) : (rejectCmd s).sclk = s.sclk := rfl
@[simp] theorem rejectCmd_timer (s : State) : (rejectCmd s).timer = s.timer := rfl
@[simp] theorem rejectCmd_trace (s : State) : (rejectCmd s).trace = s.trace := rfl
@[simp] theorem rejectCmd_host (s : State) : (rejectCmd s).host = s.host := rfl
@[simp] theorem rejectCmd_responses (s : State) : (rejectCmd s).responses = s.responses := rfl
@[simp] theorem rejectCmd_answers (s : State) : (rejectCmd s).answers = s.answers := rfl
@[simp] theorem rejectCmd_draws (s : State) : (rejectCmd s).draws = s.draws := rfl
@[simp] theorem rejectCmd_resets (s : State) : (rejectCmd s).resets = s.resets := rfl
@[simp] theorem rejectCmd_faults (s : State) : (rejectCmd s).faults = s.faults := rfl

/-! ### acceptCmd -/

@[simp] theorem acceptCmd_cfg (op : HostOp) (s : State) : (acceptCmd op s).cfg = s.cfg := rfl
@[simp] theorem acceptCmd_mode (op : HostOp) (s : State) : (acceptCmd op s).mode = .run := rfl
@[simp] theorem acceptCmd_cmdErr (op : HostOp) (s : State) : (acceptCmd op s).cmdErr = s.cmdErr := rfl
@[simp] theorem acceptCmd_done (op : HostOp) (s : State) : (acceptCmd op s).done = false := rfl
@[simp] theorem acceptCmd_fatalCause (op : HostOp) (s : State) : (acceptCmd op s).fatalCause = s.fatalCause := rfl
@[simp] theorem acceptCmd_lastOp (op : HostOp) (s : State) : (acceptCmd op s).lastOp = hostOpCode op := rfl
@[simp] theorem acceptCmd_gpioOe (op : HostOp) (s : State) : (acceptCmd op s).gpioOe = s.gpioOe := rfl
@[simp] theorem acceptCmd_gpioOut (op : HostOp) (s : State) : (acceptCmd op s).gpioOut = s.gpioOut := rfl
@[simp] theorem acceptCmd_speedHz (op : HostOp) (s : State) : (acceptCmd op s).speedHz = s.speedHz := rfl
@[simp] theorem acceptCmd_dataSpeedHz (op : HostOp) (s : State) : (acceptCmd op s).dataSpeedHz = s.dataSpeedHz := rfl
@[simp] theorem acceptCmd_scriptStart (op : HostOp) (s : State) : (acceptCmd op s).scriptStart = s.scriptStart := rfl
@[simp] theorem acceptCmd_sp (op : HostOp) (s : State) : (acceptCmd op s).sp = if op = .runScript then s.scriptStart.setWidth 17 else s.sp := rfl
@[simp] theorem acceptCmd_faultByte (op : HostOp) (s : State) : (acceptCmd op s).faultByte = s.faultByte := rfl
@[simp] theorem acceptCmd_skipCount (op : HostOp) (s : State) : (acceptCmd op s).skipCount = s.skipCount := rfl
@[simp] theorem acceptCmd_frameCount (op : HostOp) (s : State) : (acceptCmd op s).frameCount = s.frameCount := rfl
@[simp] theorem acceptCmd_sumR (op : HostOp) (s : State) : (acceptCmd op s).sumR = s.sumR := rfl
@[simp] theorem acceptCmd_sumG (op : HostOp) (s : State) : (acceptCmd op s).sumG = s.sumG := rfl
@[simp] theorem acceptCmd_sumB (op : HostOp) (s : State) : (acceptCmd op s).sumB = s.sumB := rfl
@[simp] theorem acceptCmd_lutR (op : HostOp) (s : State) : (acceptCmd op s).lutR = s.lutR := rfl
@[simp] theorem acceptCmd_lutG (op : HostOp) (s : State) : (acceptCmd op s).lutG = s.lutG := rfl
@[simp] theorem acceptCmd_lutB (op : HostOp) (s : State) : (acceptCmd op s).lutB = s.lutB := rfl
@[simp] theorem acceptCmd_raw (op : HostOp) (s : State) : (acceptCmd op s).raw = s.raw := rfl
@[simp] theorem acceptCmd_fb (op : HostOp) (s : State) : (acceptCmd op s).fb = s.fb := rfl
@[simp] theorem acceptCmd_op (op : HostOp) (s : State) : (acceptCmd op s).op = op := rfl
@[simp] theorem acceptCmd_n (op : HostOp) (s : State) : (acceptCmd op s).n = s.n := rfl
@[simp] theorem acceptCmd_dflag (op : HostOp) (s : State) : (acceptCmd op s).dflag = s.dflag := rfl
@[simp] theorem acceptCmd_argi (op : HostOp) (s : State) : (acceptCmd op s).argi = s.argi := rfl
@[simp] theorem acceptCmd_off (op : HostOp) (s : State) : (acceptCmd op s).off = s.off := rfl
@[simp] theorem acceptCmd_att (op : HostOp) (s : State) : (acceptCmd op s).att = s.att := rfl
@[simp] theorem acceptCmd_spdCmd (op : HostOp) (s : State) : (acceptCmd op s).spdCmd = s.speedHz := rfl
@[simp] theorem acceptCmd_spdData (op : HostOp) (s : State) : (acceptCmd op s).spdData = s.dataSpeedHz := rfl
@[simp] theorem acceptCmd_pixk (op : HostOp) (s : State) : (acceptCmd op s).pixk = s.pixk := rfl
@[simp] theorem acceptCmd_csN (op : HostOp) (s : State) : (acceptCmd op s).csN = s.csN := rfl
@[simp] theorem acceptCmd_sclk (op : HostOp) (s : State) : (acceptCmd op s).sclk = s.sclk := rfl
@[simp] theorem acceptCmd_timer (op : HostOp) (s : State) : (acceptCmd op s).timer = s.timer := rfl
@[simp] theorem acceptCmd_trace (op : HostOp) (s : State) : (acceptCmd op s).trace = s.trace := rfl
@[simp] theorem acceptCmd_host (op : HostOp) (s : State) : (acceptCmd op s).host = s.host := rfl
@[simp] theorem acceptCmd_responses (op : HostOp) (s : State) : (acceptCmd op s).responses = s.responses := rfl
@[simp] theorem acceptCmd_answers (op : HostOp) (s : State) : (acceptCmd op s).answers = s.answers := rfl
@[simp] theorem acceptCmd_draws (op : HostOp) (s : State) : (acceptCmd op s).draws = s.draws := rfl
@[simp] theorem acceptCmd_resets (op : HostOp) (s : State) : (acceptCmd op s).resets = s.resets := rfl
@[simp] theorem acceptCmd_faults (op : HostOp) (s : State) : (acceptCmd op s).faults = s.faults := rfl

/-! ### beginAttempt -/

@[simp] theorem beginAttempt_cfg (k : Nat) (s : State) : (beginAttempt k s).cfg = s.cfg := rfl
@[simp] theorem beginAttempt_mode (k : Nat) (s : State) : (beginAttempt k s).mode = s.mode := rfl
@[simp] theorem beginAttempt_cmdErr (k : Nat) (s : State) : (beginAttempt k s).cmdErr = s.cmdErr := rfl
@[simp] theorem beginAttempt_done (k : Nat) (s : State) : (beginAttempt k s).done = s.done := rfl
@[simp] theorem beginAttempt_fatalCause (k : Nat) (s : State) : (beginAttempt k s).fatalCause = s.fatalCause := rfl
@[simp] theorem beginAttempt_lastOp (k : Nat) (s : State) : (beginAttempt k s).lastOp = s.lastOp := rfl
@[simp] theorem beginAttempt_gpioOe (k : Nat) (s : State) : (beginAttempt k s).gpioOe = s.gpioOe := rfl
@[simp] theorem beginAttempt_gpioOut (k : Nat) (s : State) : (beginAttempt k s).gpioOut = s.gpioOut := rfl
@[simp] theorem beginAttempt_speedHz (k : Nat) (s : State) : (beginAttempt k s).speedHz = s.speedHz := rfl
@[simp] theorem beginAttempt_dataSpeedHz (k : Nat) (s : State) : (beginAttempt k s).dataSpeedHz = s.dataSpeedHz := rfl
@[simp] theorem beginAttempt_scriptStart (k : Nat) (s : State) : (beginAttempt k s).scriptStart = s.scriptStart := rfl
@[simp] theorem beginAttempt_sp (k : Nat) (s : State) : (beginAttempt k s).sp = s.sp := rfl
@[simp] theorem beginAttempt_faultByte (k : Nat) (s : State) : (beginAttempt k s).faultByte = s.faultByte := rfl
@[simp] theorem beginAttempt_skipCount (k : Nat) (s : State) : (beginAttempt k s).skipCount = s.skipCount := rfl
@[simp] theorem beginAttempt_frameCount (k : Nat) (s : State) : (beginAttempt k s).frameCount = s.frameCount := rfl
@[simp] theorem beginAttempt_sumR (k : Nat) (s : State) : (beginAttempt k s).sumR = s.sumR := rfl
@[simp] theorem beginAttempt_sumG (k : Nat) (s : State) : (beginAttempt k s).sumG = s.sumG := rfl
@[simp] theorem beginAttempt_sumB (k : Nat) (s : State) : (beginAttempt k s).sumB = s.sumB := rfl
@[simp] theorem beginAttempt_lutR (k : Nat) (s : State) : (beginAttempt k s).lutR = s.lutR := rfl
@[simp] theorem beginAttempt_lutG (k : Nat) (s : State) : (beginAttempt k s).lutG = s.lutG := rfl
@[simp] theorem beginAttempt_lutB (k : Nat) (s : State) : (beginAttempt k s).lutB = s.lutB := rfl
@[simp] theorem beginAttempt_raw (k : Nat) (s : State) : (beginAttempt k s).raw = s.raw := rfl
@[simp] theorem beginAttempt_fb (k : Nat) (s : State) : (beginAttempt k s).fb = s.fb := rfl
@[simp] theorem beginAttempt_op (k : Nat) (s : State) : (beginAttempt k s).op = s.op := rfl
@[simp] theorem beginAttempt_n (k : Nat) (s : State) : (beginAttempt k s).n = s.n := rfl
@[simp] theorem beginAttempt_dflag (k : Nat) (s : State) : (beginAttempt k s).dflag = s.dflag := rfl
@[simp] theorem beginAttempt_argi (k : Nat) (s : State) : (beginAttempt k s).argi = s.argi := rfl
@[simp] theorem beginAttempt_off (k : Nat) (s : State) : (beginAttempt k s).off = s.off := rfl
@[simp] theorem beginAttempt_att (k : Nat) (s : State) : (beginAttempt k s).att = k := rfl
@[simp] theorem beginAttempt_spdCmd (k : Nat) (s : State) : (beginAttempt k s).spdCmd = s.spdCmd := rfl
@[simp] theorem beginAttempt_spdData (k : Nat) (s : State) : (beginAttempt k s).spdData = s.spdData := rfl
@[simp] theorem beginAttempt_pixk (k : Nat) (s : State) : (beginAttempt k s).pixk = s.pixk := rfl
@[simp] theorem beginAttempt_csN (k : Nat) (s : State) : (beginAttempt k s).csN = false := rfl
@[simp] theorem beginAttempt_sclk (k : Nat) (s : State) : (beginAttempt k s).sclk = s.sclk := rfl
@[simp] theorem beginAttempt_timer (k : Nat) (s : State) : (beginAttempt k s).timer = s.timer := rfl
@[simp] theorem beginAttempt_trace (k : Nat) (s : State) : (beginAttempt k s).trace = s.trace := rfl
@[simp] theorem beginAttempt_host (k : Nat) (s : State) : (beginAttempt k s).host = s.host := rfl
@[simp] theorem beginAttempt_responses (k : Nat) (s : State) : (beginAttempt k s).responses = s.responses := rfl
@[simp] theorem beginAttempt_answers (k : Nat) (s : State) : (beginAttempt k s).answers = s.answers := rfl
@[simp] theorem beginAttempt_draws (k : Nat) (s : State) : (beginAttempt k s).draws = s.draws := rfl
@[simp] theorem beginAttempt_resets (k : Nat) (s : State) : (beginAttempt k s).resets = s.resets := rfl
@[simp] theorem beginAttempt_faults (k : Nat) (s : State) : (beginAttempt k s).faults = s.faults := rfl

/-! ### endAttempt -/

@[simp] theorem endAttempt_cfg (k : Nat) (dc : PinLevel) (speed : Word) (bytes : List Byte) (s : State) : (endAttempt k dc speed bytes s).cfg = s.cfg := rfl
@[simp] theorem endAttempt_mode (k : Nat) (dc : PinLevel) (speed : Word) (bytes : List Byte) (s : State) : (endAttempt k dc speed bytes s).mode = s.mode := rfl
@[simp] theorem endAttempt_cmdErr (k : Nat) (dc : PinLevel) (speed : Word) (bytes : List Byte) (s : State) : (endAttempt k dc speed bytes s).cmdErr = s.cmdErr := rfl
@[simp] theorem endAttempt_done (k : Nat) (dc : PinLevel) (speed : Word) (bytes : List Byte) (s : State) : (endAttempt k dc speed bytes s).done = s.done := rfl
@[simp] theorem endAttempt_fatalCause (k : Nat) (dc : PinLevel) (speed : Word) (bytes : List Byte) (s : State) : (endAttempt k dc speed bytes s).fatalCause = s.fatalCause := rfl
@[simp] theorem endAttempt_lastOp (k : Nat) (dc : PinLevel) (speed : Word) (bytes : List Byte) (s : State) : (endAttempt k dc speed bytes s).lastOp = s.lastOp := rfl
@[simp] theorem endAttempt_gpioOe (k : Nat) (dc : PinLevel) (speed : Word) (bytes : List Byte) (s : State) : (endAttempt k dc speed bytes s).gpioOe = s.gpioOe := rfl
@[simp] theorem endAttempt_gpioOut (k : Nat) (dc : PinLevel) (speed : Word) (bytes : List Byte) (s : State) : (endAttempt k dc speed bytes s).gpioOut = s.gpioOut := rfl
@[simp] theorem endAttempt_speedHz (k : Nat) (dc : PinLevel) (speed : Word) (bytes : List Byte) (s : State) : (endAttempt k dc speed bytes s).speedHz = s.speedHz := rfl
@[simp] theorem endAttempt_dataSpeedHz (k : Nat) (dc : PinLevel) (speed : Word) (bytes : List Byte) (s : State) : (endAttempt k dc speed bytes s).dataSpeedHz = s.dataSpeedHz := rfl
@[simp] theorem endAttempt_scriptStart (k : Nat) (dc : PinLevel) (speed : Word) (bytes : List Byte) (s : State) : (endAttempt k dc speed bytes s).scriptStart = s.scriptStart := rfl
@[simp] theorem endAttempt_sp (k : Nat) (dc : PinLevel) (speed : Word) (bytes : List Byte) (s : State) : (endAttempt k dc speed bytes s).sp = s.sp := rfl
@[simp] theorem endAttempt_faultByte (k : Nat) (dc : PinLevel) (speed : Word) (bytes : List Byte) (s : State) : (endAttempt k dc speed bytes s).faultByte = s.faultByte := rfl
@[simp] theorem endAttempt_skipCount (k : Nat) (dc : PinLevel) (speed : Word) (bytes : List Byte) (s : State) : (endAttempt k dc speed bytes s).skipCount = s.skipCount := rfl
@[simp] theorem endAttempt_frameCount (k : Nat) (dc : PinLevel) (speed : Word) (bytes : List Byte) (s : State) : (endAttempt k dc speed bytes s).frameCount = s.frameCount := rfl
@[simp] theorem endAttempt_sumR (k : Nat) (dc : PinLevel) (speed : Word) (bytes : List Byte) (s : State) : (endAttempt k dc speed bytes s).sumR = s.sumR := rfl
@[simp] theorem endAttempt_sumG (k : Nat) (dc : PinLevel) (speed : Word) (bytes : List Byte) (s : State) : (endAttempt k dc speed bytes s).sumG = s.sumG := rfl
@[simp] theorem endAttempt_sumB (k : Nat) (dc : PinLevel) (speed : Word) (bytes : List Byte) (s : State) : (endAttempt k dc speed bytes s).sumB = s.sumB := rfl
@[simp] theorem endAttempt_lutR (k : Nat) (dc : PinLevel) (speed : Word) (bytes : List Byte) (s : State) : (endAttempt k dc speed bytes s).lutR = s.lutR := rfl
@[simp] theorem endAttempt_lutG (k : Nat) (dc : PinLevel) (speed : Word) (bytes : List Byte) (s : State) : (endAttempt k dc speed bytes s).lutG = s.lutG := rfl
@[simp] theorem endAttempt_lutB (k : Nat) (dc : PinLevel) (speed : Word) (bytes : List Byte) (s : State) : (endAttempt k dc speed bytes s).lutB = s.lutB := rfl
@[simp] theorem endAttempt_raw (k : Nat) (dc : PinLevel) (speed : Word) (bytes : List Byte) (s : State) : (endAttempt k dc speed bytes s).raw = s.raw := rfl
@[simp] theorem endAttempt_fb (k : Nat) (dc : PinLevel) (speed : Word) (bytes : List Byte) (s : State) : (endAttempt k dc speed bytes s).fb = s.fb := rfl
@[simp] theorem endAttempt_op (k : Nat) (dc : PinLevel) (speed : Word) (bytes : List Byte) (s : State) : (endAttempt k dc speed bytes s).op = s.op := rfl
@[simp] theorem endAttempt_n (k : Nat) (dc : PinLevel) (speed : Word) (bytes : List Byte) (s : State) : (endAttempt k dc speed bytes s).n = s.n := rfl
@[simp] theorem endAttempt_dflag (k : Nat) (dc : PinLevel) (speed : Word) (bytes : List Byte) (s : State) : (endAttempt k dc speed bytes s).dflag = s.dflag := rfl
@[simp] theorem endAttempt_argi (k : Nat) (dc : PinLevel) (speed : Word) (bytes : List Byte) (s : State) : (endAttempt k dc speed bytes s).argi = s.argi := rfl
@[simp] theorem endAttempt_off (k : Nat) (dc : PinLevel) (speed : Word) (bytes : List Byte) (s : State) : (endAttempt k dc speed bytes s).off = s.off := rfl
@[simp] theorem endAttempt_att (k : Nat) (dc : PinLevel) (speed : Word) (bytes : List Byte) (s : State) : (endAttempt k dc speed bytes s).att = s.att := rfl
@[simp] theorem endAttempt_spdCmd (k : Nat) (dc : PinLevel) (speed : Word) (bytes : List Byte) (s : State) : (endAttempt k dc speed bytes s).spdCmd = s.spdCmd := rfl
@[simp] theorem endAttempt_spdData (k : Nat) (dc : PinLevel) (speed : Word) (bytes : List Byte) (s : State) : (endAttempt k dc speed bytes s).spdData = s.spdData := rfl
@[simp] theorem endAttempt_pixk (k : Nat) (dc : PinLevel) (speed : Word) (bytes : List Byte) (s : State) : (endAttempt k dc speed bytes s).pixk = s.pixk := rfl
@[simp] theorem endAttempt_csN (k : Nat) (dc : PinLevel) (speed : Word) (bytes : List Byte) (s : State) : (endAttempt k dc speed bytes s).csN = true := rfl
@[simp] theorem endAttempt_sclk (k : Nat) (dc : PinLevel) (speed : Word) (bytes : List Byte) (s : State) : (endAttempt k dc speed bytes s).sclk = false := rfl
@[simp] theorem endAttempt_timer (k : Nat) (dc : PinLevel) (speed : Word) (bytes : List Byte) (s : State) : (endAttempt k dc speed bytes s).timer = s.timer := rfl
@[simp] theorem endAttempt_trace (k : Nat) (dc : PinLevel) (speed : Word) (bytes : List Byte) (s : State) : (endAttempt k dc speed bytes s).trace = s.trace ++ [.attempt k dc speed bytes (answerAt s 0)] := rfl
@[simp] theorem endAttempt_host (k : Nat) (dc : PinLevel) (speed : Word) (bytes : List Byte) (s : State) : (endAttempt k dc speed bytes s).host = s.host := rfl
@[simp] theorem endAttempt_responses (k : Nat) (dc : PinLevel) (speed : Word) (bytes : List Byte) (s : State) : (endAttempt k dc speed bytes s).responses = s.responses := rfl
@[simp] theorem endAttempt_answers (k : Nat) (dc : PinLevel) (speed : Word) (bytes : List Byte) (s : State) : (endAttempt k dc speed bytes s).answers = s.answers.tail := rfl
@[simp] theorem endAttempt_draws (k : Nat) (dc : PinLevel) (speed : Word) (bytes : List Byte) (s : State) : (endAttempt k dc speed bytes s).draws = s.draws + 1 := rfl
@[simp] theorem endAttempt_resets (k : Nat) (dc : PinLevel) (speed : Word) (bytes : List Byte) (s : State) : (endAttempt k dc speed bytes s).resets = s.resets := rfl
@[simp] theorem endAttempt_faults (k : Nat) (dc : PinLevel) (speed : Word) (bytes : List Byte) (s : State) : (endAttempt k dc speed bytes s).faults = s.faults := rfl

/-! ### startWait -/

@[simp] theorem startWait_cfg (ms : Nat) (s : State) : (startWait ms s).cfg = s.cfg := rfl
@[simp] theorem startWait_mode (ms : Nat) (s : State) : (startWait ms s).mode = s.mode := rfl
@[simp] theorem startWait_cmdErr (ms : Nat) (s : State) : (startWait ms s).cmdErr = s.cmdErr := rfl
@[simp] theorem startWait_done (ms : Nat) (s : State) : (startWait ms s).done = s.done := rfl
@[simp] theorem startWait_fatalCause (ms : Nat) (s : State) : (startWait ms s).fatalCause = s.fatalCause := rfl
@[simp] theorem startWait_lastOp (ms : Nat) (s : State) : (startWait ms s).lastOp = s.lastOp := rfl
@[simp] theorem startWait_gpioOe (ms : Nat) (s : State) : (startWait ms s).gpioOe = s.gpioOe := rfl
@[simp] theorem startWait_gpioOut (ms : Nat) (s : State) : (startWait ms s).gpioOut = s.gpioOut := rfl
@[simp] theorem startWait_speedHz (ms : Nat) (s : State) : (startWait ms s).speedHz = s.speedHz := rfl
@[simp] theorem startWait_dataSpeedHz (ms : Nat) (s : State) : (startWait ms s).dataSpeedHz = s.dataSpeedHz := rfl
@[simp] theorem startWait_scriptStart (ms : Nat) (s : State) : (startWait ms s).scriptStart = s.scriptStart := rfl
@[simp] theorem startWait_sp (ms : Nat) (s : State) : (startWait ms s).sp = s.sp := rfl
@[simp] theorem startWait_faultByte (ms : Nat) (s : State) : (startWait ms s).faultByte = s.faultByte := rfl
@[simp] theorem startWait_skipCount (ms : Nat) (s : State) : (startWait ms s).skipCount = s.skipCount := rfl
@[simp] theorem startWait_frameCount (ms : Nat) (s : State) : (startWait ms s).frameCount = s.frameCount := rfl
@[simp] theorem startWait_sumR (ms : Nat) (s : State) : (startWait ms s).sumR = s.sumR := rfl
@[simp] theorem startWait_sumG (ms : Nat) (s : State) : (startWait ms s).sumG = s.sumG := rfl
@[simp] theorem startWait_sumB (ms : Nat) (s : State) : (startWait ms s).sumB = s.sumB := rfl
@[simp] theorem startWait_lutR (ms : Nat) (s : State) : (startWait ms s).lutR = s.lutR := rfl
@[simp] theorem startWait_lutG (ms : Nat) (s : State) : (startWait ms s).lutG = s.lutG := rfl
@[simp] theorem startWait_lutB (ms : Nat) (s : State) : (startWait ms s).lutB = s.lutB := rfl
@[simp] theorem startWait_raw (ms : Nat) (s : State) : (startWait ms s).raw = s.raw := rfl
@[simp] theorem startWait_fb (ms : Nat) (s : State) : (startWait ms s).fb = s.fb := rfl
@[simp] theorem startWait_op (ms : Nat) (s : State) : (startWait ms s).op = s.op := rfl
@[simp] theorem startWait_n (ms : Nat) (s : State) : (startWait ms s).n = s.n := rfl
@[simp] theorem startWait_dflag (ms : Nat) (s : State) : (startWait ms s).dflag = s.dflag := rfl
@[simp] theorem startWait_argi (ms : Nat) (s : State) : (startWait ms s).argi = s.argi := rfl
@[simp] theorem startWait_off (ms : Nat) (s : State) : (startWait ms s).off = s.off := rfl
@[simp] theorem startWait_att (ms : Nat) (s : State) : (startWait ms s).att = s.att := rfl
@[simp] theorem startWait_spdCmd (ms : Nat) (s : State) : (startWait ms s).spdCmd = s.spdCmd := rfl
@[simp] theorem startWait_spdData (ms : Nat) (s : State) : (startWait ms s).spdData = s.spdData := rfl
@[simp] theorem startWait_pixk (ms : Nat) (s : State) : (startWait ms s).pixk = s.pixk := rfl
@[simp] theorem startWait_csN (ms : Nat) (s : State) : (startWait ms s).csN = s.csN := rfl
@[simp] theorem startWait_sclk (ms : Nat) (s : State) : (startWait ms s).sclk = s.sclk := rfl
@[simp] theorem startWait_timer (ms : Nat) (s : State) : (startWait ms s).timer = some ms := rfl
@[simp] theorem startWait_trace (ms : Nat) (s : State) : (startWait ms s).trace = s.trace ++ [.wait ms] := rfl
@[simp] theorem startWait_host (ms : Nat) (s : State) : (startWait ms s).host = s.host := rfl
@[simp] theorem startWait_responses (ms : Nat) (s : State) : (startWait ms s).responses = s.responses := rfl
@[simp] theorem startWait_answers (ms : Nat) (s : State) : (startWait ms s).answers = s.answers := rfl
@[simp] theorem startWait_draws (ms : Nat) (s : State) : (startWait ms s).draws = s.draws := rfl
@[simp] theorem startWait_resets (ms : Nat) (s : State) : (startWait ms s).resets = s.resets := rfl
@[simp] theorem startWait_faults (ms : Nat) (s : State) : (startWait ms s).faults = s.faults := rfl

/-! ### endWait -/

@[simp] theorem endWait_cfg (s : State) : (endWait s).cfg = s.cfg := rfl
@[simp] theorem endWait_mode (s : State) : (endWait s).mode = s.mode := rfl
@[simp] theorem endWait_cmdErr (s : State) : (endWait s).cmdErr = s.cmdErr := rfl
@[simp] theorem endWait_done (s : State) : (endWait s).done = s.done := rfl
@[simp] theorem endWait_fatalCause (s : State) : (endWait s).fatalCause = s.fatalCause := rfl
@[simp] theorem endWait_lastOp (s : State) : (endWait s).lastOp = s.lastOp := rfl
@[simp] theorem endWait_gpioOe (s : State) : (endWait s).gpioOe = s.gpioOe := rfl
@[simp] theorem endWait_gpioOut (s : State) : (endWait s).gpioOut = s.gpioOut := rfl
@[simp] theorem endWait_speedHz (s : State) : (endWait s).speedHz = s.speedHz := rfl
@[simp] theorem endWait_dataSpeedHz (s : State) : (endWait s).dataSpeedHz = s.dataSpeedHz := rfl
@[simp] theorem endWait_scriptStart (s : State) : (endWait s).scriptStart = s.scriptStart := rfl
@[simp] theorem endWait_sp (s : State) : (endWait s).sp = s.sp := rfl
@[simp] theorem endWait_faultByte (s : State) : (endWait s).faultByte = s.faultByte := rfl
@[simp] theorem endWait_skipCount (s : State) : (endWait s).skipCount = s.skipCount := rfl
@[simp] theorem endWait_frameCount (s : State) : (endWait s).frameCount = s.frameCount := rfl
@[simp] theorem endWait_sumR (s : State) : (endWait s).sumR = s.sumR := rfl
@[simp] theorem endWait_sumG (s : State) : (endWait s).sumG = s.sumG := rfl
@[simp] theorem endWait_sumB (s : State) : (endWait s).sumB = s.sumB := rfl
@[simp] theorem endWait_lutR (s : State) : (endWait s).lutR = s.lutR := rfl
@[simp] theorem endWait_lutG (s : State) : (endWait s).lutG = s.lutG := rfl
@[simp] theorem endWait_lutB (s : State) : (endWait s).lutB = s.lutB := rfl
@[simp] theorem endWait_raw (s : State) : (endWait s).raw = s.raw := rfl
@[simp] theorem endWait_fb (s : State) : (endWait s).fb = s.fb := rfl
@[simp] theorem endWait_op (s : State) : (endWait s).op = s.op := rfl
@[simp] theorem endWait_n (s : State) : (endWait s).n = s.n := rfl
@[simp] theorem endWait_dflag (s : State) : (endWait s).dflag = s.dflag := rfl
@[simp] theorem endWait_argi (s : State) : (endWait s).argi = s.argi := rfl
@[simp] theorem endWait_off (s : State) : (endWait s).off = s.off := rfl
@[simp] theorem endWait_att (s : State) : (endWait s).att = s.att := rfl
@[simp] theorem endWait_spdCmd (s : State) : (endWait s).spdCmd = s.spdCmd := rfl
@[simp] theorem endWait_spdData (s : State) : (endWait s).spdData = s.spdData := rfl
@[simp] theorem endWait_pixk (s : State) : (endWait s).pixk = s.pixk := rfl
@[simp] theorem endWait_csN (s : State) : (endWait s).csN = s.csN := rfl
@[simp] theorem endWait_sclk (s : State) : (endWait s).sclk = s.sclk := rfl
@[simp] theorem endWait_timer (s : State) : (endWait s).timer = none := rfl
@[simp] theorem endWait_trace (s : State) : (endWait s).trace = s.trace := rfl
@[simp] theorem endWait_host (s : State) : (endWait s).host = s.host := rfl
@[simp] theorem endWait_responses (s : State) : (endWait s).responses = s.responses := rfl
@[simp] theorem endWait_answers (s : State) : (endWait s).answers = s.answers := rfl
@[simp] theorem endWait_draws (s : State) : (endWait s).draws = s.draws := rfl
@[simp] theorem endWait_resets (s : State) : (endWait s).resets = s.resets := rfl
@[simp] theorem endWait_faults (s : State) : (endWait s).faults = s.faults := rfl

/-! ### storeSums -/

@[simp] theorem storeSums_cfg (x : Sums) (s : State) : (storeSums x s).cfg = s.cfg := rfl
@[simp] theorem storeSums_mode (x : Sums) (s : State) : (storeSums x s).mode = s.mode := rfl
@[simp] theorem storeSums_cmdErr (x : Sums) (s : State) : (storeSums x s).cmdErr = s.cmdErr := rfl
@[simp] theorem storeSums_done (x : Sums) (s : State) : (storeSums x s).done = s.done := rfl
@[simp] theorem storeSums_fatalCause (x : Sums) (s : State) : (storeSums x s).fatalCause = s.fatalCause := rfl
@[simp] theorem storeSums_lastOp (x : Sums) (s : State) : (storeSums x s).lastOp = s.lastOp := rfl
@[simp] theorem storeSums_gpioOe (x : Sums) (s : State) : (storeSums x s).gpioOe = s.gpioOe := rfl
@[simp] theorem storeSums_gpioOut (x : Sums) (s : State) : (storeSums x s).gpioOut = s.gpioOut := rfl
@[simp] theorem storeSums_speedHz (x : Sums) (s : State) : (storeSums x s).speedHz = s.speedHz := rfl
@[simp] theorem storeSums_dataSpeedHz (x : Sums) (s : State) : (storeSums x s).dataSpeedHz = s.dataSpeedHz := rfl
@[simp] theorem storeSums_scriptStart (x : Sums) (s : State) : (storeSums x s).scriptStart = s.scriptStart := rfl
@[simp] theorem storeSums_sp (x : Sums) (s : State) : (storeSums x s).sp = s.sp := rfl
@[simp] theorem storeSums_faultByte (x : Sums) (s : State) : (storeSums x s).faultByte = s.faultByte := rfl
@[simp] theorem storeSums_skipCount (x : Sums) (s : State) : (storeSums x s).skipCount = s.skipCount := rfl
@[simp] theorem storeSums_frameCount (x : Sums) (s : State) : (storeSums x s).frameCount = s.frameCount := rfl
@[simp] theorem storeSums_sumR (x : Sums) (s : State) : (storeSums x s).sumR = x.r := rfl
@[simp] theorem storeSums_sumG (x : Sums) (s : State) : (storeSums x s).sumG = x.g := rfl
@[simp] theorem storeSums_sumB (x : Sums) (s : State) : (storeSums x s).sumB = x.b := rfl
@[simp] theorem storeSums_lutR (x : Sums) (s : State) : (storeSums x s).lutR = s.lutR := rfl
@[simp] theorem storeSums_lutG (x : Sums) (s : State) : (storeSums x s).lutG = s.lutG := rfl
@[simp] theorem storeSums_lutB (x : Sums) (s : State) : (storeSums x s).lutB = s.lutB := rfl
@[simp] theorem storeSums_raw (x : Sums) (s : State) : (storeSums x s).raw = s.raw := rfl
@[simp] theorem storeSums_fb (x : Sums) (s : State) : (storeSums x s).fb = s.fb := rfl
@[simp] theorem storeSums_op (x : Sums) (s : State) : (storeSums x s).op = s.op := rfl
@[simp] theorem storeSums_n (x : Sums) (s : State) : (storeSums x s).n = s.n := rfl
@[simp] theorem storeSums_dflag (x : Sums) (s : State) : (storeSums x s).dflag = s.dflag := rfl
@[simp] theorem storeSums_argi (x : Sums) (s : State) : (storeSums x s).argi = s.argi := rfl
@[simp] theorem storeSums_off (x : Sums) (s : State) : (storeSums x s).off = s.off := rfl
@[simp] theorem storeSums_att (x : Sums) (s : State) : (storeSums x s).att = s.att := rfl
@[simp] theorem storeSums_spdCmd (x : Sums) (s : State) : (storeSums x s).spdCmd = s.spdCmd := rfl
@[simp] theorem storeSums_spdData (x : Sums) (s : State) : (storeSums x s).spdData = s.spdData := rfl
@[simp] theorem storeSums_pixk (x : Sums) (s : State) : (storeSums x s).pixk = s.pixk := rfl
@[simp] theorem storeSums_csN (x : Sums) (s : State) : (storeSums x s).csN = s.csN := rfl
@[simp] theorem storeSums_sclk (x : Sums) (s : State) : (storeSums x s).sclk = s.sclk := rfl
@[simp] theorem storeSums_timer (x : Sums) (s : State) : (storeSums x s).timer = s.timer := rfl
@[simp] theorem storeSums_trace (x : Sums) (s : State) : (storeSums x s).trace = s.trace := rfl
@[simp] theorem storeSums_host (x : Sums) (s : State) : (storeSums x s).host = s.host := rfl
@[simp] theorem storeSums_responses (x : Sums) (s : State) : (storeSums x s).responses = s.responses := rfl
@[simp] theorem storeSums_answers (x : Sums) (s : State) : (storeSums x s).answers = s.answers := rfl
@[simp] theorem storeSums_draws (x : Sums) (s : State) : (storeSums x s).draws = s.draws := rfl
@[simp] theorem storeSums_resets (x : Sums) (s : State) : (storeSums x s).resets = s.resets := rfl
@[simp] theorem storeSums_faults (x : Sums) (s : State) : (storeSums x s).faults = s.faults := rfl

/-! ### buildLut -/

@[simp] theorem buildLut_cfg (x : Sums) (s : State) : (buildLut x s).cfg = s.cfg := by simp only [buildLut]
@[simp] theorem buildLut_mode (x : Sums) (s : State) : (buildLut x s).mode = s.mode := by simp only [buildLut]
@[simp] theorem buildLut_cmdErr (x : Sums) (s : State) : (buildLut x s).cmdErr = s.cmdErr := by simp only [buildLut]
@[simp] theorem buildLut_done (x : Sums) (s : State) : (buildLut x s).done = s.done := by simp only [buildLut]
@[simp] theorem buildLut_fatalCause (x : Sums) (s : State) : (buildLut x s).fatalCause = s.fatalCause := by simp only [buildLut]
@[simp] theorem buildLut_lastOp (x : Sums) (s : State) : (buildLut x s).lastOp = s.lastOp := by simp only [buildLut]
@[simp] theorem buildLut_gpioOe (x : Sums) (s : State) : (buildLut x s).gpioOe = s.gpioOe := by simp only [buildLut]
@[simp] theorem buildLut_gpioOut (x : Sums) (s : State) : (buildLut x s).gpioOut = s.gpioOut := by simp only [buildLut]
@[simp] theorem buildLut_speedHz (x : Sums) (s : State) : (buildLut x s).speedHz = s.speedHz := by simp only [buildLut]
@[simp] theorem buildLut_dataSpeedHz (x : Sums) (s : State) : (buildLut x s).dataSpeedHz = s.dataSpeedHz := by simp only [buildLut]
@[simp] theorem buildLut_scriptStart (x : Sums) (s : State) : (buildLut x s).scriptStart = s.scriptStart := by simp only [buildLut]
@[simp] theorem buildLut_sp (x : Sums) (s : State) : (buildLut x s).sp = s.sp := by simp only [buildLut]
@[simp] theorem buildLut_faultByte (x : Sums) (s : State) : (buildLut x s).faultByte = s.faultByte := by simp only [buildLut]
@[simp] theorem buildLut_skipCount (x : Sums) (s : State) : (buildLut x s).skipCount = s.skipCount := by simp only [buildLut]
@[simp] theorem buildLut_frameCount (x : Sums) (s : State) : (buildLut x s).frameCount = s.frameCount := by simp only [buildLut]
@[simp] theorem buildLut_sumR (x : Sums) (s : State) : (buildLut x s).sumR = s.sumR := by simp only [buildLut]
@[simp] theorem buildLut_sumG (x : Sums) (s : State) : (buildLut x s).sumG = s.sumG := by simp only [buildLut]
@[simp] theorem buildLut_sumB (x : Sums) (s : State) : (buildLut x s).sumB = s.sumB := by simp only [buildLut]
@[simp] theorem buildLut_lutR (x : Sums) (s : State) : (buildLut x s).lutR = lutTable s.cfg.awbRound x.r.toNat (sumTotal x) := by simp only [buildLut]
@[simp] theorem buildLut_lutG (x : Sums) (s : State) : (buildLut x s).lutG = lutTable s.cfg.awbRound x.g.toNat (sumTotal x) := by simp only [buildLut]
@[simp] theorem buildLut_lutB (x : Sums) (s : State) : (buildLut x s).lutB = lutTable s.cfg.awbRound x.b.toNat (sumTotal x) := by simp only [buildLut]
@[simp] theorem buildLut_raw (x : Sums) (s : State) : (buildLut x s).raw = s.raw := by simp only [buildLut]
@[simp] theorem buildLut_fb (x : Sums) (s : State) : (buildLut x s).fb = s.fb := by simp only [buildLut]
@[simp] theorem buildLut_op (x : Sums) (s : State) : (buildLut x s).op = s.op := by simp only [buildLut]
@[simp] theorem buildLut_n (x : Sums) (s : State) : (buildLut x s).n = s.n := by simp only [buildLut]
@[simp] theorem buildLut_dflag (x : Sums) (s : State) : (buildLut x s).dflag = s.dflag := by simp only [buildLut]
@[simp] theorem buildLut_argi (x : Sums) (s : State) : (buildLut x s).argi = s.argi := by simp only [buildLut]
@[simp] theorem buildLut_off (x : Sums) (s : State) : (buildLut x s).off = s.off := by simp only [buildLut]
@[simp] theorem buildLut_att (x : Sums) (s : State) : (buildLut x s).att = s.att := by simp only [buildLut]
@[simp] theorem buildLut_spdCmd (x : Sums) (s : State) : (buildLut x s).spdCmd = s.spdCmd := by simp only [buildLut]
@[simp] theorem buildLut_spdData (x : Sums) (s : State) : (buildLut x s).spdData = s.spdData := by simp only [buildLut]
@[simp] theorem buildLut_pixk (x : Sums) (s : State) : (buildLut x s).pixk = s.pixk := by simp only [buildLut]
@[simp] theorem buildLut_csN (x : Sums) (s : State) : (buildLut x s).csN = s.csN := by simp only [buildLut]
@[simp] theorem buildLut_sclk (x : Sums) (s : State) : (buildLut x s).sclk = s.sclk := by simp only [buildLut]
@[simp] theorem buildLut_timer (x : Sums) (s : State) : (buildLut x s).timer = s.timer := by simp only [buildLut]
@[simp] theorem buildLut_trace (x : Sums) (s : State) : (buildLut x s).trace = s.trace := by simp only [buildLut]
@[simp] theorem buildLut_host (x : Sums) (s : State) : (buildLut x s).host = s.host := by simp only [buildLut]
@[simp] theorem buildLut_responses (x : Sums) (s : State) : (buildLut x s).responses = s.responses := by simp only [buildLut]
@[simp] theorem buildLut_answers (x : Sums) (s : State) : (buildLut x s).answers = s.answers := by simp only [buildLut]
@[simp] theorem buildLut_draws (x : Sums) (s : State) : (buildLut x s).draws = s.draws := by simp only [buildLut]
@[simp] theorem buildLut_resets (x : Sums) (s : State) : (buildLut x s).resets = s.resets := by simp only [buildLut]
@[simp] theorem buildLut_faults (x : Sums) (s : State) : (buildLut x s).faults = s.faults := by simp only [buildLut]

/-! ### storePixel -/

@[simp] theorem storePixel_cfg (k : Nat) (w : Pixel) (s : State) : (storePixel k w s).cfg = s.cfg := rfl
@[simp] theorem storePixel_mode (k : Nat) (w : Pixel) (s : State) : (storePixel k w s).mode = s.mode := rfl
@[simp] theorem storePixel_cmdErr (k : Nat) (w : Pixel) (s : State) : (storePixel k w s).cmdErr = s.cmdErr := rfl
@[simp] theorem storePixel_done (k : Nat) (w : Pixel) (s : State) : (storePixel k w s).done = s.done := rfl
@[simp] theorem storePixel_fatalCause (k : Nat) (w : Pixel) (s : State) : (storePixel k w s).fatalCause = s.fatalCause := rfl
@[simp] theorem storePixel_lastOp (k : Nat) (w : Pixel) (s : State) : (storePixel k w s).lastOp = s.lastOp := rfl
@[simp] theorem storePixel_gpioOe (k : Nat) (w : Pixel) (s : State) : (storePixel k w s).gpioOe = s.gpioOe := rfl
@[simp] theorem storePixel_gpioOut (k : Nat) (w : Pixel) (s : State) : (storePixel k w s).gpioOut = s.gpioOut := rfl
@[simp] theorem storePixel_speedHz (k : Nat) (w : Pixel) (s : State) : (storePixel k w s).speedHz = s.speedHz := rfl
@[simp] theorem storePixel_dataSpeedHz (k : Nat) (w : Pixel) (s : State) : (storePixel k w s).dataSpeedHz = s.dataSpeedHz := rfl
@[simp] theorem storePixel_scriptStart (k : Nat) (w : Pixel) (s : State) : (storePixel k w s).scriptStart = s.scriptStart := rfl
@[simp] theorem storePixel_sp (k : Nat) (w : Pixel) (s : State) : (storePixel k w s).sp = s.sp := rfl
@[simp] theorem storePixel_faultByte (k : Nat) (w : Pixel) (s : State) : (storePixel k w s).faultByte = s.faultByte := rfl
@[simp] theorem storePixel_skipCount (k : Nat) (w : Pixel) (s : State) : (storePixel k w s).skipCount = s.skipCount := rfl
@[simp] theorem storePixel_frameCount (k : Nat) (w : Pixel) (s : State) : (storePixel k w s).frameCount = s.frameCount := rfl
@[simp] theorem storePixel_sumR (k : Nat) (w : Pixel) (s : State) : (storePixel k w s).sumR = s.sumR := rfl
@[simp] theorem storePixel_sumG (k : Nat) (w : Pixel) (s : State) : (storePixel k w s).sumG = s.sumG := rfl
@[simp] theorem storePixel_sumB (k : Nat) (w : Pixel) (s : State) : (storePixel k w s).sumB = s.sumB := rfl
@[simp] theorem storePixel_lutR (k : Nat) (w : Pixel) (s : State) : (storePixel k w s).lutR = s.lutR := rfl
@[simp] theorem storePixel_lutG (k : Nat) (w : Pixel) (s : State) : (storePixel k w s).lutG = s.lutG := rfl
@[simp] theorem storePixel_lutB (k : Nat) (w : Pixel) (s : State) : (storePixel k w s).lutB = s.lutB := rfl
@[simp] theorem storePixel_raw (k : Nat) (w : Pixel) (s : State) : (storePixel k w s).raw = s.raw := rfl
@[simp] theorem storePixel_fb (k : Nat) (w : Pixel) (s : State) : (storePixel k w s).fb = memWrite (memWrite s.fb (2 * k) (pixelHigh w)) (2 * k + 1) (pixelLow w) := rfl
@[simp] theorem storePixel_op (k : Nat) (w : Pixel) (s : State) : (storePixel k w s).op = s.op := rfl
@[simp] theorem storePixel_n (k : Nat) (w : Pixel) (s : State) : (storePixel k w s).n = s.n := rfl
@[simp] theorem storePixel_dflag (k : Nat) (w : Pixel) (s : State) : (storePixel k w s).dflag = s.dflag := rfl
@[simp] theorem storePixel_argi (k : Nat) (w : Pixel) (s : State) : (storePixel k w s).argi = s.argi := rfl
@[simp] theorem storePixel_off (k : Nat) (w : Pixel) (s : State) : (storePixel k w s).off = s.off := rfl
@[simp] theorem storePixel_att (k : Nat) (w : Pixel) (s : State) : (storePixel k w s).att = s.att := rfl
@[simp] theorem storePixel_spdCmd (k : Nat) (w : Pixel) (s : State) : (storePixel k w s).spdCmd = s.spdCmd := rfl
@[simp] theorem storePixel_spdData (k : Nat) (w : Pixel) (s : State) : (storePixel k w s).spdData = s.spdData := rfl
@[simp] theorem storePixel_pixk (k : Nat) (w : Pixel) (s : State) : (storePixel k w s).pixk = s.pixk := rfl
@[simp] theorem storePixel_csN (k : Nat) (w : Pixel) (s : State) : (storePixel k w s).csN = s.csN := rfl
@[simp] theorem storePixel_sclk (k : Nat) (w : Pixel) (s : State) : (storePixel k w s).sclk = s.sclk := rfl
@[simp] theorem storePixel_timer (k : Nat) (w : Pixel) (s : State) : (storePixel k w s).timer = s.timer := rfl
@[simp] theorem storePixel_trace (k : Nat) (w : Pixel) (s : State) : (storePixel k w s).trace = s.trace := rfl
@[simp] theorem storePixel_host (k : Nat) (w : Pixel) (s : State) : (storePixel k w s).host = s.host := rfl
@[simp] theorem storePixel_responses (k : Nat) (w : Pixel) (s : State) : (storePixel k w s).responses = s.responses := rfl
@[simp] theorem storePixel_answers (k : Nat) (w : Pixel) (s : State) : (storePixel k w s).answers = s.answers := rfl
@[simp] theorem storePixel_draws (k : Nat) (w : Pixel) (s : State) : (storePixel k w s).draws = s.draws := rfl
@[simp] theorem storePixel_resets (k : Nat) (w : Pixel) (s : State) : (storePixel k w s).resets = s.resets := rfl
@[simp] theorem storePixel_faults (k : Nat) (w : Pixel) (s : State) : (storePixel k w s).faults = s.faults := rfl

/-! ### startBlocks -/

@[simp] theorem startBlocks_cfg (s : State) : (startBlocks s).cfg = s.cfg := rfl
@[simp] theorem startBlocks_mode (s : State) : (startBlocks s).mode = s.mode := rfl
@[simp] theorem startBlocks_cmdErr (s : State) : (startBlocks s).cmdErr = s.cmdErr := rfl
@[simp] theorem startBlocks_done (s : State) : (startBlocks s).done = s.done := rfl
@[simp] theorem startBlocks_fatalCause (s : State) : (startBlocks s).fatalCause = s.fatalCause := rfl
@[simp] theorem startBlocks_lastOp (s : State) : (startBlocks s).lastOp = s.lastOp := rfl
@[simp] theorem startBlocks_gpioOe (s : State) : (startBlocks s).gpioOe = s.gpioOe := rfl
@[simp] theorem startBlocks_gpioOut (s : State) : (startBlocks s).gpioOut = s.gpioOut := rfl
@[simp] theorem startBlocks_speedHz (s : State) : (startBlocks s).speedHz = s.speedHz := rfl
@[simp] theorem startBlocks_dataSpeedHz (s : State) : (startBlocks s).dataSpeedHz = s.dataSpeedHz := rfl
@[simp] theorem startBlocks_scriptStart (s : State) : (startBlocks s).scriptStart = s.scriptStart := rfl
@[simp] theorem startBlocks_sp (s : State) : (startBlocks s).sp = s.sp := rfl
@[simp] theorem startBlocks_faultByte (s : State) : (startBlocks s).faultByte = s.faultByte := rfl
@[simp] theorem startBlocks_skipCount (s : State) : (startBlocks s).skipCount = s.skipCount := rfl
@[simp] theorem startBlocks_frameCount (s : State) : (startBlocks s).frameCount = s.frameCount := rfl
@[simp] theorem startBlocks_sumR (s : State) : (startBlocks s).sumR = s.sumR := rfl
@[simp] theorem startBlocks_sumG (s : State) : (startBlocks s).sumG = s.sumG := rfl
@[simp] theorem startBlocks_sumB (s : State) : (startBlocks s).sumB = s.sumB := rfl
@[simp] theorem startBlocks_lutR (s : State) : (startBlocks s).lutR = s.lutR := rfl
@[simp] theorem startBlocks_lutG (s : State) : (startBlocks s).lutG = s.lutG := rfl
@[simp] theorem startBlocks_lutB (s : State) : (startBlocks s).lutB = s.lutB := rfl
@[simp] theorem startBlocks_raw (s : State) : (startBlocks s).raw = s.raw := rfl
@[simp] theorem startBlocks_fb (s : State) : (startBlocks s).fb = s.fb := rfl
@[simp] theorem startBlocks_op (s : State) : (startBlocks s).op = s.op := rfl
@[simp] theorem startBlocks_n (s : State) : (startBlocks s).n = s.n := rfl
@[simp] theorem startBlocks_dflag (s : State) : (startBlocks s).dflag = s.dflag := rfl
@[simp] theorem startBlocks_argi (s : State) : (startBlocks s).argi = s.argi := rfl
@[simp] theorem startBlocks_off (s : State) : (startBlocks s).off = 0 := rfl
@[simp] theorem startBlocks_att (s : State) : (startBlocks s).att = s.att := rfl
@[simp] theorem startBlocks_spdCmd (s : State) : (startBlocks s).spdCmd = s.spdCmd := rfl
@[simp] theorem startBlocks_spdData (s : State) : (startBlocks s).spdData = s.spdData := rfl
@[simp] theorem startBlocks_pixk (s : State) : (startBlocks s).pixk = s.pixk := rfl
@[simp] theorem startBlocks_csN (s : State) : (startBlocks s).csN = s.csN := rfl
@[simp] theorem startBlocks_sclk (s : State) : (startBlocks s).sclk = s.sclk := rfl
@[simp] theorem startBlocks_timer (s : State) : (startBlocks s).timer = s.timer := rfl
@[simp] theorem startBlocks_trace (s : State) : (startBlocks s).trace = s.trace := rfl
@[simp] theorem startBlocks_host (s : State) : (startBlocks s).host = s.host := rfl
@[simp] theorem startBlocks_responses (s : State) : (startBlocks s).responses = s.responses := rfl
@[simp] theorem startBlocks_answers (s : State) : (startBlocks s).answers = s.answers := rfl
@[simp] theorem startBlocks_draws (s : State) : (startBlocks s).draws = s.draws := rfl
@[simp] theorem startBlocks_resets (s : State) : (startBlocks s).resets = s.resets := rfl
@[simp] theorem startBlocks_faults (s : State) : (startBlocks s).faults = s.faults := rfl

/-! ### endBlock -/

@[simp] theorem endBlock_cfg (ok : Bool) (len : Nat) (s : State) : (endBlock ok len s).cfg = s.cfg := rfl
@[simp] theorem endBlock_mode (ok : Bool) (len : Nat) (s : State) : (endBlock ok len s).mode = s.mode := rfl
@[simp] theorem endBlock_cmdErr (ok : Bool) (len : Nat) (s : State) : (endBlock ok len s).cmdErr = s.cmdErr := rfl
@[simp] theorem endBlock_done (ok : Bool) (len : Nat) (s : State) : (endBlock ok len s).done = s.done := rfl
@[simp] theorem endBlock_fatalCause (ok : Bool) (len : Nat) (s : State) : (endBlock ok len s).fatalCause = s.fatalCause := rfl
@[simp] theorem endBlock_lastOp (ok : Bool) (len : Nat) (s : State) : (endBlock ok len s).lastOp = s.lastOp := rfl
@[simp] theorem endBlock_gpioOe (ok : Bool) (len : Nat) (s : State) : (endBlock ok len s).gpioOe = s.gpioOe := rfl
@[simp] theorem endBlock_gpioOut (ok : Bool) (len : Nat) (s : State) : (endBlock ok len s).gpioOut = s.gpioOut := rfl
@[simp] theorem endBlock_speedHz (ok : Bool) (len : Nat) (s : State) : (endBlock ok len s).speedHz = s.speedHz := rfl
@[simp] theorem endBlock_dataSpeedHz (ok : Bool) (len : Nat) (s : State) : (endBlock ok len s).dataSpeedHz = s.dataSpeedHz := rfl
@[simp] theorem endBlock_scriptStart (ok : Bool) (len : Nat) (s : State) : (endBlock ok len s).scriptStart = s.scriptStart := rfl
@[simp] theorem endBlock_sp (ok : Bool) (len : Nat) (s : State) : (endBlock ok len s).sp = s.sp := rfl
@[simp] theorem endBlock_faultByte (ok : Bool) (len : Nat) (s : State) : (endBlock ok len s).faultByte = s.faultByte := rfl
@[simp] theorem endBlock_skipCount (ok : Bool) (len : Nat) (s : State) : (endBlock ok len s).skipCount = if ok then s.skipCount else s.skipCount + 1 := rfl
@[simp] theorem endBlock_frameCount (ok : Bool) (len : Nat) (s : State) : (endBlock ok len s).frameCount = s.frameCount := rfl
@[simp] theorem endBlock_sumR (ok : Bool) (len : Nat) (s : State) : (endBlock ok len s).sumR = s.sumR := rfl
@[simp] theorem endBlock_sumG (ok : Bool) (len : Nat) (s : State) : (endBlock ok len s).sumG = s.sumG := rfl
@[simp] theorem endBlock_sumB (ok : Bool) (len : Nat) (s : State) : (endBlock ok len s).sumB = s.sumB := rfl
@[simp] theorem endBlock_lutR (ok : Bool) (len : Nat) (s : State) : (endBlock ok len s).lutR = s.lutR := rfl
@[simp] theorem endBlock_lutG (ok : Bool) (len : Nat) (s : State) : (endBlock ok len s).lutG = s.lutG := rfl
@[simp] theorem endBlock_lutB (ok : Bool) (len : Nat) (s : State) : (endBlock ok len s).lutB = s.lutB := rfl
@[simp] theorem endBlock_raw (ok : Bool) (len : Nat) (s : State) : (endBlock ok len s).raw = s.raw := rfl
@[simp] theorem endBlock_fb (ok : Bool) (len : Nat) (s : State) : (endBlock ok len s).fb = s.fb := rfl
@[simp] theorem endBlock_op (ok : Bool) (len : Nat) (s : State) : (endBlock ok len s).op = s.op := rfl
@[simp] theorem endBlock_n (ok : Bool) (len : Nat) (s : State) : (endBlock ok len s).n = s.n := rfl
@[simp] theorem endBlock_dflag (ok : Bool) (len : Nat) (s : State) : (endBlock ok len s).dflag = s.dflag := rfl
@[simp] theorem endBlock_argi (ok : Bool) (len : Nat) (s : State) : (endBlock ok len s).argi = s.argi := rfl
@[simp] theorem endBlock_off (ok : Bool) (len : Nat) (s : State) : (endBlock ok len s).off = s.off + len := rfl
@[simp] theorem endBlock_att (ok : Bool) (len : Nat) (s : State) : (endBlock ok len s).att = s.att := rfl
@[simp] theorem endBlock_spdCmd (ok : Bool) (len : Nat) (s : State) : (endBlock ok len s).spdCmd = s.spdCmd := rfl
@[simp] theorem endBlock_spdData (ok : Bool) (len : Nat) (s : State) : (endBlock ok len s).spdData = s.spdData := rfl
@[simp] theorem endBlock_pixk (ok : Bool) (len : Nat) (s : State) : (endBlock ok len s).pixk = s.pixk := rfl
@[simp] theorem endBlock_csN (ok : Bool) (len : Nat) (s : State) : (endBlock ok len s).csN = s.csN := rfl
@[simp] theorem endBlock_sclk (ok : Bool) (len : Nat) (s : State) : (endBlock ok len s).sclk = s.sclk := rfl
@[simp] theorem endBlock_timer (ok : Bool) (len : Nat) (s : State) : (endBlock ok len s).timer = s.timer := rfl
@[simp] theorem endBlock_trace (ok : Bool) (len : Nat) (s : State) : (endBlock ok len s).trace = s.trace := rfl
@[simp] theorem endBlock_host (ok : Bool) (len : Nat) (s : State) : (endBlock ok len s).host = s.host := rfl
@[simp] theorem endBlock_responses (ok : Bool) (len : Nat) (s : State) : (endBlock ok len s).responses = s.responses := rfl
@[simp] theorem endBlock_answers (ok : Bool) (len : Nat) (s : State) : (endBlock ok len s).answers = s.answers := rfl
@[simp] theorem endBlock_draws (ok : Bool) (len : Nat) (s : State) : (endBlock ok len s).draws = s.draws := rfl
@[simp] theorem endBlock_resets (ok : Bool) (len : Nat) (s : State) : (endBlock ok len s).resets = s.resets := rfl
@[simp] theorem endBlock_faults (ok : Bool) (len : Nat) (s : State) : (endBlock ok len s).faults = s.faults := rfl

/-! ### countFrame -/

@[simp] theorem countFrame_cfg (s : State) : (countFrame s).cfg = s.cfg := rfl
@[simp] theorem countFrame_mode (s : State) : (countFrame s).mode = s.mode := rfl
@[simp] theorem countFrame_cmdErr (s : State) : (countFrame s).cmdErr = s.cmdErr := rfl
@[simp] theorem countFrame_done (s : State) : (countFrame s).done = s.done := rfl
@[simp] theorem countFrame_fatalCause (s : State) : (countFrame s).fatalCause = s.fatalCause := rfl
@[simp] theorem countFrame_lastOp (s : State) : (countFrame s).lastOp = s.lastOp := rfl
@[simp] theorem countFrame_gpioOe (s : State) : (countFrame s).gpioOe = s.gpioOe := rfl
@[simp] theorem countFrame_gpioOut (s : State) : (countFrame s).gpioOut = s.gpioOut := rfl
@[simp] theorem countFrame_speedHz (s : State) : (countFrame s).speedHz = s.speedHz := rfl
@[simp] theorem countFrame_dataSpeedHz (s : State) : (countFrame s).dataSpeedHz = s.dataSpeedHz := rfl
@[simp] theorem countFrame_scriptStart (s : State) : (countFrame s).scriptStart = s.scriptStart := rfl
@[simp] theorem countFrame_sp (s : State) : (countFrame s).sp = s.sp := rfl
@[simp] theorem countFrame_faultByte (s : State) : (countFrame s).faultByte = s.faultByte := rfl
@[simp] theorem countFrame_skipCount (s : State) : (countFrame s).skipCount = s.skipCount := rfl
@[simp] theorem countFrame_frameCount (s : State) : (countFrame s).frameCount = s.frameCount + 1 := rfl
@[simp] theorem countFrame_sumR (s : State) : (countFrame s).sumR = s.sumR := rfl
@[simp] theorem countFrame_sumG (s : State) : (countFrame s).sumG = s.sumG := rfl
@[simp] theorem countFrame_sumB (s : State) : (countFrame s).sumB = s.sumB := rfl
@[simp] theorem countFrame_lutR (s : State) : (countFrame s).lutR = s.lutR := rfl
@[simp] theorem countFrame_lutG (s : State) : (countFrame s).lutG = s.lutG := rfl
@[simp] theorem countFrame_lutB (s : State) : (countFrame s).lutB = s.lutB := rfl
@[simp] theorem countFrame_raw (s : State) : (countFrame s).raw = s.raw := rfl
@[simp] theorem countFrame_fb (s : State) : (countFrame s).fb = s.fb := rfl
@[simp] theorem countFrame_op (s : State) : (countFrame s).op = s.op := rfl
@[simp] theorem countFrame_n (s : State) : (countFrame s).n = s.n := rfl
@[simp] theorem countFrame_dflag (s : State) : (countFrame s).dflag = s.dflag := rfl
@[simp] theorem countFrame_argi (s : State) : (countFrame s).argi = s.argi := rfl
@[simp] theorem countFrame_off (s : State) : (countFrame s).off = s.off := rfl
@[simp] theorem countFrame_att (s : State) : (countFrame s).att = s.att := rfl
@[simp] theorem countFrame_spdCmd (s : State) : (countFrame s).spdCmd = s.spdCmd := rfl
@[simp] theorem countFrame_spdData (s : State) : (countFrame s).spdData = s.spdData := rfl
@[simp] theorem countFrame_pixk (s : State) : (countFrame s).pixk = s.pixk := rfl
@[simp] theorem countFrame_csN (s : State) : (countFrame s).csN = s.csN := rfl
@[simp] theorem countFrame_sclk (s : State) : (countFrame s).sclk = s.sclk := rfl
@[simp] theorem countFrame_timer (s : State) : (countFrame s).timer = s.timer := rfl
@[simp] theorem countFrame_trace (s : State) : (countFrame s).trace = s.trace := rfl
@[simp] theorem countFrame_host (s : State) : (countFrame s).host = s.host := rfl
@[simp] theorem countFrame_responses (s : State) : (countFrame s).responses = s.responses := rfl
@[simp] theorem countFrame_answers (s : State) : (countFrame s).answers = s.answers := rfl
@[simp] theorem countFrame_draws (s : State) : (countFrame s).draws = s.draws := rfl
@[simp] theorem countFrame_resets (s : State) : (countFrame s).resets = s.resets := rfl
@[simp] theorem countFrame_faults (s : State) : (countFrame s).faults = s.faults := rfl

/-! ### assertReset -/

@[simp] theorem assertReset_cfg (s : State) : (assertReset s).cfg = s.cfg := rfl
@[simp] theorem assertReset_mode (s : State) : (assertReset s).mode = .idle := rfl
@[simp] theorem assertReset_cmdErr (s : State) : (assertReset s).cmdErr = (State.resetWith s.cfg).cmdErr := rfl
@[simp] theorem assertReset_done (s : State) : (assertReset s).done = (State.resetWith s.cfg).done := rfl
@[simp] theorem assertReset_fatalCause (s : State) : (assertReset s).fatalCause = (State.resetWith s.cfg).fatalCause := rfl
@[simp] theorem assertReset_lastOp (s : State) : (assertReset s).lastOp = (State.resetWith s.cfg).lastOp := rfl
@[simp] theorem assertReset_gpioOe (s : State) : (assertReset s).gpioOe = (State.resetWith s.cfg).gpioOe := rfl
@[simp] theorem assertReset_gpioOut (s : State) : (assertReset s).gpioOut = (State.resetWith s.cfg).gpioOut := rfl
@[simp] theorem assertReset_speedHz (s : State) : (assertReset s).speedHz = (State.resetWith s.cfg).speedHz := rfl
@[simp] theorem assertReset_dataSpeedHz (s : State) : (assertReset s).dataSpeedHz = (State.resetWith s.cfg).dataSpeedHz := rfl
@[simp] theorem assertReset_scriptStart (s : State) : (assertReset s).scriptStart = (State.resetWith s.cfg).scriptStart := rfl
@[simp] theorem assertReset_sp (s : State) : (assertReset s).sp = (State.resetWith s.cfg).sp := rfl
@[simp] theorem assertReset_faultByte (s : State) : (assertReset s).faultByte = (State.resetWith s.cfg).faultByte := rfl
@[simp] theorem assertReset_skipCount (s : State) : (assertReset s).skipCount = (State.resetWith s.cfg).skipCount := rfl
@[simp] theorem assertReset_frameCount (s : State) : (assertReset s).frameCount = (State.resetWith s.cfg).frameCount := rfl
@[simp] theorem assertReset_sumR (s : State) : (assertReset s).sumR = (State.resetWith s.cfg).sumR := rfl
@[simp] theorem assertReset_sumG (s : State) : (assertReset s).sumG = (State.resetWith s.cfg).sumG := rfl
@[simp] theorem assertReset_sumB (s : State) : (assertReset s).sumB = (State.resetWith s.cfg).sumB := rfl
@[simp] theorem assertReset_lutR (s : State) : (assertReset s).lutR = (State.resetWith s.cfg).lutR := rfl
@[simp] theorem assertReset_lutG (s : State) : (assertReset s).lutG = (State.resetWith s.cfg).lutG := rfl
@[simp] theorem assertReset_lutB (s : State) : (assertReset s).lutB = (State.resetWith s.cfg).lutB := rfl
@[simp] theorem assertReset_raw (s : State) : (assertReset s).raw = (State.resetWith s.cfg).raw := rfl
@[simp] theorem assertReset_fb (s : State) : (assertReset s).fb = (State.resetWith s.cfg).fb := rfl
@[simp] theorem assertReset_op (s : State) : (assertReset s).op = (State.resetWith s.cfg).op := rfl
@[simp] theorem assertReset_n (s : State) : (assertReset s).n = (State.resetWith s.cfg).n := rfl
@[simp] theorem assertReset_dflag (s : State) : (assertReset s).dflag = (State.resetWith s.cfg).dflag := rfl
@[simp] theorem assertReset_argi (s : State) : (assertReset s).argi = (State.resetWith s.cfg).argi := rfl
@[simp] theorem assertReset_off (s : State) : (assertReset s).off = (State.resetWith s.cfg).off := rfl
@[simp] theorem assertReset_att (s : State) : (assertReset s).att = (State.resetWith s.cfg).att := rfl
@[simp] theorem assertReset_spdCmd (s : State) : (assertReset s).spdCmd = (State.resetWith s.cfg).spdCmd := rfl
@[simp] theorem assertReset_spdData (s : State) : (assertReset s).spdData = (State.resetWith s.cfg).spdData := rfl
@[simp] theorem assertReset_pixk (s : State) : (assertReset s).pixk = (State.resetWith s.cfg).pixk := rfl
@[simp] theorem assertReset_csN (s : State) : (assertReset s).csN = (State.resetWith s.cfg).csN := rfl
@[simp] theorem assertReset_sclk (s : State) : (assertReset s).sclk = (State.resetWith s.cfg).sclk := rfl
@[simp] theorem assertReset_timer (s : State) : (assertReset s).timer = (State.resetWith s.cfg).timer := rfl
@[simp] theorem assertReset_trace (s : State) : (assertReset s).trace = (State.resetWith s.cfg).trace := rfl
@[simp] theorem assertReset_host (s : State) : (assertReset s).host = s.host := rfl
@[simp] theorem assertReset_responses (s : State) : (assertReset s).responses = s.responses := rfl
@[simp] theorem assertReset_answers (s : State) : (assertReset s).answers = s.answers := rfl
@[simp] theorem assertReset_draws (s : State) : (assertReset s).draws = s.draws := rfl
@[simp] theorem assertReset_resets (s : State) : (assertReset s).resets = s.resets + 1 := rfl
@[simp] theorem assertReset_faults (s : State) : (assertReset s).faults = s.faults := rfl

end Sys2Proof.Machine
end

