-- ==== Sys2Proof/Laws/Flow.lean ====
section
/-! SUPPORT. What the parts of an operation can come to, said once for each shared operation and for any property of states:
`Ensures r P Q` says that where `r` goes on, P holds, and where the operation stops, Q. The rules a property must meet are
gathered in `LinkRules`, `SeqRules` and `ConvertRules`; an invariant or a frame is proved by showing those few rules. -/

namespace Sys2Proof.Machine

/-- What a flow comes to. -/
def Ensures {α : Type} (r : Flow α) (P : α → State → Prop) (Q : State → Prop) : Prop :=
  match r with
  | .go a s => P a s
  | .stop s => Q s

@[simp] theorem ensures_go {α : Type} (a : α) (s : State) (P : α → State → Prop) (Q : State → Prop) :
    Ensures (.go a s) P Q ↔ P a s := Iff.rfl

@[simp] theorem ensures_stop {α : Type} (s : State) (P : α → State → Prop) (Q : State → Prop) :
    Ensures (.stop s : Flow α) P Q ↔ Q s := Iff.rfl

@[simp] theorem bind_go {α β : Type} (a : α) (s : State) (f : α → State → Flow β) : (Flow.go a s).bind f = f a s := rfl

@[simp] theorem bind_stop {α β : Type} (s : State) (f : α → State → Flow β) : (Flow.stop s).bind f = .stop s := rfl

@[simp] theorem state_go {α : Type} (a : α) (s : State) : (Flow.go a s).state = s := rfl

@[simp] theorem state_stop {α : Type} (s : State) : (Flow.stop s : Flow α).state = s := rfl

theorem Ensures.bind {α β : Type} {r : Flow α} {f : α → State → Flow β} {P : α → State → Prop}
    {P' : β → State → Prop} {Q : State → Prop} (h : Ensures r P Q) (hf : ∀ a s, P a s → Ensures (f a s) P' Q) :
    Ensures (r.bind f) P' Q := by
  cases r with
  | go a s => exact hf a s h
  | stop s => exact h

theorem Ensures.mono {α : Type} {r : Flow α} {P P' : α → State → Prop} {Q Q' : State → Prop} (h : Ensures r P Q)
    (hP : ∀ a s, P a s → P' a s) (hQ : ∀ s, Q s → Q' s) : Ensures r P' Q' := by
  cases r with
  | go a s => exact hP a s h
  | stop s => exact hQ s h

theorem Ensures.state {α : Type} {r : Flow α} {P : α → State → Prop} {Q R : State → Prop} (h : Ensures r P Q)
    (hP : ∀ a s, P a s → R s) (hQ : ∀ s, Q s → R s) : R r.state := by
  cases r with
  | go a s => exact hP a s h
  | stop s => exact hQ s h

/-- The rules for the link: P holds between the sequencer's moves, M while an attempt is in progress, W during a wait, Q where
the operation has stopped. -/
structure LinkRules (P M W Q : State → Prop) : Prop where
  turn : ∀ s, P s → Ensures (hostTurn s) (fun _ => P) Q
  turnAttempt : ∀ s, M s → Ensures (hostTurn s) (fun _ => M) Q
  turnWait : ∀ s, W s → Ensures (hostTurn s) (fun _ => W) Q
  beginAttempt : ∀ k s, P s → M (beginAttempt k s)
  endAttempt : ∀ k dc speed bytes s, M s → P (endAttempt k dc speed bytes s)
  startWait : ∀ ms s, P s → W (startWait ms s)
  endWait : ∀ s, W s → P (endWait s)

section Link

variable {P M W Q : State → Prop}

theorem LinkRules.attempt (h : LinkRules P M W Q) (k : Nat) (bytes : List Byte) (speed : Word) {s : State} (hs : P s) :
    Ensures (attempt k bytes speed s) (fun _ => P) Q :=
  (h.turn s hs).bind fun _ s hs =>
    (h.turnAttempt _ (h.beginAttempt k s hs)).bind fun _ s hs => h.endAttempt _ _ _ _ s hs

theorem LinkRules.wait (h : LinkRules P M W Q) (ms : Nat) {s : State} (hs : P s) :
    Ensures (wait ms s) (fun _ => P) Q :=
  (h.turn s hs).bind fun _ s hs => (h.turnWait _ (h.startWait ms s hs)).bind fun _ s hs => h.endWait s hs

theorem LinkRules.xferLoop (h : LinkRules P M W Q) (bytes : List Byte) (speed : Word) (left : Nat) {s : State} (hs : P s) :
    Ensures (xferLoop bytes speed left s) (fun _ => P) Q := by
  induction left generalizing s with
  | zero => exact hs
  | succ left ih =>
    refine (h.attempt _ bytes speed hs).bind fun ok s hs => ?_
    split
    · exact hs
    · split
      · exact hs
      · exact (h.wait _ hs).bind fun _ s hs => ih hs

theorem LinkRules.xfer (h : LinkRules P M W Q) (bytes : List Byte) (speed : Word) {s : State} (hs : P s) :
    Ensures (xfer bytes speed s) (fun _ => P) Q :=
  h.xferLoop bytes speed _ hs

end Link

/-- The rules for the operations over the link: those of the link, the D/C line, fatal entry, and the sequencer's own
registers. A fatal error always has a cause (R97). -/
structure SeqRules (P M W Q : State → Prop) : Prop extends LinkRules P M W Q where
  pin : ∀ level s, P s → P (setDc level s)
  fatal : ∀ c s, c ≠ .none → P s → Q (raiseFatal c s)
  fatalByte : ∀ c b s, c ≠ .none → P s → Q (raiseFatalByte c b s)
  pointer : ∀ i s, P s → P (setPointer i s)
  header : ∀ k d s, P s → P (setHeader k d s)
  index : ∀ j s, P s → P (setArgIndex j s)

section Seq

variable {P M W Q : State → Prop}

theorem SeqRules.drivePin (h : SeqRules P M W Q) (level : Bool) {s : State} (hs : P s) :
    Ensures (drivePin level s) (fun _ => P) Q :=
  (h.turn s hs).bind fun _ s hs => h.pin level s hs

theorem SeqRules.sendByte (h : SeqRules P M W Q) {c : FatalCause} (hc : c ≠ .none) (b : Byte) {s : State} (hs : P s) :
    Ensures (sendByte c b s) (fun _ => P) Q := by
  refine (h.xfer _ _ hs).bind fun ok s hs => ?_
  split
  · exact hs
  · exact (h.turn s hs).bind fun _ s hs => h.fatalByte c b s hc hs

theorem SeqRules.fetch (h : SeqRules P M W Q) (i : Nat) {s : State} (hs : P s) :
    Ensures (fetch i s) (fun _ => P) Q := by
  refine (h.turn s hs).bind fun _ s hs => ?_
  have := h.pointer i s hs
  split
  · exact h.fatal _ _ (by decide) this
  · exact this

theorem SeqRules.sendOpcode (h : SeqRules P M W Q) (opc : Byte) {s : State} (hs : P s) :
    Ensures (sendOpcode opc s) (fun _ => P) Q :=
  (h.drivePin false hs).bind fun _ _ hs => h.sendByte (by decide) opc hs

theorem SeqRules.readMeta (h : SeqRules P M W Q) (i k : Nat) (d : Bool) {s : State} (hs : P s) :
    Ensures (readMeta i k d s) (fun _ => P) Q :=
  (h.fetch i hs).bind fun _ s hs => h.drivePin true (h.header _ d s hs)

theorem SeqRules.sendArgs (h : SeqRules P M W Q) (args : List Byte) (i j : Nat) {s : State} (hs : P s) :
    Ensures (sendArgs i j args s) (fun _ => P) Q := by
  induction args generalizing i j s with
  | nil => exact hs
  | cons a rest ih =>
    exact (h.fetch i (h.index j s hs)).bind fun _ _ hs => (h.sendByte (by decide) a hs).bind fun _ _ hs => ih _ _ hs

theorem SeqRules.commandBody (h : SeqRules P M W Q) (i : Nat) (opc : Byte) (args : List Byte) (d : Bool) {s : State}
    (hs : P s) : Ensures (commandBody i opc args d s) (fun _ => P) Q :=
  (h.sendOpcode opc hs).bind fun _ _ hs =>
    (h.readMeta _ _ d hs).bind fun _ _ hs => h.sendArgs args _ _ hs

theorem SeqRules.runCmd (h : SeqRules P M W Q) (opc : Byte) (args : List Byte) {s : State} (hs : P s) :
    Ensures (runCmd opc args s) (fun _ => P) Q :=
  (h.commandBody _ opc args _ hs).bind fun _ s hs => h.pointer _ s hs

theorem SeqRules.runCmdDly (h : SeqRules P M W Q) (opc : Byte) (args : List Byte) (dly : Byte) {s : State} (hs : P s) :
    Ensures (runCmdDly opc args dly s) (fun _ => P) Q :=
  (h.commandBody _ opc args _ hs).bind fun _ _ hs =>
    (h.fetch _ hs).bind fun _ _ hs => (h.wait _ hs).bind fun _ s hs => h.pointer _ s hs

theorem SeqRules.runOverrun (h : SeqRules P M W Q) (e : DecodeError) {s : State} (hs : P s) :
    Ensures (runOverrun e s) (fun _ => P) Q := by
  cases e with
  | noOpcode => exact (h.fetch _ hs).bind fun _ _ hs => hs
  | noMeta opc => exact (h.sendOpcode opc hs).bind fun _ _ hs => (h.fetch _ hs).bind fun _ _ hs => hs
  | shortArgs opc hdr avail =>
    exact (h.sendOpcode opc hs).bind fun _ _ hs =>
      (h.readMeta _ _ _ hs).bind fun _ _ hs =>
        (h.sendArgs avail _ _ hs).bind fun _ s hs => (h.fetch _ (h.index _ s hs)).bind fun _ _ hs => hs
  | noDelay opc args =>
    exact (h.commandBody _ opc args _ hs).bind fun _ _ hs => (h.fetch _ hs).bind fun _ _ hs => hs

theorem SeqRules.startScript (h : SeqRules P M W Q) {s : State} (hs : P s) :
    Ensures (startScript s) (fun _ => P) Q := by
  unfold Machine.startScript
  split
  · exact h.fatal _ s (by decide) hs
  · exact hs

/-- The end of an operation. -/
theorem LinkRules.finish (h : LinkRules P M W Q) (hend : ∀ s, P s → Q (endOperation s)) {s : State} (hs : P s) :
    Ensures (finish s) (fun _ => Q) Q :=
  (h.turn s hs).bind fun _ s hs => hend s hs

theorem SeqRules.beginRamWriteBody (h : SeqRules P M W Q) (hend : ∀ s, P s → Q (endOperation s)) {s : State} (hs : P s) :
    Ensures (beginRamWriteBody s) (fun _ => Q) Q := by
  unfold Machine.beginRamWriteBody
  split
  · exact h.fatal _ s (by decide) hs
  · exact (h.drivePin false hs).bind fun _ _ hs => (h.sendByte (by decide) _ hs).bind fun _ _ hs => h.finish hend hs

end Seq

/-- The rules SEND_FRAME asks for beyond those of the link. -/
structure FrameRules (P M W Q : State → Prop) : Prop extends SeqRules P M W Q where
  unwritten : ∀ s, P s → P (recordFault .uninitRead s)
  start : ∀ s, P s → P (startBlocks s)
  block : ∀ ok len s, P s → P (endBlock ok len s)
  count : ∀ s, P s → P (countFrame s)

section Frame

variable {P M W Q : State → Prop}

theorem FrameRules.readFbBytes (h : FrameRules P M W Q) (count a : Nat) {s : State} (hs : P s) :
    P (readFbBytes a count s).2 := by
  induction count generalizing a s with
  | zero => exact hs
  | succ k ih =>
    refine ih _ ?_
    unfold readFbByte seqRead checkWritten
    split
    · exact hs
    · exact h.unwritten s hs

theorem FrameRules.blockLoop (h : FrameRules P M W Q) (left : Nat) {s : State} (hs : P s) :
    Ensures (blockLoop left s) (fun _ => P) Q := by
  induction left generalizing s with
  | zero => exact hs
  | succ left ih =>
    exact (h.xfer _ _ (h.readFbBytes _ _ hs)).bind fun ok s hs =>
      (h.turn s hs).bind fun _ s hs => ih (h.block ok _ s hs)

theorem FrameRules.sendFrameBody (h : FrameRules P M W Q) (hend : ∀ s, P s → Q (endOperation s)) {s : State} (hs : P s) :
    Ensures (sendFrameBody s) (fun _ => Q) Q := by
  unfold Machine.sendFrameBody
  split
  · exact h.fatal _ s (by decide) hs
  · exact (h.drivePin true hs).bind fun _ s hs =>
      (h.blockLoop _ (h.start s hs)).bind fun _ s hs =>
        (h.turn s hs).bind fun _ s hs => h.finish hend (h.count s hs)

end Frame

/-- The rules CONVERT_FRAME asks for; P holds throughout, and the frame has at most `bound` pixels. -/
structure ConvertRules (bound : Nat) (P Q : State → Prop) : Prop where
  pixels : ∀ s, P s → s.cfg.pixels ≤ bound
  turn : ∀ s, P s → Ensures (hostTurn s) (fun _ => P) Q
  pixel : ∀ k s, P s → P (setPixelIndex k s)
  unwritten : ∀ s, P s → P (recordFault .uninitRead s)
  sums : ∀ x s, P s → P (storeSums x s)
  lut : ∀ x s, P s → P (buildLut x s)
  store : ∀ k w s, k < bound → P s → P (storePixel k w s)

section Convert

variable {bound : Nat} {P Q : State → Prop}

theorem ConvertRules.readRawByte (h : ConvertRules bound P Q) (a : Nat) {s : State} (hs : P s) : P (readRawByte a s).2 := by
  unfold Machine.readRawByte seqRead checkWritten
  split
  · exact hs
  · exact h.unwritten s hs

theorem ConvertRules.readPixel (h : ConvertRules bound P Q) (k : Nat) {s : State} (hs : P s) : P (readPixel k s).2 :=
  h.readRawByte _ (h.readRawByte _ (h.readRawByte _ hs))

theorem ConvertRules.statsLoop (h : ConvertRules bound P Q) (left k : Nat) (acc : Sums) {s : State} (hs : P s) :
    Ensures (statsLoop left k acc s) (fun _ => P) Q := by
  induction left generalizing k acc s with
  | zero => exact hs
  | succ left ih => exact (h.turn _ (h.pixel k s hs)).bind fun _ _ hs => ih _ _ (h.readPixel k hs)

theorem ConvertRules.packLoop (h : ConvertRules bound P Q) (left k : Nat) (hk : k + left ≤ bound) {s : State} (hs : P s) :
    Ensures (packLoop left k s) (fun _ => P) Q := by
  induction left generalizing k s with
  | zero => exact hs
  | succ left ih =>
    exact (h.turn _ (h.pixel k s hs)).bind fun _ _ hs =>
      ih _ (by omega) (h.store k _ _ (by omega) (h.readPixel k hs))

theorem ConvertRules.convertBody (h : ConvertRules bound P Q) (hend : ∀ s, P s → Q (endOperation s)) {s : State}
    (hs : P s) : Ensures (convertBody s) (fun _ => Q) Q := by
  refine (h.statsLoop _ _ _ hs).bind fun sums s hs => ?_
  have hs' := h.lut sums _ (h.sums sums s hs)
  refine (h.packLoop _ 0 ?_ hs').bind fun _ s hs => (h.turn s hs).bind fun _ s hs => hend s hs
  have := h.pixels s hs
  omega

end Convert

end Sys2Proof.Machine
end

