-- ==== Sys2Proof/Laws/Memory.lean ====
section
/-! SUPPORT. What the memory operations do: a read after a write, that every operation keeps the canonical form and the
bound on the addresses; and the lanes of a bus word. -/

namespace Sys2Proof.Machine

@[simp] theorem memRead_nil (a : Nat) : memRead [] a = none := rfl

@[simp] theorem memRead_memWrite_same (m : Memory) (a : Nat) (v : Byte) : memRead (memWrite m a v) a = some v := by
  induction m with
  | nil => simp [memWrite, memRead]
  | cons c rest ih =>
    obtain ⟨b, x⟩ := c
    unfold memWrite
    split
    · simp [memRead]
    · split
      · simp [memRead]
      · rename_i h; simp [memRead, h, ih]

theorem memRead_memWrite_ne (m : Memory) {a c : Nat} (v : Byte) (h : c ≠ a) :
    memRead (memWrite m a v) c = memRead m c := by
  induction m with
  | nil => simp [memWrite, memRead, h]
  | cons d rest ih =>
    obtain ⟨b, x⟩ := d
    unfold memWrite
    split
    · simp [memRead, h]
    · split
      · rename_i h2; subst h2; simp [memRead, h]
      · simp [memRead, ih]

/-- A read after a write, at any address. -/
theorem memRead_memWrite (m : Memory) (a c : Nat) (v : Byte) :
    memRead (memWrite m a v) c = if c = a then some v else memRead m c := by
  split
  · rename_i h; subst h; simp
  · rename_i h; exact memRead_memWrite_ne m v h

/-- A read after a write of several bytes, at any address. -/
theorem memRead_memWriteBytes (m : Memory) (a c : Nat) (bytes : List Byte) :
    memRead (memWriteBytes m a bytes) c =
      if a ≤ c ∧ c < a + bytes.length then bytes[c - a]? else memRead m c := by
  induction bytes generalizing m a with
  | nil => simp [memWriteBytes]
  | cons b bs ih =>
    rw [memWriteBytes, ih, memRead_memWrite]
    by_cases h1 : c = a
    · subst h1; simp
    · by_cases h2 : a + 1 ≤ c ∧ c < a + 1 + bs.length
      · have h3 : a ≤ c ∧ c < a + (b :: bs).length := by simp; omega
        have h4 : c - a = (c - (a + 1)) + 1 := by omega
        rw [if_pos h2, if_pos h3, h4, List.getElem?_cons_succ]
      · have h3 : ¬ (a ≤ c ∧ c < a + (b :: bs).length) := by simp; omega
        rw [if_neg h2, if_neg h3, if_neg h1]

/-- The canonical form, one entry at a time. -/
theorem wf_cons (a : Nat) (x : Byte) (rest : Memory) :
    Memory.wf ((a, x) :: rest) = true ↔ (∀ c ∈ rest, a < c.1) ∧ Memory.wf rest = true := by
  induction rest generalizing a x with
  | nil => simp [Memory.wf]
  | cons c rest ih =>
    obtain ⟨b, y⟩ := c
    simp only [Memory.wf, Bool.and_eq_true, decide_eq_true_eq, List.mem_cons]
    constructor
    · rintro ⟨h1, h2⟩
      refine ⟨?_, h2⟩
      rintro d (rfl | hd)
      · exact h1
      · exact Nat.lt_trans h1 (((ih b y).1 h2).1 d hd)
    · rintro ⟨h1, h2⟩
      exact ⟨h1 (b, y) (Or.inl rfl), h2⟩

/-- The addresses of a memory after a write: the written one and those before. -/
theorem mem_memWrite {m : Memory} {a : Nat} {v : Byte} {c : Host.Cell} (h : c ∈ memWrite m a v) :
    c.1 = a ∨ c ∈ m := by
  induction m with
  | nil => simp [memWrite] at h; simp [h]
  | cons d rest ih =>
    obtain ⟨b, x⟩ := d
    unfold memWrite at h
    split at h
    · simp only [List.mem_cons] at h ⊢; rcases h with rfl | h | h <;> simp_all
    · split at h
      · simp only [List.mem_cons] at h ⊢; rcases h with rfl | h <;> simp_all
      · simp only [List.mem_cons] at h ⊢
        rcases h with h | h
        · simp [h]
        · rcases ih h with h | h <;> simp [h]

theorem memWrite_wf {m : Memory} (a : Nat) (v : Byte) (h : Memory.wf m = true) :
    Memory.wf (memWrite m a v) = true := by
  induction m with
  | nil => rfl
  | cons d rest ih =>
    obtain ⟨b, x⟩ := d
    have h' := (wf_cons b x rest).1 h
    unfold memWrite
    split
    · rename_i hab
      refine (wf_cons _ _ _).2 ⟨?_, h⟩
      intro c hc
      rcases List.mem_cons.1 hc with rfl | hc
      · exact hab
      · exact Nat.lt_trans hab (h'.1 c hc)
    · split
      · rename_i hab; subst hab; exact (wf_cons _ _ _).2 h'
      · rename_i h1 h2
        refine (wf_cons _ _ _).2 ⟨?_, ih h'.2⟩
        intro c hc
        rcases mem_memWrite hc with hc | hc
        · omega
        · exact h'.1 c hc

theorem memWrite_below {m : Memory} {bound : Nat} (a : Nat) (v : Byte) (h : addressesBelow m bound) (ha : a < bound) :
    addressesBelow (memWrite m a v) bound := by
  intro c hc
  rcases mem_memWrite hc with hc | hc
  · omega
  · exact h c hc

theorem memWriteBytes_wf {m : Memory} (a : Nat) (bytes : List Byte) (h : Memory.wf m = true) :
    Memory.wf (memWriteBytes m a bytes) = true := by
  induction bytes generalizing m a with
  | nil => exact h
  | cons b bs ih => exact ih (a + 1) (memWrite_wf a b h)

theorem memWriteBytes_below {m : Memory} {bound : Nat} (a : Nat) (bytes : List Byte) (h : addressesBelow m bound)
    (ha : a + bytes.length ≤ bound) : addressesBelow (memWriteBytes m a bytes) bound := by
  induction bytes generalizing m a with
  | nil => exact h
  | cons b bs ih =>
    simp only [List.length_cons] at ha
    exact ih (a + 1) (memWrite_below a b h (by omega)) (by omega)

@[simp] theorem busBytes_length (v : Word) (count : Nat) : (busBytes v count).length = count := by simp [busBytes]

/-- Lane k of the word a read gives back is its byte k, and zero where it has none. -/
theorem busWord_lane (l : List Byte) {k : Nat} (hk : k < 4) (hl : l.length ≤ 4) :
    (busWord l).extractLsb' (8 * k) 8 = l.getD k 0 := by
  induction l generalizing k with
  | nil => simp [busWord]
  | cons b bs ih =>
    simp only [List.length_cons] at hl
    cases k with
    | zero =>
      ext j hj
      simp [busWord, hj, BitVec.getLsbD_eq_getElem]
      omega
    | succ k =>
      rw [List.getD_cons_succ, ← ih (by omega) (by omega)]
      ext j hj
      simp [busWord, show ¬ 8 * (k + 1) + j < 8 by omega, show 8 * (k + 1) + j < 32 by omega,
        show 8 * (k + 1) + j - 8 = 8 * k + j by omega, BitVec.getLsbD_eq_getElem (show 8 * k + j < 32 by omega),
        BitVec.getLsbD_of_ge b (8 * (k + 1) + j) (by omega)]

end Sys2Proof.Machine
end

