-- ==== Sys2Proof/Laws/Host.lean ====
section
/-! SUPPORT. What a host access can change, said once, and what the host's turn can come to. -/

namespace Sys2Proof.Machine

@[simp] theorem peekBytes_length (free : Nat → Byte) (m : Memory) (a count : Nat) :
    (peekBytes free m a count).length = count := by
  simp [peekBytes]

/-- A byte that is written reads as it stands. -/
theorem peek_written {free : Nat → Byte} {m : Memory} {a : Nat} (h : memRead m a ≠ none) : peek free m a = byteAt m a := by
  obtain ⟨x, hx⟩ := Option.ne_none_iff_exists'.1 h
  simp [peek, byteAt, hx]

/-- Everything a host access can be: a bus error, a hazard, a register write, a read that answers, a write inside RAW, or
nothing. -/
theorem hostAccess_cases (a : Access) (s : State) :
    hostAccess a s = recordFault .busErr (respond .busError s) ∨ hostAccess a s = recordFault .hazard s ∨
      (∃ r v, hostAccess a s = writeReg r v s) ∨ (∃ r, hostAccess a s = respond r s) ∨
      (∃ off bytes, off + bytes.length ≤ s.cfg.rawBytes ∧
        hostAccess a s = { s with raw := memWriteBytes s.raw off bytes }) ∨
      hostAccess a s = s := by
  unfold hostAccess
  split
  · exact .inl rfl
  · rename_i hallow
    split
    · exact .inr (.inl rfl)
    · refine .inr (.inr ?_)
      unfold performAccess
      split
      · exact .inr (.inl ⟨_, rfl⟩)
      · exact .inl ⟨_, _, rfl⟩
      · exact .inr (.inl ⟨_, rfl⟩)
      · rename_i off addr w data _ hreg
        refine .inr (.inr (.inl ⟨off, busBytes data (widthBytes w), ?_, rfl⟩))
        simp only [accessAddr] at hreg
        simp only [accessAllowed, accessAddr, accessWidth, hreg, Bool.not_eq_true', Bool.not_eq_false,
          Bool.and_eq_true] at hallow
        rw [busBytes_length]
        exact of_decide_eq_true hallow.2
      · exact .inr (.inl ⟨_, rfl⟩)
      · exact .inr (.inl ⟨_, rfl⟩)
      · exact .inr (.inr (.inr rfl))

/-- Everything a host access can change: the rest of the state stays. -/
theorem hostAccess_form (a : Access) (s : State) :
    ∃ cmdErr done gpioOe gpioOut speedHz dataSpeedHz scriptStart skipCount frameCount raw trace responses faults,
      hostAccess a s =
        { s with
          cmdErr := cmdErr, done := done, gpioOe := gpioOe, gpioOut := gpioOut, speedHz := speedHz
          dataSpeedHz := dataSpeedHz, scriptStart := scriptStart, skipCount := skipCount, frameCount := frameCount
          raw := raw, trace := trace, responses := responses, faults := faults } := by
  rcases hostAccess_cases a s with h | h | ⟨r, v, h⟩ | ⟨r, h⟩ | ⟨off, bytes, _, h⟩ | h
  · rw [h]; exact ⟨_, _, _, _, _, _, _, _, _, _, _, _, _, rfl⟩
  · rw [h]; exact ⟨_, _, _, _, _, _, _, _, _, _, _, _, _, rfl⟩
  · rw [h]; cases r <;> exact ⟨_, _, _, _, _, _, _, _, _, _, _, _, _, rfl⟩
  · rw [h]; exact ⟨_, _, _, _, _, _, _, _, _, _, _, _, _, rfl⟩
  · rw [h]; exact ⟨_, _, _, _, _, _, _, _, _, _, _, _, _, rfl⟩
  · rw [h]; exact ⟨_, _, _, _, _, _, _, _, _, _, _, _, _, rfl⟩

section Fields

variable (a : Access) (s : State)

@[simp] theorem hostAccess_cfg : (hostAccess a s).cfg = s.cfg := by
  obtain ⟨_, _, _, _, _, _, _, _, _, _, _, _, _, h⟩ := hostAccess_form a s; rw [h]
@[simp] theorem hostAccess_mode : (hostAccess a s).mode = s.mode := by
  obtain ⟨_, _, _, _, _, _, _, _, _, _, _, _, _, h⟩ := hostAccess_form a s; rw [h]
@[simp] theorem hostAccess_fatalCause : (hostAccess a s).fatalCause = s.fatalCause := by
  obtain ⟨_, _, _, _, _, _, _, _, _, _, _, _, _, h⟩ := hostAccess_form a s; rw [h]
@[simp] theorem hostAccess_lastOp : (hostAccess a s).lastOp = s.lastOp := by
  obtain ⟨_, _, _, _, _, _, _, _, _, _, _, _, _, h⟩ := hostAccess_form a s; rw [h]
@[simp] theorem hostAccess_sp : (hostAccess a s).sp = s.sp := by
  obtain ⟨_, _, _, _, _, _, _, _, _, _, _, _, _, h⟩ := hostAccess_form a s; rw [h]
@[simp] theorem hostAccess_faultByte : (hostAccess a s).faultByte = s.faultByte := by
  obtain ⟨_, _, _, _, _, _, _, _, _, _, _, _, _, h⟩ := hostAccess_form a s; rw [h]
@[simp] theorem hostAccess_fb : (hostAccess a s).fb = s.fb := by
  obtain ⟨_, _, _, _, _, _, _, _, _, _, _, _, _, h⟩ := hostAccess_form a s; rw [h]
@[simp] theorem hostAccess_op : (hostAccess a s).op = s.op := by
  obtain ⟨_, _, _, _, _, _, _, _, _, _, _, _, _, h⟩ := hostAccess_form a s; rw [h]
@[simp] theorem hostAccess_csN : (hostAccess a s).csN = s.csN := by
  obtain ⟨_, _, _, _, _, _, _, _, _, _, _, _, _, h⟩ := hostAccess_form a s; rw [h]
@[simp] theorem hostAccess_sclk : (hostAccess a s).sclk = s.sclk := by
  obtain ⟨_, _, _, _, _, _, _, _, _, _, _, _, _, h⟩ := hostAccess_form a s; rw [h]
@[simp] theorem hostAccess_timer : (hostAccess a s).timer = s.timer := by
  obtain ⟨_, _, _, _, _, _, _, _, _, _, _, _, _, h⟩ := hostAccess_form a s; rw [h]
@[simp] theorem hostAccess_host : (hostAccess a s).host = s.host := by
  obtain ⟨_, _, _, _, _, _, _, _, _, _, _, _, _, h⟩ := hostAccess_form a s; rw [h]
@[simp] theorem hostAccess_answers : (hostAccess a s).answers = s.answers := by
  obtain ⟨_, _, _, _, _, _, _, _, _, _, _, _, _, h⟩ := hostAccess_form a s; rw [h]
@[simp] theorem hostAccess_draws : (hostAccess a s).draws = s.draws := by
  obtain ⟨_, _, _, _, _, _, _, _, _, _, _, _, _, h⟩ := hostAccess_form a s; rw [h]
@[simp] theorem hostAccess_resets : (hostAccess a s).resets = s.resets := by
  obtain ⟨_, _, _, _, _, _, _, _, _, _, _, _, _, h⟩ := hostAccess_form a s; rw [h]

end Fields

/-- The two effects of an access on RAW: none, or a write inside the window. -/
theorem hostAccess_raw (a : Access) (s : State) :
    (hostAccess a s).raw = s.raw ∨
      ∃ off bytes, off + bytes.length ≤ s.cfg.rawBytes ∧ (hostAccess a s).raw = memWriteBytes s.raw off bytes := by
  rcases hostAccess_cases a s with h | h | ⟨r, v, h⟩ | ⟨r, h⟩ | ⟨off, bytes, hb, h⟩ | h
  · rw [h]; exact .inl rfl
  · rw [h]; exact .inl rfl
  · rw [h]; cases r <;> exact .inl rfl
  · rw [h]; exact .inl rfl
  · rw [h]; exact .inr ⟨off, bytes, hb, rfl⟩
  · rw [h]; exact .inl rfl

/-- An access can clear DONE, never set it. -/
theorem hostAccess_done {a : Access} {s : State} (hs : s.done = false) : (hostAccess a s).done = false := by
  rcases hostAccess_cases a s with h | h | ⟨r, v, h⟩ | ⟨r, h⟩ | ⟨off, bytes, _, h⟩ | h
  · rw [h]; exact hs
  · rw [h]; exact hs
  · rw [h]; cases r <;> first | exact hs | simp [writeReg, writeStatus, hs]
  · rw [h]; exact hs
  · rw [h]; exact hs
  · rw [h]; exact hs

theorem mem_recordFault {f g : Fault} {s : State} (h : f ∈ s.faults) : f ∈ (recordFault g s).faults := by
  simp only [recordFault_faults]
  split
  · exact h
  · exact List.mem_append_left _ h

theorem mem_recordFault_self (f : Fault) (s : State) : f ∈ (recordFault f s).faults := by
  simp only [recordFault_faults]
  split
  · assumption
  · simp

/-- No access clears a recorded model fault. -/
theorem mem_hostAccess_faults {f : Fault} {a : Access} {s : State} (hf : f ∈ s.faults) :
    f ∈ (hostAccess a s).faults := by
  rcases hostAccess_cases a s with h | h | ⟨r, v, h⟩ | ⟨r, h⟩ | ⟨off, bytes, _, h⟩ | h
  · rw [h]; exact mem_recordFault hf
  · rw [h]; exact mem_recordFault hf
  · rw [h]; cases r <;> exact hf
  · rw [h]; exact hf
  · rw [h]; exact hf
  · rw [h]; exact hf

/-- An access that is a hazard records the model fault and does nothing else. -/
theorem hostAccess_hazard {a : Access} {s : State} (h1 : accessAllowed s.cfg a = true) (h2 : isHazard a s = true) :
    hostAccess a s = recordFault .hazard s := by
  simp [hostAccess, h1, h2]

/-! ### The host's program is data apart -/

/-- An access neither reads nor changes what the host has left to do. -/
theorem hostAccess_setHost (l : List HostEvent) (a : Access) (s : State) :
    hostAccess a (setHost l s) = setHost l (hostAccess a s) := by
  have hz : isHazard a (setHost l s) = isHazard a s := rfl
  unfold hostAccess
  rw [hz, setHost_cfg]
  split
  · rfl
  · split
    · rfl
    · unfold performAccess
      rw [setHost_cfg]
      split
      · rfl
      · unfold writeReg; split <;> rfl
      · rfl
      · rfl
      · rfl
      · rfl
      · rfl

/-! ### The host's turn -/

theorem setHost_self {s : State} {h : List HostEvent} (hs : s.host = h) : setHost h s = s := by
  subst hs; rfl

/-- With no act of the host to come, its turn changes nothing. -/
theorem hostTurn_nil {s : State} (h : s.host = []) : hostTurn s = .go () s := by
  unfold hostTurn
  rw [h]
  exact congrArg (Flow.go ()) (setHost_self h)

/-- The host's turn depends on the list it serves, not on the state's copy of it. -/
theorem serveHost_setHost (l r : List HostEvent) (s : State) : serveHost (setHost r s) l = serveHost s l := by
  induction l generalizing s with
  | nil => rfl
  | cons e l ih =>
    cases e with
    | pass => rfl
    | poll => rfl
    | reset => rfl
    | access a =>
      have hz : isHazard a (setHost r s) = isHazard a s := rfl
      simp only [serveHost, hz, setHost_cfg]
      split
      · simp only [hostAccess_setHost]; rfl
      · rw [hostAccess_setHost, ih]

theorem serveHost_quiet (l : List HostEvent) (s : State) (h : l.all quietEvent = true) :
    ∃ r, r.all quietEvent = true ∧ serveHost s l = .go () (setHost r s) := by
  cases l with
  | nil => exact ⟨[], rfl, rfl⟩
  | cons e rest =>
    simp only [List.all_cons, Bool.and_eq_true] at h
    cases e with
    | access a => simp [quietEvent] at h
    | reset => simp [quietEvent] at h
    | pass => exact ⟨rest, h.2, rfl⟩
    | poll => exact ⟨.poll :: rest, by simp [quietEvent, h.2], rfl⟩

/-- A quiet host's turn changes nothing but what the host has left to do, and the host stays quiet. -/
theorem hostTurn_quiet {s : State} (h : Quiet s) :
    ∃ r, r.all quietEvent = true ∧ hostTurn s = .go () (setHost r s) :=
  serveHost_quiet s.host s h

/-- What the host's turn can come to, for a property that its accesses keep. -/
theorem hostTurn_ensures {P Q : State → Prop}
    (access : ∀ a s, P s → (accessAllowed s.cfg a && isHazard a s) = false → P (hostAccess a s))
    (rest : ∀ l s, P s → P (setHost l s))
    (reset : ∀ s, P s → Q (assertReset s))
    (hazard : ∀ a s, P s → accessAllowed s.cfg a = true → isHazard a s = true → Q (recordFault .hazard s))
    {s : State} (hs : P s) : Ensures (hostTurn s) (fun _ => P) Q := by
  unfold hostTurn
  generalize s.host = l
  induction l generalizing s with
  | nil => exact rest [] s hs
  | cons e l ih =>
    cases e with
    | pass => exact rest l s hs
    | poll => exact rest (.poll :: l) s hs
    | reset => exact reset _ (rest l s hs)
    | access a =>
      simp only [serveHost]
      split
      · rename_i h
        simp only [Bool.and_eq_true] at h
        have h' : isHazard a (setHost l s) = true := h.2
        rw [hostAccess_hazard (s := setHost l s) h.1 h']
        exact hazard a _ (rest l s hs) h.1 h'
      · rename_i h
        exact ih (access a s hs (by simpa using h))

end Sys2Proof.Machine
end

