-- ==== Sys2Proof/Laws/PerInstr.lean ====
section
/-! SUPPORT. A fact said of each instruction: the length of its entry in a script (R52, R55). A host operation is a word, and
has no bytes in a script. -/

namespace Sys2Proof

/-- The length of an instruction's script entry by R52: 1, 2 + N or 3 + N; 0 for a host operation. -/
def entryLength : Instr → Nat
  | .term => 1
  | .cmd _ args => 2 + args.length
  | .cmdDly _ args _ => 3 + args.length
  | .runScript => 0
  | .convertFrame => 0
  | .beginRamWrite => 0
  | .sendFrame => 0
  | .hostopReserved _ => 0

namespace Laws.EntryLength

/-- The encoder writes as many bytes as R52 says, at most 130 of them for a well-formed instruction (R55). -/
def Statement (i : Instr) : Prop := (entryBytes i).length = entryLength i ∧ (i.wf = true → entryLength i ≤ 130)

theorem term : Statement .term := ⟨rfl, fun _ => by simp [entryLength]⟩

theorem cmd (opc : Byte) (args : List Byte) : Statement (.cmd opc args) := by
  refine ⟨by simp [entryBytes, encode, entryLength]; omega, fun h => ?_⟩
  simp only [Instr.wf, argsWf, Bool.and_eq_true, decide_eq_true_eq] at h
  simp only [entryLength]; omega

theorem cmdDly (opc : Byte) (args : List Byte) (dly : Byte) : Statement (.cmdDly opc args dly) := by
  refine ⟨by simp [entryBytes, encode, entryLength]; omega, fun h => ?_⟩
  simp only [Instr.wf, argsWf, Bool.and_eq_true, decide_eq_true_eq] at h
  simp only [entryLength]; omega

theorem runScript : Statement .runScript := ⟨rfl, fun _ => by simp [entryLength]⟩

theorem convertFrame : Statement .convertFrame := ⟨rfl, fun _ => by simp [entryLength]⟩

theorem beginRamWrite : Statement .beginRamWrite := ⟨rfl, fun _ => by simp [entryLength]⟩

theorem sendFrame : Statement .sendFrame := ⟨rfl, fun _ => by simp [entryLength]⟩

theorem hostopReserved (op : BitVec 4) : Statement (.hostopReserved op) := ⟨rfl, fun _ => by simp [entryLength]⟩

end Laws.EntryLength

end Sys2Proof
end

