-- ==== Sys2Proof/Laws/Registers.lean ====
section
/-! SUPPORT. The register aperture: which register an offset names, and what an aligned 32-bit access there does. -/

namespace Sys2Proof.Machine

theorem regAt_lut (i : Fin 256) : regAt (0x400 + 4 * i.val) = .lut i := by
  have hi := i.isLt
  unfold regAt
  iterate 16 rw [if_neg (by omega)]
  rw [if_pos (by omega)]
  refine congrArg Reg.lut (Fin.ext ?_)
  simp only [Fin.ofNat]
  omega

theorem regAt_reserved {off : Nat} (h : 0x040 ≤ off ∧ off < 0x400 ∨ 0x800 ≤ off) : regAt off = .reserved := by
  unfold regAt
  iterate 17 rw [if_neg (by omega)]

/-- The registers above the counters ignore every write: DIMS, the sums, the LUT and the reserved offsets. -/
theorem writeReg_upper {off : Nat} (h : 0x030 ≤ off) (v : Word) (s : State) : writeReg (regAt off) v s = s := by
  unfold regAt
  iterate 12 rw [if_neg (by omega)]
  repeat (split; · rfl)
  rfl

theorem regAt_gpioOe {off : Nat} (h : regAt off = .gpioOe) : off = 0x008 := by
  by_contra hne
  by_cases hlow : off < 0x030
  · have hoff : ∀ k, k < 0x030 → k ≠ 0x008 → regAt k ≠ .gpioOe := by decide +kernel
    exact hoff off hlow hne h
  · unfold regAt at h
    rw [if_neg (by omega), if_neg (by omega), if_neg hne] at h
    iterate 9 rw [if_neg (by omega)] at h
    repeat (split at h; · cases h)
    cases h

theorem regionOf_aperture (p : Params) {off : Nat} (h : off < 0x1000) :
    regionOf p (BitVec.ofNat 24 off) = .aperture off := by
  have hn : (BitVec.ofNat 24 off).toNat = off := by rw [BitVec.toNat_ofNat]; omega
  simp only [regionOf, hn, h, if_true]

theorem accessAllowed_aperture (p : Params) {off : Nat} (h : off < 0x1000) (h4 : off % 4 = 0) {a : Access}
    (ha : accessAddr a = BitVec.ofNat 24 off) (hw : accessWidth a = .w32) : accessAllowed p a = true := by
  have hn : (BitVec.ofNat 24 off).toNat = off := by rw [BitVec.toNat_ofNat]; omega
  simp only [accessAllowed, ha, hw, regionOf_aperture p h, aligned, hn, widthBytes, h4]
  rfl

/-- A 32-bit write to a register. -/
theorem hostAccess_writeReg {off : Nat} (h : off < 0x1000) (h4 : off % 4 = 0) (v : Word) (s : State)
    (hz : isHazard (.write (BitVec.ofNat 24 off) .w32 v) s = false) :
    hostAccess (.write (BitVec.ofNat 24 off) .w32 v) s = writeReg (regAt off) v s := by
  unfold hostAccess
  rw [accessAllowed_aperture s.cfg h h4 rfl rfl, hz]
  simp only [Bool.not_true, Bool.false_eq_true, if_false, performAccess, accessAddr, regionOf_aperture s.cfg h]

/-- A 32-bit read of a register. -/
theorem hostAccess_readReg {off : Nat} (h : off < 0x1000) (h4 : off % 4 = 0) (s : State)
    (hz : isHazard (.read (BitVec.ofNat 24 off) .w32) s = false) :
    hostAccess (.read (BitVec.ofNat 24 off) .w32) s = respond (.data (readReg (regAt off) s)) s := by
  unfold hostAccess
  rw [accessAllowed_aperture s.cfg h h4 rfl rfl, hz]
  simp only [Bool.not_true, Bool.false_eq_true, if_false, performAccess, accessAddr, regionOf_aperture s.cfg h]

/-- A register write other than one of GPIO_OE is never a hazard. -/
theorem isHazard_writeReg {off : Nat} (h : off < 0x1000) (hne : off ≠ 0x008) (v : Word) (s : State) :
    isHazard (.write (BitVec.ofNat 24 off) .w32 v) s = false := by
  have hr : decide (regAt off = .gpioOe) = false := decide_eq_false fun hc => hne (regAt_gpioOe hc)
  simp only [isHazard, accessAddr, regionOf_aperture s.cfg h, hr, Bool.and_false, Bool.false_and]

/-- A register read is no hazard unless CONVERT_FRAME runs. -/
theorem isHazard_readReg {off : Nat} (h : off < 0x1000) (s : State) (hs : ¬ (s.mode = .run ∧ s.op = .convertFrame)) :
    isHazard (.read (BitVec.ofNat 24 off) .w32) s = false := by
  simp only [isHazard, accessAddr, regionOf_aperture s.cfg h, busy]
  by_cases hm : s.mode = .run <;> by_cases hop : s.op = .convertFrame <;> simp_all

/-- A read of a register other than the sums and the LUT is never a hazard. -/
theorem isHazard_readReg_other {off : Nat} (h : off < 0x1000) (s : State) (hr : regAt off ≠ .sumR) (hg : regAt off ≠ .sumG)
    (hb : regAt off ≠ .sumB) (hl : ∀ i, regAt off ≠ .lut i) : isHazard (.read (BitVec.ofNat 24 off) .w32) s = false := by
  simp only [isHazard, accessAddr, regionOf_aperture s.cfg h]
  cases he : regAt off <;> simp_all

end Sys2Proof.Machine
end

