-- ==== Sys2Proof/Laws/Transport.lean ====
section
/-! SUPPORT. What the sequencer's primitives do while the host makes no access: each as one equation. -/

namespace Sys2Proof.Machine

/-- The link's answers are read off the answers left and the draw number alone. -/
theorem answerAt_congr {s t : State} (h1 : t.answers = s.answers) (h2 : t.draws = s.draws) (j : Nat) :
    answerAt t j = answerAt s j := by
  simp [answerAt, h1, h2]

/-- After a draw the next answer is the one after it. -/
theorem answerAt_takeAnswer (s : State) (j : Nat) : answerAt (takeAnswer s) j = answerAt s (j + 1) := by
  simp [answerAt, Nat.add_comm 1 j, Nat.add_assoc]

theorem answerAt_endAttempt (k : Nat) (dc : PinLevel) (speed : Word) (bytes : List Byte) (s : State) (j : Nat) :
    answerAt (endAttempt k dc speed bytes s) j = answerAt s (j + 1) :=
  answerAt_takeAnswer s j

/-- The answers given beforehand are the link's. -/
theorem LinkGives.of_answers {s : State} {l : List Bool} (h : l <+: s.answers) : LinkGives s l := fun j ok hj => by
  obtain ⟨m, hm⟩ := h
  simp [answerAt, ← hm, List.getElem?_append_left (List.getElem?_eq_some_iff.1 hj).1, hj]

/-- The answers the link gives are read off the answers left and the draw number alone. -/
theorem LinkGives.congr {s t : State} {l : List Bool} (h : LinkGives s l) (h1 : t.answers = s.answers)
    (h2 : t.draws = s.draws) : LinkGives t l :=
  fun j ok hj => (answerAt_congr h1 h2 j).trans (h j ok hj)

/-- The first of the answers given. -/
theorem LinkGives.left {s : State} {l m : List Bool} (h : LinkGives s (l ++ m)) : LinkGives s l :=
  fun j ok hj => h j ok (by rw [List.getElem?_append_left (List.getElem?_eq_some_iff.1 hj).1]; exact hj)

/-- Once the first of them have been taken, the answers given are the rest. -/
theorem LinkGives.right {s t : State} {l m : List Bool} (h : LinkGives s (l ++ m))
    (h1 : t.answers = s.answers.drop l.length) (h2 : t.draws = s.draws + l.length) : LinkGives t m := fun j ok hj => by
  have := h (l.length + j) ok (by rw [List.getElem?_append_right (by omega)]; simpa using hj)
  simpa [answerAt, h1, h2, Nat.add_assoc] using this

@[simp] theorem retriedAnswers_length (k : Nat) : (retriedAnswers k).length = k + 1 := by simp [retriedAnswers]

@[simp] theorem answerAt_beginAttempt (k : Nat) (s : State) (j : Nat) : answerAt (beginAttempt k s) j = answerAt s j := rfl

@[simp] theorem answerAt_setDc (v : Bool) (s : State) (j : Nat) : answerAt (setDc v s) j = answerAt s j := rfl

theorem drivePin_nil (v : Bool) {s : State} (h : s.host = []) : drivePin v s = .go () (setDc v s) := by
  simp [drivePin, hostTurn_nil h]

theorem attempt_nil (k : Nat) (bytes : List Byte) (speed : Word) {s : State} (h : s.host = []) :
    attempt k bytes speed s =
      .go (answerAt s 0) (endAttempt k (pinLevel .dc s) speed bytes (beginAttempt k s)) := by
  simp [attempt, hostTurn_nil h, hostTurn_nil (show (beginAttempt k s).host = [] from h)]

theorem wait_nil (ms : Nat) {s : State} (h : s.host = []) :
    wait ms s = .go () (endWait (startWait ms s)) := by
  simp [wait, hostTurn_nil h,
    hostTurn_nil (show (startWait ms s).host = [] from h)]

theorem fetch_nil (i : Nat) {s : State} (h : s.host = []) :
    fetch i s =
      if s.cfg.romBytes ≤ i then .stop (raiseFatal .scriptOverrun (setPointer i s))
      else .go (scriptByte s.cfg i) (setPointer i s) := by
  simp [fetch, hostTurn_nil h]

theorem finish_nil {s : State} (h : s.host = []) : finish s = .go () (endOperation s) := by
  simp [finish, hostTurn_nil h]

/-- A byte that is written reads as it stands, and nothing else happens. -/
theorem seqRead_written {free : Nat → Byte} {m : Memory} {a : Nat} {s : State} (h : memRead m a ≠ none) :
    seqRead free m a s = (byteAt m a, s) := by
  obtain ⟨x, hx⟩ := Option.ne_none_iff_exists'.1 h
  simp [seqRead, peek, checkWritten, byteAt, hx]

/-- A byte that nothing wrote reads as its free value, and UNINIT_READ is recorded. -/
theorem seqRead_unwritten {free : Nat → Byte} {m : Memory} {a : Nat} {s : State} (h : memRead m a = none) :
    seqRead free m a s = (free a, recordFault .uninitRead s) := by
  simp [seqRead, peek, checkWritten, h]

/-- A pixel whose three bytes are written reads as its samples, in either channel order, and nothing else happens. -/
theorem readPixel_written {k : Nat} {s : State} (h0 : memRead s.raw (3 * k) ≠ none) (h1 : memRead s.raw (3 * k + 1) ≠ none)
    (h2 : memRead s.raw (3 * k + 2) ≠ none) : readPixel k s = (samples s k, s) := by
  cases h : s.cfg.inOrder <;>
    simp [readPixel, readRawByte, samples, redOffset, greenOffset, blueOffset, h, seqRead_written h0, seqRead_written h1,
      seqRead_written h2]

end Sys2Proof.Machine
end

