-- ==== Sys2Proof/Tests/Slice0.lean ====
section
/-! SUPPORT. The model's own tests: small fixed cases, their expected results from the vectors of spec/95_test_vectors.md or
worked out by hand from the rules. -/

namespace Sys2Proof.Tests

open Sys2Proof.Machine

-- One theorem after the other: elaborated side by side they start more threads than a bounded memory has stacks for.
set_option Elab.async false

/-! ### Well-formedness: an ill-formed term for each check -/

theorem test_wf_opcode_zero : (Instr.cmd 0 []).wf = false := by decide
theorem test_wf_args_too_many : (Instr.cmdDly 0x11 (List.replicate 128 0) 0).wf = false := by decide +kernel
theorem test_wf_reserved_op_taken : (Instr.hostopReserved 1).wf = false := by decide
theorem test_wf_params_rom_empty : ({ Params.reference with rom := [] } : Params).wf = false := by
  simp [Params.wf, Params.romBytes]

/-! ### Decoding: words written out from R52 to R58 and R61 -/

/-- TERM: 0x00 at the opcode position (L2.4). -/
theorem test_decode_term : decodeScript [0b00000000, 0x12] = .ok (.term, [0x12]) := by decide
/-- CMD: OPC 0x3A, META 0b0_0000001, one argument (L2.4). -/
theorem test_decode_cmd : decodeScript [0b00111010, 0b00000001, 0b01010101, 0x00]
    = .ok (.cmd 0x3A [0x55], [0x00]) := by decide
/-- CMD_DLY: OPC 0x11, META 0b1_0000000, DLY 0xFF (R61). -/
theorem test_decode_cmdDly : decodeScript [0b00010001, 0b10000000, 0b11111111, 0b00000000]
    = .ok (.cmdDly 0x11 [] 0xFF, [0x00]) := by decide
/-- A zero byte at an argument position is no terminator (R55). -/
theorem test_decode_zero_argument : decodeScript [0x3A, 0x81, 0x00, 0x01]
    = .ok (.cmdDly 0x3A [0x00] 0x01, []) := by decide
theorem test_decode_runScript :
    decodeHostOp 0b00000000000000000000000000000001 = .runScript := by decide
/-- Bits 31:4 are ignored (L2.7). -/
theorem test_decode_convertFrame :
    decodeHostOp 0b00000000000000000000000000010010 = .convertFrame := by decide
theorem test_decode_beginRamWrite :
    decodeHostOp 0b11111111111111111111111111110011 = .beginRamWrite := by decide
theorem test_decode_sendFrame :
    decodeHostOp 0b00000000000000000000000000000100 = .sendFrame := by decide
theorem test_decode_hostopReserved :
    decodeHostOp 0b00000000000000000000000000000101 = .hostopReserved 5 := by decide
/-- An entry cut off after META (L2.5, row 8: `3A 02 55`). -/
theorem test_decode_short : decodeScript [0x3A, 0x02, 0x55] = .error (.shortArgs 0x3A 0x02 [0x55]) := by decide

/-- The initialization script of the example SCRIPT_ROM (spec/93, section 3): its last three entries. -/
theorem test_decode_example_rom : decodeEntries 4 [0x26, 0x01, 0x01, 0x21, 0x00, 0x29, 0x80, 0x64, 0x00, 0x2A]
    = .ok [.cmd 0x26 [0x01], .cmd 0x21 [], .cmdDly 0x29 [] 100, .term] := by decide +kernel

/-! ### Encoding and assembling (L2.4, R59) -/

theorem test_assemble_caset :
    (assembleCmd 0x2A [0x00, 0x00, 0x01, 0x3F] none).map entryBytes = some [0x2A, 0x04, 0x00, 0x00, 0x01, 0x3F] := by decide
theorem test_assemble_delay_500 : (assembleCmd 0x11 [] (some 500)).map entryBytes = some [0x11, 0x80, 0xFF] := by decide
theorem test_assemble_rejects_300 : assembleCmd 0x11 [] (some 300) = none := by decide
theorem test_assemble_rejects_opcode_zero : assembleCmd 0x00 [] none = none := by decide

/-! ### The table's words, placed after reset -/

/-- The table gives script entries 16 bits: byte +0 in bits 15:8. -/
theorem test_table_cmd : decodeTableWord 16 0x3A01 = some (.cmd 0x3A [0x00]) := by decide
theorem test_table_cmdDly : decodeTableWord 16 0x1180 = some (.cmdDly 0x11 [] 0x00) := by decide
theorem test_table_term : decodeTableWord 8 0x00 = some .term := by decide
theorem test_table_sendFrame : decodeTableWord 32 0x00000004 = some .sendFrame := by decide

/-- Whether a step answers a next state. -/
def isNext {σ φ ρ : Type} : Host.Outcome σ φ ρ → Bool
  | .next _ => true
  | .fault _ => false
  | .refused _ => false

theorem test_placed_cmd_runs : isNext (step (State.reset.withFetchWord 16 0x3A01)) = true := by decide +kernel
theorem test_placed_cmdDly_runs : isNext (step (State.reset.withFetchWord 16 0x1180)) = true := by decide +kernel
theorem test_placed_convertFrame_runs : isNext (step (State.reset.withFetchWord 32 2)) = true := by decide +kernel

/-! ### Small states -/

/-- Parameters of a small machine. -/
def params (w h : Nat) (rom : List Byte) : Params where
  width := w
  height := h
  rom := rom
  initScriptOffset := 0
  windowScriptOffset := 0
  ramwrOpcode := 0x2C
  awbRound := .halfEven
  inOrder := .rgb
  maxSpeedHz := 80000000
  rstActiveLevel := false
  rstAssertMs := 10
  rstRecoverMs := 120

/-- A machine after reset with GPIO_OE = 0x1, both speeds set, and the link's answers given. -/
def ready (w h : Nat) (rom : List Byte) (answers : List Bool) : State :=
  { State.resetWith (params w h rom) with
    gpioOe := ⟨true, false, false⟩, speedHz := 1000000, dataSpeedHz := 80000000, answers := answers }

/-- The same with a script running at offset 0 and DC high. -/
def scripting (rom : List Byte) (answers : List Bool) : State :=
  { ready 1 1 rom answers with
    mode := .run, spdCmd := 1000000, gpioOut := ⟨true, false, false⟩, lastOp := 1 }

/-- What a test looks at: a function of the next state, if there is one. -/
def look {α : Type} (f : State → α) : Host.Outcome State Fault Refusal → Option α
  | .next s => some (f s)
  | .fault _ => none
  | .refused _ => none

/-! ### Script entries (L2.5) -/

/-- Row 1: `3A 01 55 00`, all answers T. -/
theorem test_cmd_trace :
    look (·.trace) (step (scripting [0x3A, 0x01, 0x55, 0x00] [true, true])) =
      some [.pin .dc false true, .attempt 1 .low 1000000 [0x3A] true, .pin .dc true true,
        .attempt 1 .high 1000000 [0x55] true] := by decide +kernel
/-- Row 5: the argument fails three times: STATUS 0x1302, FAULT_BYTE 0x55, SCRIPT_PTR 2. -/
theorem test_cmd_arg_fails :
    look (fun s => (statusWord s, s.faultByte, s.sp))
      (step (scripting [0x3A, 0x01, 0x55, 0x00] [true, false, false, false])) =
      some (0x1302, 0x55, 2) := by decide +kernel
/-- Row 3: the opcode's first attempt fails, then DLY 0xFF is 500 ms. -/
theorem test_cmdDly_trace :
    look (·.trace) (step (scripting [0x11, 0x80, 0xFF, 0x00] [false, true])) =
      some [.pin .dc false true, .attempt 1 .low 1000000 [0x11] false, .wait 1,
        .attempt 2 .low 1000000 [0x11] true, .pin .dc true true, .wait 500] := by decide +kernel
/-- Row 7: DLY lies beyond the ROM: STATUS 0x1402, SCRIPT_PTR 2, DC high, no wait. -/
theorem test_cmdDly_overrun :
    look (fun s => (statusWord s, s.sp, s.gpioOut.dc, s.trace.countP isWait)) (step (scripting [0x11, 0x80] [true])) =
      some (0x1402, 2, true, 0) := by decide +kernel
/-- Row 6: META lies beyond the ROM: SCRIPT_PTR 1 and DC low. -/
theorem test_opcode_only_overrun :
    look (fun s => (statusWord s, s.sp, s.gpioOut.dc)) (step (scripting [0x11] [true])) =
      some (0x1402, 1, false) := by decide +kernel
/-- L1-4: a terminator first: STATUS 0x1008, SCRIPT_PTR 0, nothing sent. -/
theorem test_term :
    look (fun s => (statusWord s, s.sp, s.trace)) (step (scripting [0x00] [])) = some (0x1008, 0, []) := by decide +kernel

/-! ### Host operations -/

/-- L2.5, last row: SPEED_HZ = 0 is Fatal(CFG): STATUS 0x1102. -/
theorem test_runScript_cfg :
    look (fun s => (statusWord s, s.trace)) (exec .runScript (State.resetWith (params 1 1 [0x00]))) =
      some (0x1102, [.fatal .cfg]) := by decide +kernel
/-- SP takes SCRIPT_START when RUN_SCRIPT is accepted (R96). -/
theorem test_runScript_start :
    look (fun s => (statusWord s, s.sp)) (exec .runScript { ready 1 1 [0x00] [] with scriptStart := 22 }) =
      some (0x1001, 22) := by decide +kernel
/-- L2.6: BEGIN_RAM_WRITE sends RAMWR_OPCODE and leaves DC low: STATUS 0x3008. -/
theorem test_beginRamWrite :
    look (fun s => (statusWord s, s.trace, s.gpioOut.dc))
      (exec .beginRamWrite { ready 1 1 [0x00] [true] with gpioOut := ⟨true, false, false⟩ }) =
      some (0x3008, [.pin .dc false true, .attempt 1 .low 1000000 [0x2C] true], false) := by decide +kernel
/-- L2.6: three failures: STATUS 0x3202 and FAULT_BYTE 0x2C. -/
theorem test_beginRamWrite_fails :
    look (fun s => (statusWord s, s.faultByte)) (exec .beginRamWrite (ready 1 1 [0x00] [false, false, false])) =
      some (0x3202, 0x2C) := by decide +kernel
/-- L2.3, the mixed frame: FB, the sums and one LUT word. -/
theorem test_convert_mixed :
    look (fun s => (s.fb, s.sumR, s.sumG, s.sumB, lutWord 40 s, statusWord s))
      (exec .convertFrame { ready 2 1 [0x00] [] with raw := [(0, 200), (1, 100), (2, 50), (3, 40), (4, 60), (5, 80)] }) =
      some ([(0, 0x93), (1, 0x68), (2, 0x1A), (3, 0x0D)], 0xF0, 0xA0, 0x82, 0x00362C1D, 0x2008) := by decide +kernel
/-- L2.3, channel order: the same pixels in BGR order. -/
theorem test_convert_bgr :
    look (fun s => s.fb)
      (exec .convertFrame
        { ready 2 1 [0x00] [] with
          cfg := { params 2 1 [0x00] with inOrder := .bgr }
          raw := [(0, 0x32), (1, 0x64), (2, 0xC8), (3, 0x50), (4, 0x3C), (5, 0x28)] }) =
      some [(0, 0x93), (1, 0x68), (2, 0x1A), (3, 0x0D)] := by decide +kernel
/-- L3-2, step 8: DC goes high once, one block of 4 bytes, FRAME_COUNT 1. -/
theorem test_sendFrame :
    look (fun s => (s.trace, s.frameCount, s.skipCount, statusWord s))
      (exec .sendFrame { ready 2 1 [0x00] [true] with fb := [(0, 0x93), (1, 0x68), (2, 0x1A), (3, 0x0D)] }) =
      some ([.pin .dc true true, .attempt 1 .high 80000000 [0x93, 0x68, 0x1A, 0x0D] true], 1, 0, 0x4008) := by
  decide +kernel
/-- L2.6: a block that fails three times is skipped: SKIP_COUNT 1, a normal end. -/
theorem test_sendFrame_skip :
    look (fun s => (s.frameCount, s.skipCount, statusWord s))
      (exec .sendFrame { ready 1 1 [0x00] [false, false, false] with fb := [(0, 0xAD), (1, 0x55)] }) =
      some (1, 1, 0x4008) := by decide +kernel
/-- L2.7: a reserved code sets CMD_ERR in FATAL_HALT too. -/
theorem test_hostopReserved :
    look statusWord (exec (.hostopReserved 5)
      { ready 1 1 [0x00] [] with mode := .fatalHalt, lastOp := 1, fatalCause := .argXfer }) = some 0x1306 := by
  decide +kernel

/-! ### The host's side (L2.7 to L2.9) -/

/-- `wr STATUS, 0xB` on 0x100C clears DONE only. -/
theorem test_status_w1c :
    statusWord (writeStatus 0xB { ready 1 1 [0x00] [] with cmdErr := true, done := true, lastOp := 1 }) = 0x1004 := by
  decide +kernel
/-- From reset, `wr GPIO_OE, 0x7` records three EvPin, in order. -/
theorem test_gpio_oe :
    (hostAccess (.write 0x8 .w32 0x7) (State.resetWith (params 1 1 [0x00]))).trace =
      [.pin .dc false true, .pin .rst false true, .pin .bl false true] := by decide +kernel
/-- While BUSY = 1, GPIO_OUT 0x3, `wr GPIO_OUT, 0x4` leaves DC. -/
theorem test_gpio_out_busy :
    (hostAccess (.write 0xC .w32 0x4)
      { scripting [0x00] [] with gpioOut := ⟨true, true, false⟩ }).gpioOut = ⟨true, false, true⟩ := by decide +kernel
/-- FB = `AD 55 50 00`: a 32-bit read at 0x200000 is 0x005055AD. -/
theorem test_fb_read :
    (hostAccess (.read 0x200000 .w32)
      { ready 2 1 [0x00] [] with fb := [(0, 0xAD), (1, 0x55), (2, 0x50), (3, 0x00)] }).responses =
      [.data 0x005055AD] := by decide +kernel
/-- A 32-bit write of 0x283264C8 at 0x100000. -/
theorem test_raw_write :
    (hostAccess (.write 0x100000 .w32 0x283264C8) (ready 2 1 [0x00] [])).raw =
      [(0, 0xC8), (1, 0x64), (2, 0x32), (3, 0x28)] := by decide +kernel
/-- A 16-bit read at 0x200001 is a bus error, and the step after it stops. -/
theorem test_bus_error :
    (hostAccess (.read 0x200001 .w16) (ready 2 1 [0x00] [])).faults = [.busErr] := by decide +kernel
/-- A RAW write while CONVERT_FRAME runs is a HAZARD, and the byte is not stored (R116). -/
theorem test_hazard :
    look (fun s => (s.faults, s.raw))
      (exec .convertFrame
        { ready 1 1 [0x00] [] with
          raw := [(0, 1), (1, 2), (2, 3)], host := [.access (.write 0x100000 .w8 0x09)] }) =
      some ([.hazard], [(0, 1), (1, 2), (2, 3)]) := by decide +kernel
/-- R110: a reset while an attempt is in flight: no EvAttempt, MODE = IDLE. -/
theorem test_reset_in_attempt :
    look (fun s => (s.trace, s.mode, s.csN)) (step { scripting [0x11, 0x00] [true] with host := [.pass, .pass, .reset] }) =
      some ([], .idle, true) := by decide +kernel
/-- Log 20: an access can fall between the third failed attempt (R70) and EvFatal (R98), and its EvPin comes before EvFatal. -/
theorem test_access_before_fatal :
    look (fun s => s.trace.drop 6)
      (step { scripting [0x11, 0x00] [false, false, false] with
        host := List.replicate 12 .pass ++ [.access (.write 0xC .w32 0x2)] }) =
      some [.pin .rst true false, .fatal .cmdXfer] := by decide +kernel
/-- Log 22: FRAME_COUNT cleared in the turn right before its increment (the fifth of a SEND_FRAME of one block) reads 1 at the
end (R26: the increment is applied after the clear); cleared in the turn after the increment it reads 0. -/
theorem test_frame_count_cleared :
    (let run := fun passes => look (fun s => (s.frameCount, statusWord s))
      (exec .sendFrame { ready 1 1 [0x00] [true] with
        fb := [(0, 0xAD), (1, 0x55)], frameCount := 7
        host := List.replicate passes .pass ++ [.access (.write 0x2C .w32 0)] })
    (run 4, run 5)) = (some (1, 0x4008), some (0, 0x4008)) := by decide +kernel
/-- Log 19: an 8-bit write and an 8-bit read of RAW byte 1 are on data bits 7:0. -/
theorem test_raw_byte :
    (hostAccess (.read 0x100001 .w8) (hostAccess (.write 0x100001 .w8 0x1264) (ready 2 1 [0x00] []))).responses =
      [.data 0x00000064] := by decide +kernel
/-- DIMS with W = 320 and H = 240. -/
theorem test_dims : readReg .dims (ready 320 240 [0x00] []) = 0x00F00140 := by decide +kernel

/-! ### The converter's arithmetic (L2.1, L2.2) -/

theorem test_pack : pack565 247 251 247 = 0xF7DE := by decide
theorem test_round_half_even : roundDiv .halfEven 15 6 = 2 ∧ roundDiv .halfEven 21 6 = 4 := by decide
theorem test_round_half_up : roundDiv .halfUp 15 6 = 3 := by decide
theorem test_mosi_msb_first : mosiBits [0x80] = [true, false, false, false, false, false, false, false] := by decide

/-! ### Witnesses: a concrete state and operands that meet the hypotheses of each statement, one for each clause -/

section Witnesses

/-- A machine halted by a fatal error. -/
def halted : State := { ready 1 1 [0x00] [] with mode := .fatalHalt, fatalCause := .argXfer, faultByte := 0x55, sp := 2 }

/-- A machine with a 2 x 1 frame in RAW and in FB. -/
def framed (answers : List Bool) : State :=
  { ready 2 1 [0x00] answers with
    raw := [(0, 200), (1, 100), (2, 50), (3, 40), (4, 60), (5, 80)]
    fb := [(0, 0x93), (1, 0x68), (2, 0x1A), (3, 0x0D)] }

theorem witness_decodeEncode : ((Instr.cmdDly 0xFF (List.replicate 127 0) 0).wf = true) ∧ (Instr.cmd 1 []).wf = true
    ∧ (Instr.hostopReserved 0).wf = true ∧ (Instr.hostopReserved 15).wf = true := by decide +kernel
theorem witness_scriptDecodesBack : ∀ i ∈ [Instr.cmdDly 0x11 [] 0xFF, Instr.cmd 0x2A [0x00]],
    i.wf = true ∧ ((∃ opc args, i = .cmd opc args) ∨ ∃ opc args dly, i = .cmdDly opc args dly) := by
  simp [Instr.wf, opcodeWf, argsWf]
theorem witness_decodedEntry : decodeScript [0x3A, 0x01, 0x55, 0x00] = .ok (.cmd 0x3A [0x55], [0x00]) := by decide
/-- META 0xFF asks for 128 bytes, META 0x81 for two, META 0x00 for none. -/
theorem witness_entryLength : let need := fun (hdr : Byte) => (hdr.extractLsb' 0 7).toNat + (hdr.extractLsb' 7 1).toNat
    need 0xFF = (List.replicate 128 (0 : Byte)).length ∧ need 0x00 = ([] : List Byte).length
      ∧ ([0x55] : List Byte).length < need 0x81 := by decide +kernel
theorem witness_hostOpFromLowBits : (0xFFFFFFF : BitVec 28) ++ (4 : BitVec 4) = (0xFFFFFFF4 : Word) := by decide
theorem witness_delayCodes : delayMs 254 = 254 ∧ delayMs 255 = 500 ∧ delayByte? 0 = some 0 ∧ delayByte? 254 = some 254
    ∧ delayByte? 255 = none ∧ delayByte? 499 = none ∧ delayByte? 500 = some 255 ∧ delayByte? 501 = none := by decide

theorem witness_stepRunsScriptEntry : (scripting [0x11, 0x00] []).faults = [] ∧ (scripting [0x11, 0x00] []).mode = .run
    ∧ (scripting [0x11, 0x00] []).op = .runScript ∧ (scripting [0x11, 0x00] []).host = []
    ∧ (setHost [.pass] (scripting [0x11, 0x00] [])).host = .pass :: []
    ∧ (setHost [.poll] (scripting [0x11, 0x00] [])).host = .poll :: []
    ∧ decodeScript ((scripting [0x11, 0x00] []).cfg.rom.drop (scripting [0x11, 0x00] []).sp.toNat)
      = .ok (.cmd 0x11 [], []) := by decide +kernel
theorem witness_stepRunsHostOp : (setHost [.access (.write 0 .w32 0x12)] (ready 1 1 [0x00] [])).faults = []
    ∧ (setHost [.access (.write 0 .w32 0x12)] (ready 1 1 [0x00] [])).host = .access (.write 0 .w32 0x12) :: [] := by
  decide +kernel
theorem witness_stepServesHost : halted.faults = [] ∧ halted.mode ≠ .run ∧ halted.host = []
    ∧ (setHost [.poll] halted).host = .poll :: [] ∧ (setHost [.pass] halted).host = .pass :: []
    ∧ (setHost [.access (.read 0 .w32)] halted).host = .access (.read 0 .w32) :: []
    ∧ cmdWord? (.read 0 .w32) = none ∧ cmdWord? (.write 0 .w16 0x12) = none := by decide +kernel
theorem witness_stepStops : (recordFault .busErr halted).faults = .busErr :: [] := by decide +kernel

/-- What OverrunIsFatal and TransferFailureComesBeforeOverrun ask of the state. -/
def cutOff (s : State) : Prop :=
  s.faults = [] ∧ s.host = [] ∧ s.mode = .run ∧ s.op = .runScript ∧ s.cfg.romBytes ≤ 65536

/-- A script pointer at the end of SCRIPT_ROM. -/
theorem witness_overrun_end : let s := { scripting [0x11] [] with sp := 1 }
    cutOff s ∧ s.cfg.rom.drop s.sp.toNat = [] :=
  ⟨⟨rfl, rfl, rfl, rfl, by decide +kernel⟩, rfl⟩
/-- A script pointer beyond it. -/
theorem witness_overrun_beyond : let s := { scripting [0x11] [] with sp := 65536 }
    cutOff s ∧ s.cfg.rom.drop s.sp.toNat = [] :=
  ⟨⟨rfl, rfl, rfl, rfl, by decide +kernel⟩, rfl⟩
/-- The opcode alone, sent at its second attempt. -/
theorem witness_overrun_opcode : let s := scripting [0x11] [false, true]
    cutOff s ∧ s.cfg.rom.drop s.sp.toNat = [0x11] ∧ (0x11 : Byte) ≠ 0 ∧ LinkGives s (retriedAnswers 1) :=
  ⟨by unfold cutOff; decide +kernel, rfl, by decide, .of_answers (by decide +kernel)⟩
/-- An argument missing, the one that is there sent at its third attempt. -/
theorem witness_overrun_argument : let s := scripting [0x3A, 0x02, 0x55] [true, false, false, true]
    cutOff s ∧ s.cfg.rom.drop s.sp.toNat = 0x3A :: 0x02 :: [0x55]
      ∧ ([0x55] : List Byte).length < ((0x02 : Byte).extractLsb' 0 7).toNat + (if (0x02 : Byte).getLsbD 7 then 1 else 0)
      ∧ (∀ x ∈ 0 :: [2], x < 3) ∧ LinkGives s ((0 :: [2]).flatMap retriedAnswers) :=
  ⟨by unfold cutOff; decide +kernel, rfl, by decide, by decide, .of_answers (by decide +kernel)⟩
/-- DLY missing, with no argument. -/
theorem witness_overrun_delay : let s := scripting [0x11, 0x80] [true]
    cutOff s ∧ s.cfg.rom.drop s.sp.toNat = 0x11 :: 0x80 :: []
      ∧ ([] : List Byte).length < ((0x80 : Byte).extractLsb' 0 7).toNat + (if (0x80 : Byte).getLsbD 7 then 1 else 0)
      ∧ LinkGives s ((0 :: []).flatMap retriedAnswers) :=
  ⟨by unfold cutOff; decide +kernel, rfl, by decide, .of_answers (by decide +kernel)⟩
/-- TransferFailureComesBeforeOverrun: the opcode fails. -/
theorem witness_cutOff_opcodeFailure : let s := scripting [0x11] [false, false, false]
    cutOff s ∧ decodeScript (s.cfg.rom.drop s.sp.toNat) = .error (.noMeta 0x11)
      ∧ s.cfg.rom.drop s.sp.toNat = 0x11 :: [] ∧ LinkGives s failedAnswers :=
  ⟨by unfold cutOff; decide +kernel, by decide +kernel, rfl, .of_answers (by decide +kernel)⟩
/-- TransferFailureComesBeforeOverrun: the argument fails, DLY missing, the opcode sent at its second attempt. -/
theorem witness_cutOff_argumentFailure : let s := scripting [0x3A, 0x81, 0x55] [false, true, false, false, false]
    cutOff s ∧ decodeScript (s.cfg.rom.drop s.sp.toNat) = .error (.noDelay 0x3A [0x55])
      ∧ s.cfg.rom.drop s.sp.toNat = 0x3A :: 0x81 :: ([] ++ 0x55 :: [])
      ∧ (∀ x ∈ 1 :: [], x < 3) ∧ LinkGives s ((1 :: []).flatMap retriedAnswers ++ failedAnswers) :=
  ⟨by unfold cutOff; decide +kernel, by decide +kernel, rfl, by decide, .of_answers (by decide +kernel)⟩

/-- `s.host = []`, the one hypothesis of XferBoundedRetry, AttemptResult, WaitResult and TermResult, with the link's answers
of each kind. -/
theorem witness_xfer : (framed [true]).host = [] ∧ answerAt (framed [false, true]) 1 = true
    ∧ answerAt (framed [false, false, true]) 2 = true ∧ answerAt (framed [false, false, false]) 2 = false
    ∧ (scripting [0x00] []).host = [] := by decide +kernel
theorem witness_fetch : (scripting [0x11, 0x00] []).host = [] ∧ (scripting [0x11, 0x00] []).cfg.rom[1]? = some 0x00
    ∧ (scripting [0x11, 0x00] []).cfg.rom[2]? = none := by decide +kernel
theorem witness_hostTurn :
    (setHost [.pass] halted).host = .pass :: [] ∧ (setHost [.poll] halted).host = .poll :: []
    ∧ (setHost [.reset] halted).host = .reset :: []
    ∧ (setHost [.access (.read 0x200001 .w16)] halted).host = .access (.read 0x200001 .w16) :: []
    ∧ (accessAllowed halted.cfg (.read 0x200001 .w16) && isHazard (.read 0x200001 .w16) halted) = false
    ∧ accessAllowed (scripting [0x00] []).cfg (.write 0x8 .w32 0x0) = true
    ∧ isHazard (.write 0x8 .w32 0x0) (scripting [0x00] []) = true := by decide +kernel
theorem witness_mosi : ([0x2C, 0x80] : List Byte)[1]? = some 0x80 ∧ 0 < 8 ∧ 7 < 8 := by decide

/-- The argument sent at its third attempt. -/
theorem witness_cmd : let s := scripting [0x3A, 0x01, 0x55, 0x00] [true, false, false, true]
    s.host = [] ∧ s.sp.toNat + 2 + [(0x55 : Byte)].length ≤ s.cfg.romBytes ∧ (∀ x ∈ 0 :: [2], x < 3)
      ∧ LinkGives s ((0 :: [2]).flatMap retriedAnswers) :=
  ⟨rfl, by decide +kernel, by decide, .of_answers (by decide +kernel)⟩
/-- L2.5, row 3: the opcode sent at its second attempt. -/
theorem witness_cmdDly : let s := scripting [0x11, 0x80, 0xFF] [false, true]
    s.host = [] ∧ s.sp.toNat + 3 + ([] : List Byte).length ≤ s.cfg.romBytes ∧ (∀ x ∈ 1 :: [], x < 3)
      ∧ LinkGives s ((1 :: []).flatMap retriedAnswers) :=
  ⟨rfl, by decide +kernel, by decide, .of_answers (by decide +kernel)⟩
theorem witness_opcodeFailure : (scripting [0x3A, 0x00] [false, false, false]).host = []
    ∧ ∀ j, j < 3 → answerAt (scripting [0x3A, 0x00] [false, false, false]) j = false := by decide +kernel
theorem witness_argumentFailure : let s := scripting [0x3A, 0x02, 0x55, 0x66] [true, false, true, false, false, false]
    s.host = [] ∧ s.sp.toNat + 2 + [(0x55 : Byte)].length < s.cfg.romBytes ∧ s.cfg.romBytes ≤ 65536
      ∧ (∀ x ∈ 0 :: [1], x < 3) ∧ LinkGives s ((0 :: [1]).flatMap retriedAnswers ++ failedAnswers) :=
  ⟨rfl, by decide +kernel, by decide +kernel, by decide, .of_answers (by decide +kernel)⟩
/-- ScriptEntryFrame, with a host that passes and polls. -/
theorem witness_scriptEntryFrame : Quiet (setHost [.pass, .poll] (scripting [0x3A, 0x00] [true]))
    ∧ ∃ t, exec (.cmd 0x3A []) (setHost [.pass, .poll] (scripting [0x3A, 0x00] [true])) = .next t :=
  ⟨by unfold Quiet; decide +kernel, _, rfl⟩
theorem witness_runScriptStarts : (ready 1 1 [0x00] []).mode = .idle ∧ (ready 1 1 [0x00] []).speedHz ≠ 0 := by decide +kernel
theorem witness_zeroSpeed : (State.resetWith (params 1 1 [0x00])).mode = .idle
    ∧ (State.resetWith (params 1 1 [0x00])).speedHz = 0 ∧ (State.resetWith (params 1 1 [0x00])).dataSpeedHz = 0 := by
  decide +kernel
theorem witness_rejected : (scripting [0x00] []).mode ≠ .idle ∧ halted.mode ≠ .idle := by decide +kernel
theorem witness_beginRamWrite : ∀ k, k < 3 → let s := ready 1 1 [0x00] (retriedAnswers k)
    s.host = [] ∧ s.mode = .idle ∧ s.speedHz ≠ 0 ∧ LinkGives s (retriedAnswers k) :=
  fun _ _ => ⟨rfl, rfl, by simp [ready], .of_answers (List.prefix_refl _)⟩
theorem witness_beginRamWrite_failure : (ready 1 1 [0x00] [false, false, false]).mode = .idle
    ∧ ∀ j, j < 3 → answerAt (ready 1 1 [0x00] [false, false, false]) j = false := by decide +kernel
theorem witness_convertFrame : (framed []).host = [] ∧ (framed []).mode = .idle ∧ RawWritten (framed [])
    ∧ 255 * (framed []).cfg.pixels < 2 ^ 32 := by unfold RawWritten; decide +kernel
/-- The same with the bytes in BGR order: the samples are those of the bytes read the other way round. -/
theorem witness_convertFrame_bgr : let s := { framed [] with cfg := { (framed []).cfg with inOrder := .bgr } }
    s.host = [] ∧ s.mode = .idle ∧ RawWritten s ∧ 255 * s.cfg.pixels < 2 ^ 32
      ∧ samples s 1 = { r := 80, g := 60, b := 40 } := by unfold RawWritten; decide +kernel
/-- UnwrittenByteIsModelFault: the last byte of RAW, and of FB, unwritten. -/
theorem witness_unwritten : let s := { framed [] with raw := [(0, 200), (1, 100)], fb := [(0, 0x93)] }
    s.host = [] ∧ s.mode = .idle ∧ s.faults = [] ∧ 5 < s.cfg.rawBytes ∧ memRead s.raw 5 = none ∧ 3 < s.cfg.fbBytes
      ∧ memRead s.fb 3 = none ∧ s.dataSpeedHz ≠ 0 := by decide +kernel
/-- SendFrameResult and SendFrameAlwaysEnds. -/
theorem witness_sendFrame : let s := framed [true]
    s.host = [] ∧ s.mode = .idle ∧ s.dataSpeedHz ≠ 0 ∧ FbWritten s
      ∧ ∀ j, j < (s.cfg.fbBytes + 4095) / 4096 → answerAt s j = true := by unfold FbWritten; decide +kernel
/-- SendFrameSendsEveryByteOnce, with a block that takes two attempts. -/
theorem witness_sendFrame_everyByte : let s := framed [false, true]
    s.host = [] ∧ s.mode = .idle ∧ s.dataSpeedHz ≠ 0 ∧ FbWritten s ∧ s.cfg.wf = true
      ∧ look (·.skipCount) (exec .sendFrame s) = some s.skipCount := by unfold FbWritten; decide +kernel
theorem witness_hostOpFrame : Quiet (setHost [.poll] (framed [false, true]))
    ∧ (∃ t, exec .sendFrame (setHost [.poll] (framed [false, true])) = .next t)
    ∧ (∃ t, exec .beginRamWrite (setHost [.poll] (framed [true])) = .next t)
    ∧ (∃ t, exec .runScript (scripting [0x00] []) = .next t) :=
  ⟨by unfold Quiet; decide +kernel, ⟨_, rfl⟩, ⟨_, rfl⟩, ⟨_, rfl⟩⟩
theorem witness_convertFrameFrame : Quiet (setHost [.pass] (framed []))
    ∧ ∃ t, exec .convertFrame (setHost [.pass] (framed [])) = .next t := ⟨by unfold Quiet; decide +kernel, _, rfl⟩

/-- RegisterWrites: CMD while an operation runs; GPIO_OE while idle, while CONVERT_FRAME runs, and with DC_OE kept; the first
and last offsets that ignore writes. -/
theorem witness_registerWrites : (scripting [0x00] []).mode = .run
    ∧ (framed []).mode ≠ .run ∧ (acceptCmd .convertFrame (framed [])).op = .convertFrame
    ∧ (0x1 : Word).getLsbD 0 = (scripting [0x00] []).gpioOe.dc ∧ 0x30 % 4 = 0 ∧ 0xFFC % 4 = 0 ∧ 0xFFC < 0x1000 := by
  decide +kernel
/-- RegisterReads: the sums and the LUT in an idle state, and in one in which a script runs; the bounds of the reserved
ranges. Its other clauses have no premise: CONVERT_FRAME running is one of the states they hold in. -/
theorem witness_registerReads : ¬((framed []).mode = .run ∧ (framed []).op = .convertFrame)
    ∧ ¬((scripting [0x00] []).mode = .run ∧ (scripting [0x00] []).op = .convertFrame)
    ∧ ((acceptCmd .convertFrame (framed [])).mode = .run ∧ (acceptCmd .convertFrame (framed [])).op = .convertFrame)
    ∧ (0x040 % 4 = 0 ∧ 0x3FC % 4 = 0 ∧ 0x3FC < 0x400 ∧ 0x800 % 4 = 0 ∧ 0xFFC < 0x1000) := by decide +kernel
/-- ReadsHaveNoSideEffect: an allowed read of bytes that nothing wrote. -/
theorem witness_readsHaveNoSideEffect : accessAllowed (ready 2 1 [0x00] []).cfg (.read 0x200002 .w16) = true
    ∧ isHazard (.read 0x200002 .w16) (ready 2 1 [0x00] []) = false := by decide +kernel
/-- BusErrors: parameters that meet R6; the last bytes of each window are allowed, and the bytes after them are not. -/
theorem witness_busErrors : (framed []).cfg.wf = true ∧ accessAllowed (framed []).cfg (.write 0x100005 .w8 0) = true
    ∧ accessAllowed (framed []).cfg (.write 0x100006 .w8 0) = false ∧ accessAllowed (framed []).cfg (.read 0x200002 .w16) = true
    ∧ accessAllowed (framed []).cfg (.write 0x200002 .w16 0) = false ∧ accessAllowed (framed []).cfg (.read 0x300000 .w8) = true
    ∧ accessAllowed (framed []).cfg (.read 0x300001 .w8) = false ∧ accessAllowed (framed []).cfg (.read 0xFFC .w32) = true
    ∧ accessAllowed (framed []).cfg (.read 0x1000 .w32) = false ∧ accessAllowed (framed []).cfg (.read 0x100004 .w32) = false := by
  decide +kernel
/-- Hazards: each kind of hazard, at the ends of its range, and accesses beside them that are none. -/
theorem witness_hazards : let s := acceptCmd .convertFrame (framed [])
    s.cfg.wf = true ∧ (∀ a ∈ [.write 0x100000 .w8 0, .write 0x100005 .w8 0, .read 0x200000 .w8, .read 0x200003 .w8,
        .read 0x34 .w32, .read 0x3C .w32, .read 0x400 .w32, (.read 0x7FC .w32 : Access)],
          accessAllowed s.cfg a = true ∧ isHazard a s = true)
      ∧ (∀ a ∈ [.read 0x100005 .w8, .read 0x30 .w32, .read 0x800 .w32, .write 0x8 .w32 0, (.write 0x400 .w32 0 : Access)],
          accessAllowed s.cfg a = true ∧ isHazard a s = false)
      ∧ isHazard (.write 0x8 .w32 0) (acceptCmd .sendFrame (framed [])) = true
      ∧ isHazard (.write 0x8 .w32 7) (acceptCmd .sendFrame (framed [])) = false := by decide +kernel
theorem witness_rawWindowWrite : (framed []).cfg.rawBytes ≤ 0x100000 ∧ 4 % widthBytes .w16 = 0
    ∧ 4 + widthBytes .w16 ≤ (framed []).cfg.rawBytes
    ∧ ¬((framed []).mode = .run ∧ (framed []).op = .convertFrame) := by decide +kernel
/-- WindowReads: the last bytes of RAW, of FB and of SCRIPT_ROM; RAW while CONVERT_FRAME runs too. -/
theorem witness_windowReads : (framed []).cfg.wf = true ∧ 4 % widthBytes .w16 = 0 ∧ 0 % widthBytes .w32 = 0
    ∧ 4 + widthBytes .w16 ≤ (framed []).cfg.rawBytes ∧ 0 + widthBytes .w32 ≤ (framed []).cfg.fbBytes
    ∧ ¬((framed []).mode = .run ∧ (framed []).op = .convertFrame)
    ∧ 0 + widthBytes .w8 ≤ (framed []).cfg.romBytes := by decide +kernel
/-- RoundModes at ties (15/6 and 21/6), LutLaws at the bounds of (b) and (c): S = 1, T = 3 and, for v = 255, T = 4. -/
theorem witness_arithmetic : 0 < 6 ∧ roundDiv .trunc 15 6 = 2 ∧ (0 : Byte).toNat ≤ (255 : Byte).toNat ∧ 3 ≤ 3 * 1
    ∧ 511 * (3 * 1) ≤ 2 * ((255 : Byte).toNat * 4) ∧ 256 * (3 * 1) ≤ (255 : Byte).toNat * 4 := by decide

theorem witness_reset : (setHost [.reset] halted).faults = [] ∧ (setHost [.reset] halted).host = .reset :: [] := by
  decide +kernel
/-- StepKeepsInv, StepKeepsParameters and TraceOnlyGrows: a state with the invariant whose step answers. -/
theorem witness_stepKeepsInv : Inv (scripting [0x11, 0x00] [true]) ∧ HostEvent.reset ∉ (scripting [0x11, 0x00] [true]).host
    ∧ ∃ t, step (scripting [0x11, 0x00] [true]) = .next t :=
  ⟨⟨⟨rfl, rfl, by unfold addressesBelow; decide +kernel, by unfold addressesBelow; decide +kernel⟩,
    ⟨by decide +kernel, by decide +kernel⟩, fun _ => by decide +kernel⟩, by decide +kernel, _, rfl⟩
/-- OnlyResetLeavesFatal: a step that stays, and the reset. -/
theorem witness_onlyReset : halted.mode = .fatalHalt ∧ step halted = .next halted
    ∧ look (·.mode) (step (setHost [.reset] halted)) = some .idle := ⟨rfl, rfl, by decide +kernel⟩
theorem witness_scriptEnds : let s := scripting [0x11, 0x00, 0x00] []
    s.host = [] ∧ s.faults = [] ∧ s.mode = .run ∧ s.op = .runScript ∧ s.cfg.romBytes ≤ 65536 := by decide +kernel

end Witnesses

end Sys2Proof.Tests
end

section
/-! PROOFS. The statements of spec/00_scope.md. First what one step can come to, said once (`StepShape`), and which accesses
the bus allows, in numbers (`accessAllowed_iff`); then the statements that follow. -/

namespace Sys2Proof.Machine

/-! ### What one step can come to -/

/-- The parts of an operation that one step runs: a script's start, one script entry, or one whole other operation. -/
inductive StepPart : (State → Flow Unit) → Prop
  | start : StepPart startScript
  | term : StepPart finish
  | cmd (opc : Byte) (args : List Byte) : StepPart (runCmd opc args)
  | cmdDly (opc : Byte) (args : List Byte) (dly : Byte) : StepPart (runCmdDly opc args dly)
  | overrun (e : DecodeError) : StepPart (runOverrun e)
  | convert : StepPart convertBody
  | ramWrite : StepPart beginRamWriteBody
  | sendFrame : StepPart sendFrameBody

/-- The states one step from `s` can end in; `l` is what the host has left to do. -/
inductive StepShape (s : State) : State → Prop
  /-- An idle or halted DSEQ with nothing to do. -/
  | still (l : List HostEvent) (hl : l <:+ s.host) (hm : s.mode ≠ .run) : StepShape s (setHost l s)
  /-- A poll of an idle or halted DSEQ. -/
  | polled (l : List HostEvent) (hl : l <:+ s.host) (hm : s.mode ≠ .run) :
      StepShape s (respond (.data (statusWord s)) (setHost l s))
  | reset (l : List HostEvent) (hl : s.host = .reset :: l) : StepShape s (assertReset (setHost l s))
  | access (a : Access) (l : List HostEvent) (hl : s.host = .access a :: l) : StepShape s (hostAccess a (setHost l s))
  /-- A CMD write that is rejected (R96). -/
  | rejected (l : List HostEvent) (hl : l <:+ s.host) : StepShape s (rejectCmd (setHost l s))
  /-- The sequencer's move in a running operation. -/
  | moved (l : List HostEvent) (hl : l <:+ s.host) (hm : s.mode = .run) {f : State → Flow Unit} (hf : StepPart f) :
      StepShape s (f (setHost l s)).state
  /-- A CMD write that is accepted (R96). -/
  | accepted (l : List HostEvent) (hl : l <:+ s.host) (hm : s.mode = .idle) (op : HostOp) {f : State → Flow Unit}
      (hf : StepPart f) : StepShape s (f (acceptCmd op (setHost l s))).state

/-- A CMD write with an operation's code starts the operation in IDLE and is rejected otherwise (R96). -/
theorem hostWriteCmd_cases (op : HostOp) {body : State → Flow Unit} (hbody : StepPart body) (s : State) :
    hostWriteCmd op body s = rejectCmd s ∨
      s.mode = .idle ∧ ∃ op' f, StepPart f ∧ hostWriteCmd op body s = (f (acceptCmd op' s)).state := by
  unfold hostWriteCmd
  split
  · exact .inl rfl
  · exact .inl rfl
  · rename_i hm; exact .inr ⟨hm, op, body, hbody, rfl⟩

/-- A word written to CMD is rejected, or it starts an operation in IDLE. -/
theorem exec_decodeHostOp_cases (w : Word) (s : State) :
    ∃ t, exec (decodeHostOp w) s = .next t ∧
      (t = rejectCmd s ∨ s.mode = .idle ∧ ∃ op f, StepPart f ∧ t = (f (acceptCmd op s)).state) := by
  unfold decodeHostOp
  split
  · exact ⟨_, rfl, hostWriteCmd_cases .runScript .start s⟩
  split
  · exact ⟨_, rfl, hostWriteCmd_cases .convertFrame .convert s⟩
  split
  · exact ⟨_, rfl, hostWriteCmd_cases .beginRamWrite .ramWrite s⟩
  split
  · exact ⟨_, rfl, hostWriteCmd_cases .sendFrame .sendFrame s⟩
  · exact ⟨_, rfl, .inl rfl⟩

/-- What the script decoder reads is a script entry, never a host operation (R52). -/
theorem decodeScript_entry {bytes rest : List Byte} {i : Instr} (h : decodeScript bytes = .ok (i, rest)) :
    i = .term ∨ (∃ opc args, i = .cmd opc args) ∨ ∃ opc args dly, i = .cmdDly opc args dly := by
  unfold decodeScript at h
  split at h
  · cases h
  split at h
  · cases h; exact .inl rfl
  split at h
  · cases h
  split at h
  · cases h
  split at h
  · split at h
    · cases h
    · cases h; exact .inr (.inr ⟨_, _, _, rfl⟩)
  · cases h; exact .inr (.inl ⟨_, _, rfl⟩)

/-- The next entry of a script is run as one part. -/
theorem nextEntry_part (s : State) : ∃ f, StepPart f ∧ nextEntry s = .next (f s).state := by
  unfold nextEntry
  split
  · rename_i i rest h
    rcases decodeScript_entry h with rfl | ⟨opc, args, rfl⟩ | ⟨opc, args, dly, rfl⟩
    · exact ⟨_, .term, rfl⟩
    · exact ⟨_, .cmd opc args, rfl⟩
    · exact ⟨_, .cmdDly opc args dly, rfl⟩
  · exact ⟨_, .overrun _, rfl⟩

/-- While no operation runs the sequencer makes no move (R31, R32). -/
theorem advance_stopped {s : State} (hm : s.mode ≠ .run) : advance s = .next s := by
  unfold advance
  split
  · rfl
  · rfl
  · rename_i h; exact absurd h hm

/-- While an operation runs the sequencer's move is one part of it. -/
theorem advance_running {s : State} (hm : s.mode = .run) : ∃ f, StepPart f ∧ advance s = .next (f s).state := by
  simp only [advance, hm]
  split
  · exact nextEntry_part s
  · exact ⟨_, .convert, rfl⟩
  · exact ⟨_, .ramWrite, rfl⟩
  · exact ⟨_, .sendFrame, rfl⟩

/-- Every move of the sequencer is one of the shapes. -/
theorem StepShape.of_advance {s t : State} {l : List HostEvent} (hl : l <:+ s.host)
    (h : advance (setHost l s) = .next t) : StepShape s t := by
  by_cases hm : s.mode = .run
  · obtain ⟨f, hf, hadv⟩ := advance_running (s := setHost l s) hm
    cases hadv.symm.trans h
    exact .moved l hl hm hf
  · cases (advance_stopped (s := setHost l s) hm).symm.trans h
    exact .still l hl hm

/-- Every access the host makes between two moves is one of the shapes. -/
theorem StepShape.of_hostStep {s t : State} {a : Access} {l : List HostEvent} (hl : s.host = .access a :: l)
    (h : hostStep a (setHost l s) = .next t) : StepShape s t := by
  have hsuf : l <:+ s.host := hl ▸ List.suffix_cons _ l
  unfold hostStep at h
  split at h
  · rename_i w _
    obtain ⟨t', hexec, hcases⟩ := exec_decodeHostOp_cases w (setHost l s)
    cases hexec.symm.trans h
    rcases hcases with rfl | ⟨hm, op, f, hf, rfl⟩
    · exact .rejected l hsuf
    · exact .accepted l hsuf hm op hf
  · cases h
    exact .access a l hl

/-- With no model fault recorded a step is the host's next act or the sequencer's move. -/
theorem step_of_noFault {s : State} (h : s.faults = []) : step s = stepCore s := by
  simp only [step, h]

/-- Every step that answers is one of the shapes. -/
theorem step_shape {s t : State} (h : step s = .next t) : StepShape s t := by
  have hcore : stepCore s = .next t := by
    unfold step at h
    split at h
    · cases h
    · exact h
  unfold stepCore at hcore
  split at hcore
  · exact .of_advance (List.suffix_refl s.host) hcore
  · rename_i l hhost
    exact .of_advance (hhost ▸ List.suffix_cons _ l) hcore
  · rename_i l hhost
    split at hcore
    · exact .of_advance (List.suffix_refl s.host) hcore
    · rename_i hbusy
      cases hcore
      exact .polled l (hhost ▸ List.suffix_cons _ l) (by simpa [busy] using hbusy)
  · rename_i l hhost
    cases hcore
    exact .reset l hhost
  · rename_i a l hhost
    exact .of_hostStep hhost hcore

/-! ### Parameters and trace along a step -/

/-- `t` comes after `s` in a run: the parameters are the same and, where the host asked for no reset, the trace of `s` is the
beginning of that of `t`. -/
structure Follows (s t : State) : Prop where
  cfg : t.cfg = s.cfg
  noReset : HostEvent.reset ∉ s.host → HostEvent.reset ∉ t.host
  trace : HostEvent.reset ∉ s.host → s.trace <+: t.trace

namespace Follows

variable {s t u : State}

theorem refl (s : State) : Follows s s := ⟨rfl, id, fun _ => List.prefix_refl _⟩

/-- An update of neither the parameters nor the host's program, which adds to the trace at most. -/
theorem update (h : Follows s t) (hcfg : u.cfg = t.cfg) (hhost : u.host = t.host) (htrace : t.trace <+: u.trace) :
    Follows s u :=
  ⟨hcfg.trans h.cfg, fun hr => hhost ▸ h.noReset hr, fun hr => (h.trace hr).trans htrace⟩

/-- An update that leaves parameters, host's program and trace alone. -/
theorem frame (h : Follows s t) (hcfg : u.cfg = t.cfg) (hhost : u.host = t.host) (htrace : u.trace = t.trace) :
    Follows s u :=
  h.update hcfg hhost (htrace ▸ List.prefix_refl _)

theorem setHost (h : Follows s t) {l : List HostEvent} (hl : l <:+ t.host) : Follows s (setHost l t) :=
  ⟨h.cfg, fun hr hmem => h.noReset hr (hl.subset hmem), h.trace⟩

/-- A reset empties the trace, but then the host asked for it. -/
theorem assertReset (h : Follows s t) (hmem : HostEvent.reset ∈ t.host) (l : List HostEvent) :
    Follows s (assertReset (Machine.setHost l t)) :=
  ⟨h.cfg, fun hr => absurd hmem (h.noReset hr), fun hr => absurd hmem (h.noReset hr)⟩

end Follows

/-- A register write adds to the trace at most. -/
theorem writeReg_trace_prefix (r : Reg) (v : Word) (s : State) : s.trace <+: (writeReg r v s).trace := by
  cases r with
  | gpioOe => exact List.prefix_append _ _
  | gpioOut => exact List.prefix_append _ _
  | _ => exact List.prefix_refl _

/-- A host access adds to the trace at most. -/
theorem hostAccess_trace_prefix (a : Access) (s : State) : s.trace <+: (hostAccess a s).trace := by
  rcases hostAccess_cases a s with h | h | ⟨r, v, h⟩ | ⟨r, h⟩ | ⟨off, bytes, _, h⟩ | h
  · rw [h]; exact List.prefix_refl _
  · rw [h]; exact List.prefix_refl _
  · rw [h]; exact writeReg_trace_prefix r v s
  · rw [h]; exact List.prefix_refl _
  · rw [h]
  · rw [h]

theorem Follows.hostAccess {s t : State} (h : Follows s t) (a : Access) : Follows s (hostAccess a t) :=
  h.update (hostAccess_cfg a t) (hostAccess_host a t) (hostAccess_trace_prefix a t)

/-- The host's turn, served from any end of its program. -/
theorem Follows.serveHost {s t : State} (h : Follows s t) {l : List HostEvent} (hl : l <:+ t.host) :
    Ensures (serveHost t l) (fun _ => Follows s) (Follows s) := by
  induction l generalizing t with
  | nil => exact h.setHost hl
  | cons e l ih =>
    have hrest : l <:+ t.host := (List.suffix_cons e l).trans hl
    cases e with
    | pass => exact h.setHost hrest
    | poll => exact h.setHost hl
    | reset => exact h.assertReset (hl.subset List.mem_cons_self) l
    | access a =>
      simp only [Machine.serveHost]
      split
      · exact (h.setHost hrest).hostAccess a
      · exact ih (h.hostAccess a) ((hostAccess_host a t).symm ▸ hrest)

theorem Follows.hostTurn {s t : State} (h : Follows s t) : Ensures (hostTurn t) (fun _ => Follows s) (Follows s) :=
  h.serveHost (List.suffix_refl t.host)

/-- The rules of Flow.lean for what follows a state: only D/C, an attempt, a wait and a fatal error add events. -/
theorem follows_frameRules (s : State) : FrameRules (Follows s) (Follows s) (Follows s) (Follows s) where
  turn _ h := h.hostTurn
  turnAttempt _ h := h.hostTurn
  turnWait _ h := h.hostTurn
  beginAttempt _ _ h := h.frame rfl rfl rfl
  endAttempt _ _ _ _ _ h := h.update rfl rfl (List.prefix_append _ _)
  startWait _ _ h := h.update rfl rfl (List.prefix_append _ _)
  endWait _ h := h.frame rfl rfl rfl
  pin _ _ h := h.update rfl rfl (List.prefix_append _ _)
  fatal _ _ _ h := h.update rfl rfl (List.prefix_append _ _)
  fatalByte _ _ _ _ h := h.update rfl rfl (List.prefix_append _ _)
  pointer _ _ h := h.frame rfl rfl rfl
  header _ _ _ h := h.frame rfl rfl rfl
  index _ _ h := h.frame rfl rfl rfl
  unwritten _ h := h.frame rfl rfl rfl
  start _ h := h.frame rfl rfl rfl
  block _ _ _ h := h.frame rfl rfl rfl
  count _ h := h.frame rfl rfl rfl

/-- CONVERT_FRAME adds no event. -/
theorem follows_convertRules (s : State) : ConvertRules s.cfg.pixels (Follows s) (Follows s) where
  pixels _ h := by rw [h.cfg]
  turn _ h := h.hostTurn
  pixel _ _ h := h.frame rfl rfl rfl
  unwritten _ h := h.frame rfl rfl rfl
  sums _ _ h := h.frame rfl rfl rfl
  lut x t h := h.frame (buildLut_cfg x t) (buildLut_host x t) (buildLut_trace x t)
  store _ _ _ _ h := h.frame rfl rfl rfl

/-- Every part of an operation ends in a state that follows. -/
theorem StepPart.follows {f : State → Flow Unit} (hf : StepPart f) {s t : State} (h : Follows s t) :
    Follows s (f t).state := by
  have rules := follows_frameRules s
  have hend : ∀ t, Follows s t → Follows s (endOperation t) := fun _ h => h.frame rfl rfl rfl
  have hflow : Ensures (f t) (fun _ => Follows s) (Follows s) := by
    cases hf with
    | start => exact rules.startScript h
    | term => exact rules.finish hend h
    | cmd opc args => exact rules.runCmd opc args h
    | cmdDly opc args dly => exact rules.runCmdDly opc args dly h
    | overrun e => exact rules.runOverrun e h
    | convert => exact (follows_convertRules s).convertBody hend h
    | ramWrite => exact rules.beginRamWriteBody hend h
    | sendFrame => exact rules.sendFrameBody hend h
  exact hflow.state (fun _ _ h => h) fun _ h => h

theorem step_follows {s t : State} (h : step s = .next t) : Follows s t := by
  have hself := Follows.refl s
  cases step_shape h with
  | still l hl _ => exact hself.setHost hl
  | polled l hl _ => exact (hself.setHost hl).frame rfl rfl rfl
  | reset l hl => exact hself.assertReset (hl ▸ List.mem_cons_self) l
  | access a l hl => exact (hself.setHost (hl ▸ List.suffix_cons _ l)).hostAccess a
  | rejected l hl => exact (hself.setHost hl).frame rfl rfl rfl
  | moved l hl _ hf => exact hf.follows (hself.setHost hl)
  | accepted l hl _ op hf => exact hf.follows ((hself.setHost hl).frame rfl rfl rfl)

/-- Settles O56: what one step ends in follows its start, so it has the same parameters. -/
theorem stepKeepsParameters : Obligations.StepKeepsParameters := fun _ _ h => (step_follows h).cfg

/-- Settles O58: what one step ends in follows its start, so without a reset its trace begins with the one before. -/
theorem traceOnlyGrows : Obligations.TraceOnlyGrows := fun _ _ hreset h => by
  obtain ⟨new, hnew⟩ := (step_follows h).trace hreset
  exact ⟨new, hnew.symm⟩

/-- Settles O10, by the host's next act and what the sequencer does while no operation runs. -/
theorem stepServesHost : Obligations.StepServesHost := by
  intro s more hfaults
  rw [step_of_noFault hfaults]
  refine ⟨fun a hcmd hhost => ?_, fun hm hhost => ?_, fun hm hhost => ?_, fun hm hhost => ?_⟩
  · simp only [stepCore, hhost, hostStep, hcmd]
  · simp [stepCore, hhost, busy, hm]
  · simp only [stepCore, hhost, advance_stopped hm]
  · simp only [stepCore, hhost]
    exact advance_stopped (s := setHost more s) hm

/-! ### Bus errors -/

/-- The bounds of R6 on the sizes of the windows. -/
theorem sizes_of_wf {p : Params} (hp : p.wf = true) :
    p.rawBytes ≤ 0x100000 ∧ p.fbBytes ≤ 0x100000 ∧ p.romBytes ≤ 65536 := by
  simp only [Params.wf, Bool.and_eq_true, decide_eq_true_eq] at hp
  omega

theorem widthBytes_pos (w : Width) : 0 < widthBytes w := by cases w <;> decide

/-- The access's bytes lie in the `size` bytes from address `base` on. -/
def accessWithin (a : Access) (base size : Nat) : Prop :=
  base ≤ (accessAddr a).toNat ∧ (accessAddr a).toNat + widthBytes (accessWidth a) ≤ base + size

/-- The accesses the bus allows, in numbers (R38, R39, R40). With the sizes of R6 the windows do not overlap. -/
theorem accessAllowed_iff {p : Params} (hp : p.wf = true) (a : Access) :
    accessAllowed p a = true ↔
      (accessAddr a).toNat % widthBytes (accessWidth a) = 0 ∧
        (((accessAddr a).toNat < 0x1000 ∧ accessWidth a = .w32) ∨ accessWithin a 0x100000 p.rawBytes
          ∨ (isWrite a = false ∧ (accessWithin a 0x200000 p.fbBytes ∨ accessWithin a 0x300000 p.romBytes))) := by
  obtain ⟨hraw, hfb, hrom⟩ := sizes_of_wf hp
  have hpos := widthBytes_pos (accessWidth a)
  simp only [accessAllowed, aligned, Bool.and_eq_true, decide_eq_true_eq]
  refine and_congr_right fun _ => ?_
  unfold regionOf accessWithin
  generalize (accessAddr a).toNat = x
  generalize widthBytes (accessWidth a) = n at hpos
  generalize isWrite a = write
  by_cases h1 : x < 0x1000
  · simp only [if_pos h1, decide_eq_true_eq]
    grind
  by_cases h2 : 0x100000 ≤ x ∧ x < 0x100000 + p.rawBytes
  · simp only [if_neg h1, if_pos h2, decide_eq_true_eq]
    grind
  by_cases h3 : 0x200000 ≤ x ∧ x < 0x200000 + p.fbBytes
  · simp only [if_neg h1, if_neg h2, if_pos h3, Bool.and_eq_true, Bool.not_eq_true', decide_eq_true_eq]
    grind
  by_cases h4 : 0x300000 ≤ x ∧ x < 0x300000 + p.romBytes
  · simp only [if_neg h1, if_neg h2, if_neg h3, if_pos h4, Bool.and_eq_true, Bool.not_eq_true', decide_eq_true_eq]
    grind
  · simp only [if_neg h1, if_neg h2, if_neg h3, if_neg h4, Bool.false_eq_true]
    grind

/-- An access the bus does not allow: the error response and the model fault, and nothing else (R39). -/
theorem hostAccess_busError {a : Access} {s : State} (h : accessAllowed s.cfg a ≠ true) :
    hostAccess a s = recordFault .busErr (respond .busError s) := by
  simp [hostAccess, h]

/-- Settles O43: the bus's own test is the stated one, for parameters that meet R6. -/
theorem busErrors : Obligations.BusErrors := by
  intro a s hwf x n pixels inside allowed
  have hiff : accessAllowed s.cfg a = true ↔ allowed := accessAllowed_iff hwf a
  exact ⟨hiff.mpr, fun hnot => hostAccess_busError fun hallowed => hnot (hiff.mp hallowed)⟩

end Sys2Proof.Machine
end

section
/-! PROOFS. The statements of spec/10_state.md. First the invariant: what holds inside a running operation (`Running`), that
every part of an operation ends with the invariant, and that every step keeps it; then the operations accepted in IDLE, the
sequencer's reads of unwritten bytes, and the host's registers and windows. -/

namespace Sys2Proof.Machine

/-! ### The invariant of memory, status and link -/

/-- What the invariant says of memory and status rests on these fields alone. -/
def invFields (s : State) : Params × Memory × Memory × Mode × Bool × FatalCause :=
  (s.cfg, s.raw, s.fb, s.mode, s.done, s.fatalCause)

/-- CS_N is deasserted, SCLK low, and no wait is in progress (R66, R105). -/
def LinkIdle (s : State) : Prop := s.csN = true ∧ s.sclk = false ∧ s.timer = none

/-- An attempt may be in progress. -/
def LinkInBurst (s : State) : Prop := s.sclk = false ∧ s.timer = none

/-- A wait may be in progress. -/
def LinkWaiting (s : State) : Prop := s.csN = true ∧ s.sclk = false

/-- What holds inside an operation under the parameters `c`, with the link as `L` says: DONE is 0, no fatal error has been
taken, and the memories are within their sizes. -/
structure Running (c : Params) (L : State → Prop) (s : State) : Prop where
  cfg : s.cfg = c
  memory : MemoryInv s
  mode : s.mode = .run
  done : s.done = false
  cause : s.fatalCause = .none
  link : L s

/-- An update of none of the fields that memory and status rest on. -/
theorem Running.update {c : Params} {L L' : State → Prop} {s t : State} (h : Running c L s)
    (hf : invFields t = invFields s) (hl : L' t) : Running c L' t := by
  simp only [invFields, Prod.mk.injEq] at hf
  obtain ⟨hcfg, hraw, hfb, hmode, hdone, hcause⟩ := hf
  obtain ⟨cfg, memory, mode, done, cause, _⟩ := h
  refine ⟨hcfg.trans cfg, ?_, hmode.trans mode, hdone.trans done, hcause.trans cause, hl⟩
  rw [MemoryInv, hcfg, hraw, hfb]
  exact memory

/-- A host access writes RAW inside its window only, and FB not at all. -/
theorem MemoryInv.hostAccess {s : State} (h : MemoryInv s) (a : Access) : MemoryInv (hostAccess a s) := by
  obtain ⟨wfRaw, wfFb, belowRaw, belowFb⟩ := h
  rw [MemoryInv, hostAccess_cfg, hostAccess_fb]
  rcases hostAccess_raw a s with hraw | ⟨off, bytes, hin, hraw⟩
  · rw [hraw]
    exact ⟨wfRaw, wfFb, belowRaw, belowFb⟩
  · rw [hraw]
    exact ⟨memWriteBytes_wf off bytes wfRaw, wfFb, memWriteBytes_below off bytes belowRaw hin, belowFb⟩

/-- The two bytes of a pixel of the frame lie within FB. -/
theorem MemoryInv.storePixel {s : State} (h : MemoryInv s) {k : Nat} (hk : k < s.cfg.pixels) (w : Pixel) :
    MemoryInv (storePixel k w s) := by
  obtain ⟨wfRaw, wfFb, belowRaw, belowFb⟩ := h
  have hsize : 2 * k + 1 < s.cfg.fbBytes := by unfold Params.fbBytes; omega
  exact ⟨wfRaw, memWrite_wf _ _ (memWrite_wf _ _ wfFb), belowRaw,
    memWrite_below (bound := s.cfg.fbBytes) _ _ (memWrite_below _ _ belowFb (by omega)) hsize⟩

/-- The reset state meets the invariant, for every choice of the parameters. -/
theorem inv_resetWith (p : Params) : Inv (State.resetWith p) :=
  ⟨⟨rfl, rfl, fun _ h => absurd h List.not_mem_nil, fun _ h => absurd h List.not_mem_nil⟩,
    ⟨fun _ => rfl, by simp [State.resetWith]⟩, fun _ => ⟨rfl, rfl, rfl⟩⟩

theorem inv_assertReset (s : State) : Inv (assertReset s) := by
  obtain ⟨memory, status, _⟩ := inv_resetWith s.cfg
  exact ⟨memory, status, fun _ => ⟨rfl, rfl, rfl⟩⟩

/-- A host access keeps the invariant: it can clear DONE but not set it, and touches neither MODE nor the link. -/
theorem Inv.hostAccess {s : State} (h : Inv s) (a : Access) : Inv (hostAccess a s) := by
  obtain ⟨memory, ⟨hdone, hcause⟩, hlink⟩ := h
  refine ⟨memory.hostAccess a, ⟨fun hm => ?_, ?_⟩, fun hz => ?_⟩
  · exact hostAccess_done (hdone (by simpa using hm))
  · simpa using hcause
  · simpa using hlink fun hmem => hz (mem_hostAccess_faults hmem)

namespace Running

variable {c : Params} {L : State → Prop} {s : State}

/-- A host access keeps what holds inside an operation. -/
theorem hostAccess (h : Running c L s) (a : Access) (hl : L (hostAccess a s)) : Running c L (hostAccess a s) where
  cfg := by simpa using h.cfg
  memory := h.memory.hostAccess a
  mode := by simpa using h.mode
  done := hostAccess_done h.done
  cause := by simpa using h.cause
  link := hl

/-- An operation that goes on meets the invariant between two steps. -/
theorem inv (h : Running c LinkIdle s) : Inv s :=
  ⟨h.memory, ⟨fun _ => h.done, by simp [h.cause, h.mode]⟩, fun _ => h.link⟩

/-- Where a hazard stops an operation nothing is said of the link. -/
theorem inv_hazard (h : Running c L s) : Inv (recordFault .hazard s) := by
  refine ⟨h.memory, ⟨fun _ => h.done, ?_⟩, fun hz => absurd (mem_recordFault_self _ s) hz⟩
  simp [h.cause, h.mode]

/-- The host's turn, for a condition on the link that its accesses keep. -/
theorem hostTurn (h : Running c L s) (haccess : ∀ a s, L s → L (Machine.hostAccess a s))
    (hrest : ∀ l s, L s → L (setHost l s)) : Ensures (hostTurn s) (fun _ => Running c L) Inv :=
  hostTurn_ensures (fun a s hs _ => hs.hostAccess a (haccess a s hs.link))
    (fun l s hs => hs.update rfl (hrest l s hs.link)) (fun s _ => inv_assertReset s)
    (fun _ _ hs _ _ => hs.inv_hazard) h

/-- The host's accesses do not reach the link. -/
theorem hostTurn_idle (h : Running c LinkIdle s) : Ensures (Machine.hostTurn s) (fun _ => Running c LinkIdle) Inv :=
  h.hostTurn (fun a s hl => by simpa [LinkIdle] using hl) fun _ _ hl => hl

/-- A fatal error has a cause, and ends the operation in FATAL_HALT with DONE at 0 (R98). -/
theorem inv_raiseFatal (h : Running c LinkIdle s) {cause : FatalCause} (hc : cause ≠ .none) :
    Inv (raiseFatal cause s) :=
  ⟨h.memory, ⟨fun _ => h.done, fun _ => rfl, fun _ => hc⟩, fun _ => h.link⟩

/-- The normal end of an operation. -/
theorem inv_endOperation (h : Running c LinkIdle s) : Inv (endOperation s) :=
  ⟨h.memory, ⟨fun hm => absurd rfl hm, by simp [h.cause]⟩, fun _ => h.link⟩

end Running

/-- The rules of Flow.lean for what holds inside an operation. -/
theorem running_frameRules (c : Params) :
    FrameRules (Running c LinkIdle) (Running c LinkInBurst) (Running c LinkWaiting) Inv where
  turn _ h := h.hostTurn_idle
  turnAttempt _ h := h.hostTurn (fun a s hl => by simpa [LinkInBurst] using hl) fun _ _ hl => hl
  turnWait _ h := h.hostTurn (fun a s hl => by simpa [LinkWaiting] using hl) fun _ _ hl => hl
  beginAttempt _ _ h := h.update rfl h.link.2
  endAttempt _ _ _ _ _ h := h.update rfl ⟨rfl, rfl, h.link.2⟩
  startWait _ _ h := h.update rfl ⟨h.link.1, h.link.2.1⟩
  endWait _ h := h.update rfl ⟨h.link.1, h.link.2, rfl⟩
  pin _ _ h := h.update rfl h.link
  fatal _ _ hc h := h.inv_raiseFatal hc
  fatalByte _ _ _ hc h := Running.inv_raiseFatal (h.update rfl h.link) hc
  pointer _ _ h := h.update rfl h.link
  header _ _ _ h := h.update rfl h.link
  index _ _ h := h.update rfl h.link
  unwritten _ h := h.update rfl h.link
  start _ h := h.update rfl h.link
  block _ _ _ h := h.update rfl h.link
  count _ h := h.update rfl h.link

/-- CONVERT_FRAME stores pixels of the frame only. -/
theorem running_convertRules (c : Params) : ConvertRules c.pixels (Running c LinkIdle) Inv where
  pixels _ h := by rw [h.cfg]
  turn _ h := h.hostTurn_idle
  pixel _ _ h := h.update rfl h.link
  unwritten _ h := h.update rfl h.link
  sums _ _ h := h.update rfl h.link
  lut _ _ h := h.update (by simp [invFields]) (by simpa [LinkIdle] using h.link)
  store _ w _ hk h := ⟨h.cfg, h.memory.storePixel (h.cfg ▸ hk) w, h.mode, h.done, h.cause, h.link⟩

/-- Every part of an operation ends with the invariant, or goes on in the running operation. -/
theorem StepPart.inv {f : State → Flow Unit} (hf : StepPart f) {c : Params} {s : State} (h : Running c LinkIdle s) :
    Inv (f s).state := by
  have rules := running_frameRules c
  have hend : ∀ t, Running c LinkIdle t → Inv (endOperation t) := fun _ h => h.inv_endOperation
  cases hf with
  | start => exact (rules.startScript h).state (fun _ _ h => h.inv) fun _ h => h
  | term => exact (rules.finish hend h).state (fun _ _ h => h) fun _ h => h
  | cmd opc args => exact (rules.runCmd opc args h).state (fun _ _ h => h.inv) fun _ h => h
  | cmdDly opc args dly => exact (rules.runCmdDly opc args dly h).state (fun _ _ h => h.inv) fun _ h => h
  | overrun e => exact (rules.runOverrun e h).state (fun _ _ h => h.inv) fun _ h => h
  | convert => exact ((running_convertRules c).convertBody hend h).state (fun _ _ h => h) fun _ h => h
  | ramWrite => exact (rules.beginRamWriteBody hend h).state (fun _ _ h => h) fun _ h => h
  | sendFrame => exact (rules.sendFrameBody hend h).state (fun _ _ h => h) fun _ h => h

/-- A step that answers begins with no model fault recorded. -/
theorem faults_of_step {s t : State} (h : step s = .next t) : s.faults = [] := by
  unfold step at h
  split at h
  · cases h
  · assumption

/-- Settles O54: between two moves the invariant is kept by each act of the host; an operation that goes on or begins is
`Running`, and each part of it ends with the invariant. -/
theorem stepKeepsInv : Obligations.StepKeepsInv := by
  intro s t hinv h
  have hfaults := faults_of_step h
  obtain ⟨memory, ⟨hdone, hcause⟩, hlink⟩ := id hinv
  have hidle : LinkIdle s := hlink (by simp [hfaults])
  cases step_shape h with
  | still l _ _ => exact hinv
  | polled l _ _ => exact hinv
  | reset l _ => exact inv_assertReset _
  | access a l _ => exact Inv.hostAccess (s := setHost l s) hinv a
  | rejected l _ => exact hinv
  | moved l _ hm hf =>
    have hnone : s.fatalCause = .none := by simpa [hm] using hcause
    exact hf.inv (c := s.cfg) ⟨rfl, memory, hm, hdone (by simp [hm]), hnone, hidle⟩
  | accepted l _ hm op hf =>
    have hnone : s.fatalCause = .none := by simpa [hm] using hcause
    exact hf.inv (c := s.cfg) ⟨rfl, memory, rfl, rfl, hnone, hidle⟩

/-- Settles O55: the memories are empty, no cause is named, and the link is idle. -/
theorem resetInv : Obligations.ResetInv := inv_resetWith

/-! ### Operations accepted in IDLE -/

/-- The low four bits of a word are those it was put together from. -/
theorem hostOpField_append (upper : BitVec 28) (op : BitVec 4) : hostOpField (upper ++ op) = op :=
  BitVec.extractLsb'_append_eq_right

/-- Settles O5: the decoder looks at the low four bits only. -/
theorem hostOpFromLowBits : Obligations.HostOpFromLowBits := fun upper op => by
  simp only [decodeHostOp, hostOpField_append]

/-- In IDLE a CMD write with an operation's code starts it (R96). -/
theorem hostWriteCmd_idle {op : HostOp} {body : State → Flow Unit} {s : State} (hm : s.mode = .idle) :
    hostWriteCmd op body s = (body (acceptCmd op s)).state := by
  simp only [hostWriteCmd, hm]

/-- Settles O26: RUN_SCRIPT is accepted, and with a nonzero speed its start changes nothing more. -/
theorem runScriptStarts : Obligations.RunScriptStarts := fun s hm hspeed => by
  have hstart : startScript (acceptCmd .runScript s) = .go () (acceptCmd .runScript s) := if_neg hspeed
  simp only [exec, execRunScript, hostWriteCmd_idle hm, hstart, state_go]
  rfl

/-- An operation whose body raises Fatal(CFG) at once ends there. -/
theorem hostWriteCmd_cfg {op : HostOp} {body : State → Flow Unit} {s : State} (hm : s.mode = .idle)
    (hbody : body (acceptCmd op s) = .stop (raiseFatal .cfg (acceptCmd op s))) :
    hostWriteCmd op body s = raiseFatal .cfg (acceptCmd op s) := by
  rw [hostWriteCmd_idle hm, hbody, state_stop]

/-- Settles O27: each of the three operations tests its speed before anything else. -/
theorem zeroSpeedIsCfgFatal : Obligations.ZeroSpeedIsCfgFatal := by
  rintro i op s hm (⟨rfl, rfl, hspeed⟩ | ⟨rfl, rfl, hspeed⟩ | ⟨rfl, rfl, hspeed⟩)
  · exact congrArg Host.Outcome.next (hostWriteCmd_cfg (body := startScript) hm (if_pos hspeed))
  · exact congrArg Host.Outcome.next (hostWriteCmd_cfg (body := beginRamWriteBody) hm (if_pos hspeed))
  · exact congrArg Host.Outcome.next (hostWriteCmd_cfg (body := sendFrameBody) hm (if_pos hspeed))

/-! ### The sequencer's reads of unwritten bytes -/

theorem recordFault_recordFault (f : Fault) (s : State) : recordFault f (recordFault f s) = recordFault f s := by
  have h := mem_recordFault_self f s
  unfold recordFault at h ⊢
  rw [if_pos h]

/-- A sequencer read either finds its byte written, or records UNINIT_READ; it does nothing else (R36). -/
theorem seqRead_cases (free : Nat → Byte) (m : Memory) (a : Nat) (s : State) :
    (memRead m a ≠ none ∧ (seqRead free m a s).2 = s) ∨ (seqRead free m a s).2 = recordFault .uninitRead s := by
  by_cases h : memRead m a = none
  · exact .inr (by rw [seqRead_unwritten h])
  · exact .inl ⟨h, by rw [seqRead_written h]⟩

/-- Once UNINIT_READ is recorded, a read changes nothing. -/
theorem seqRead_recorded (free : Nat → Byte) (m : Memory) (a : Nat) (s : State) :
    (seqRead free m a (recordFault .uninitRead s)).2 = recordFault .uninitRead s := by
  rcases seqRead_cases free m a (recordFault .uninitRead s) with ⟨_, h⟩ | h
  · exact h
  · exact h.trans (recordFault_recordFault _ s)

/-- Reading bytes of FB either finds each of them written, or records UNINIT_READ; it does nothing else. -/
theorem readFbBytes_cases (a count : Nat) (s : State) :
    ((∀ b, a ≤ b → b < a + count → memRead s.fb b ≠ none) ∧ (readFbBytes a count s).2 = s)
      ∨ (readFbBytes a count s).2 = recordFault .uninitRead s := by
  induction count generalizing a s with
  | zero => exact .inl ⟨fun b _ _ => by omega, rfl⟩
  | succ count ih =>
    simp only [readFbBytes, readFbByte]
    rcases seqRead_cases (unwrittenFb s) s.fb a s with ⟨hfirst, h⟩ | h
    · rw [h]
      refine (ih (a + 1) s).imp_left fun ⟨hrest, h⟩ => ⟨fun b hlo hhi => ?_, h⟩
      by_cases hb : b = a
      · exact hb ▸ hfirst
      · exact hrest b (by omega) (by omega)
    · rw [h]
      refine .inr ?_
      rcases ih (a + 1) (recordFault .uninitRead s) with ⟨_, h⟩ | h
      · exact h
      · exact h.trans (recordFault_recordFault _ s)

/-- Reading a pixel either finds its three bytes written, or records UNINIT_READ; it does nothing else. -/
theorem readPixel_cases (k : Nat) (s : State) :
    ((∀ a, 3 * k ≤ a → a < 3 * k + 3 → memRead s.raw a ≠ none) ∧ (readPixel k s).2 = s)
      ∨ (readPixel k s).2 = recordFault .uninitRead s := by
  simp only [readPixel, readRawByte]
  rcases seqRead_cases (unwrittenRaw s) s.raw (redOffset s.cfg.inOrder k) s with ⟨hred, h⟩ | h
  · rw [h]
    rcases seqRead_cases (unwrittenRaw s) s.raw (greenOffset k) s with ⟨hgreen, h⟩ | h
    · rw [h]
      refine (seqRead_cases (unwrittenRaw s) s.raw (blueOffset s.cfg.inOrder k) s).imp_left
        fun ⟨hblue, h⟩ => ⟨fun a hlo hhi => ?_, h⟩
      have ha : a = redOffset s.cfg.inOrder k ∨ a = greenOffset k ∨ a = blueOffset s.cfg.inOrder k := by
        cases s.cfg.inOrder <;> simp only [redOffset, greenOffset, blueOffset] <;> omega
      rcases ha with rfl | rfl | rfl
      · exact hred
      · exact hgreen
      · exact hblue
    · rw [h]
      exact .inr (seqRead_recorded _ _ _ s)
  · rw [h, seqRead_recorded]
    exact .inr (seqRead_recorded _ _ _ s)

/-- The host makes no further access, and UNINIT_READ is the one model fault recorded. -/
structure ReadUnwritten (c : Params) (s : State) : Prop where
  cfg : s.cfg = c
  host : s.host = []
  faults : s.faults = [.uninitRead]

namespace ReadUnwritten

variable {c : Params} {s t : State}

theorem frame (h : ReadUnwritten c s) (hcfg : t.cfg = s.cfg) (hhost : t.host = s.host) (hfaults : t.faults = s.faults) :
    ReadUnwritten c t :=
  ⟨hcfg.trans h.cfg, hhost.trans h.host, hfaults.trans h.faults⟩

theorem hostTurn (h : ReadUnwritten c s) :
    Ensures (hostTurn s) (fun _ => ReadUnwritten c) (ReadUnwritten c) := by
  rw [hostTurn_nil h.host]
  exact h

theorem recordFault (h : ReadUnwritten c s) : ReadUnwritten c (recordFault .uninitRead s) :=
  h.frame rfl rfl (by simp [h.faults])

/-- The first read of an unwritten byte in a run that has no model fault. -/
theorem of_recordFault (hcfg : s.cfg = c) (hhost : s.host = []) (hfaults : s.faults = []) :
    ReadUnwritten c (Machine.recordFault .uninitRead s) :=
  ⟨hcfg, hhost, by simp [hfaults]⟩

/-- The run stops at its next step (R102, R123). -/
theorem step (h : ReadUnwritten c s) : step s = .fault .uninitRead := by
  simp only [Machine.step, h.faults]

end ReadUnwritten

/-- Nothing the sequencer does without the host records another model fault or clears this one. -/
theorem readUnwritten_frameRules (c : Params) :
    FrameRules (ReadUnwritten c) (ReadUnwritten c) (ReadUnwritten c) (ReadUnwritten c) where
  turn _ h := h.hostTurn
  turnAttempt _ h := h.hostTurn
  turnWait _ h := h.hostTurn
  beginAttempt _ _ h := h.frame rfl rfl rfl
  endAttempt _ _ _ _ _ h := h.frame rfl rfl rfl
  startWait _ _ h := h.frame rfl rfl rfl
  endWait _ h := h.frame rfl rfl rfl
  pin _ _ h := h.frame rfl rfl rfl
  fatal _ _ _ h := h.frame rfl rfl rfl
  fatalByte _ _ _ _ h := h.frame rfl rfl rfl
  pointer _ _ h := h.frame rfl rfl rfl
  header _ _ _ h := h.frame rfl rfl rfl
  index _ _ h := h.frame rfl rfl rfl
  unwritten _ h := h.recordFault
  start _ h := h.frame rfl rfl rfl
  block _ _ _ h := h.frame rfl rfl rfl
  count _ h := h.frame rfl rfl rfl

theorem readUnwritten_convertRules (c : Params) : ConvertRules c.pixels (ReadUnwritten c) (ReadUnwritten c) where
  pixels _ h := by rw [h.cfg]
  turn _ h := h.hostTurn
  pixel _ _ h := h.frame rfl rfl rfl
  unwritten _ h := h.recordFault
  sums _ _ h := h.frame rfl rfl rfl
  lut x t h := h.frame (buildLut_cfg x t) (buildLut_host x t) (buildLut_faults x t)
  store _ _ _ _ h := h.frame rfl rfl rfl

/-- The statistics pass reads every pixel, so it finds the unwritten byte (R87). -/
theorem statsLoop_unwritten {a : Nat} (left k : Nat) (acc : Sums) {s : State} (hhost : s.host = [])
    (hfaults : s.faults = []) (ha : memRead s.raw a = none) (hlo : 3 * k ≤ a) (hhi : a < 3 * (k + left)) :
    Ensures (statsLoop left k acc s) (fun _ => ReadUnwritten s.cfg) (ReadUnwritten s.cfg) := by
  induction left generalizing k acc s with
  | zero => omega
  | succ left ih =>
    simp only [statsLoop, hostTurn_nil (show (setPixelIndex k s).host = [] from hhost), bind_go]
    rcases readPixel_cases k (setPixelIndex k s) with ⟨hwritten, hread⟩ | hread
    · have hnext : 3 * (k + 1) ≤ a := by
        by_contra hlt
        exact hwritten a hlo (by omega) ha
      rw [hread]
      exact ih (s := setPixelIndex k s) (k + 1) _ hhost hfaults ha hnext (by omega)
    · rw [hread]
      exact (readUnwritten_convertRules s.cfg).statsLoop left (k + 1) _
        (.of_recordFault (s := setPixelIndex k s) rfl hhost hfaults)

theorem convertBody_unwritten {a : Nat} {s : State} (hhost : s.host = []) (hfaults : s.faults = [])
    (ha : memRead s.raw a = none) (hin : a < s.cfg.rawBytes) :
    Ensures (convertBody s) (fun _ => ReadUnwritten s.cfg) (ReadUnwritten s.cfg) := by
  have rules := readUnwritten_convertRules s.cfg
  unfold Params.rawBytes at hin
  refine (statsLoop_unwritten s.cfg.pixels 0 _ hhost hfaults ha (by omega) (by omega)).bind fun sums t ht => ?_
  refine (rules.packLoop _ 0 ?_ (rules.lut sums _ (rules.sums sums t ht))).bind fun _ t ht => ?_
  · simp [ht.cfg]
  · exact (readUnwritten_frameRules s.cfg).finish (fun _ h => h.frame rfl rfl rfl) ht

/-- What the blocks of SEND_FRAME ask a transaction to leave alone. -/
def blockFields (s : State) : Params × Memory × Nat × List HostEvent × List Fault :=
  (s.cfg, s.fb, s.off, s.host, s.faults)

/-- A transaction without the host's accesses leaves the frame, OFF and the model faults alone. -/
theorem xfer_blockFields (bytes : List Byte) (speed : Word) {s : State} (hhost : s.host = []) :
    Ensures (xfer bytes speed s) (fun _ t => blockFields t = blockFields s) (fun _ => False) := by
  have turn : ∀ t, blockFields t = blockFields s →
      Ensures (hostTurn t) (fun _ t => blockFields t = blockFields s) (fun _ => False) := fun t ht => by
    have thost : t.host = s.host := by
      simp only [blockFields, Prod.mk.injEq] at ht
      obtain ⟨_, _, _, thost, _⟩ := ht
      exact thost
    rw [hostTurn_nil (thost.trans hhost)]
    exact ht
  have rules : LinkRules (fun t => blockFields t = blockFields s) (fun t => blockFields t = blockFields s)
      (fun t => blockFields t = blockFields s) (fun _ => False) :=
    ⟨turn, turn, turn, fun _ _ h => h, fun _ _ _ _ _ h => h, fun _ _ h => h, fun _ h => h⟩
  exact rules.xfer bytes speed rfl

/-- The blocks of a frame cover FB, so one of them holds the unwritten byte (R81, R82). -/
theorem blockLoop_unwritten {c : Params} {a : Nat} (left : Nat) {s : State} (hcfg : s.cfg = c) (hhost : s.host = [])
    (hfaults : s.faults = []) (ha : memRead s.fb a = none) (hin : a < c.fbBytes) (hlo : s.off ≤ a)
    (hhi : a < s.off + 4096 * left) : Ensures (blockLoop left s) (fun _ => ReadUnwritten c) (ReadUnwritten c) := by
  have rules := readUnwritten_frameRules c
  induction left generalizing s with
  | zero => omega
  | succ left ih =>
    simp only [blockLoop]
    rcases readFbBytes_cases s.off (blockLength s.cfg s.off) s with ⟨hwritten, hread⟩ | hread
    · have hlater : s.off + blockLength s.cfg s.off ≤ a := by
        by_contra hlt
        exact hwritten a hlo (by omega) ha
      have hfull : blockLength s.cfg s.off = 4096 := by
        rw [hcfg] at hlater ⊢
        unfold blockLength Config.blockBytes at hlater ⊢
        omega
      rw [hread]
      refine ((xfer_blockFields _ _ hhost).mono (fun _ _ h => h) fun _ h => h.elim).bind fun ok t ht => ?_
      simp only [blockFields, Prod.mk.injEq] at ht
      obtain ⟨tcfg, tfb, toff, thost, tfaults⟩ := ht
      rw [hostTurn_nil (thost.trans hhost), bind_go]
      refine ih (s := endBlock ok _ t) (tcfg.trans hcfg) (thost.trans hhost) (tfaults.trans hfaults) ?_ ?_ ?_
      · simpa [tfb] using ha
      · simp; omega
      · simp; omega
    · rw [hread]
      refine (rules.xfer _ _ (.of_recordFault hcfg hhost hfaults)).bind fun ok t ht => ?_
      exact (rules.turn t ht).bind fun _ t ht => rules.blockLoop left (rules.block ok _ t ht)

theorem sendFrameBody_unwritten {a : Nat} {s : State} (hhost : s.host = []) (hfaults : s.faults = [])
    (ha : memRead s.fb a = none) (hin : a < s.cfg.fbBytes) (hspeed : s.spdData ≠ 0) :
    Ensures (sendFrameBody s) (fun _ => ReadUnwritten s.cfg) (ReadUnwritten s.cfg) := by
  have rules := readUnwritten_frameRules s.cfg
  have hcover : a < 4096 * blockCount s.cfg := by unfold blockCount Config.blockBytes; omega
  rw [sendFrameBody, if_neg hspeed, drivePin_nil true hhost, bind_go]
  refine (blockLoop_unwritten (s := startBlocks (setDc true s)) _ rfl hhost hfaults ha hin (Nat.zero_le a) ?_).bind
    fun _ t ht => ?_
  · simpa using hcover
  · exact (rules.turn t ht).bind fun _ t ht => rules.finish (fun _ h => h.frame rfl rfl rfl) (rules.count t ht)

/-- An operation that read an unwritten byte completes, and the run stops at its next step. -/
theorem ReadUnwritten.stops {op : HostOp} {body : State → Flow Unit} {c : Params} {s : State} (hm : s.mode = .idle)
    (h : Ensures (body (acceptCmd op s)) (fun _ => ReadUnwritten c) (ReadUnwritten c)) :
    ∃ t, Host.Outcome.next (hostWriteCmd op body s) = (.next t : Host.Outcome State Fault Refusal)
      ∧ Fault.uninitRead ∈ t.faults ∧ Machine.step t = .fault .uninitRead := by
  have hend : ReadUnwritten c (hostWriteCmd op body s) := by
    rw [hostWriteCmd_idle hm]
    exact h.state (fun _ _ h => h) fun _ h => h
  exact ⟨_, rfl, by simp [hend.faults], hend.step⟩

/-- Settles O33: the statistics pass reads every byte of RAW and the blocks every byte of FB, and what follows the read
neither clears the fault nor records another. -/
theorem unwrittenByteIsModelFault : Obligations.UnwrittenByteIsModelFault := by
  intro s a hhost hmode hfaults
  refine ⟨fun hin ha => ?_, fun hin ha hspeed => ?_⟩
  · exact ReadUnwritten.stops hmode
      (convertBody_unwritten (s := acceptCmd .convertFrame s) hhost hfaults ha hin)
  · exact ReadUnwritten.stops hmode
      (sendFrameBody_unwritten (s := acceptCmd .sendFrame s) hhost hfaults ha hin hspeed)

/-! ### Registers -/

/-- STATUS by its bits, as R16 lists them. -/
theorem statusWord_getLsbD (s : State) (i : Nat) :
    (statusWord s).getLsbD i =
      if i = 0 then busy s else if i = 1 then fatal s else if i = 2 then s.cmdErr else if i = 3 then s.done
      else if i < 8 then false else if i < 12 then (fatalCode s.fatalCause).getLsbD (i - 8)
      else s.lastOp.getLsbD (i - 12) := by
  have hword : statusWord s = BitVec.setWidth 32
    (s.lastOp ++ fatalCode s.fatalCause ++ (0 : BitVec 4) ++ BitVec.ofBool s.done ++ BitVec.ofBool s.cmdErr
      ++ BitVec.ofBool (fatal s) ++ BitVec.ofBool (busy s) : BitVec (4 + 4 + 4 + 1 + 1 + 1 + 1)) := rfl
  rw [hword, BitVec.getLsbD_setWidth]
  simp only [BitVec.getLsbD_append]
  match i with
  | 0 | 1 | 2 | 3 => simp
  | i + 4 => grind

/-- FATAL_CAUSE in bits 11:8 (R16). -/
theorem statusWord_fatalCause (s : State) : (statusWord s).extractLsb' 8 4 = fatalCode s.fatalCause := by
  ext j hj
  simp only [BitVec.getElem_extractLsb', statusWord_getLsbD]
  grind

/-- Settles O39: bit `j` of a field is bit `field + j` of the word. -/
theorem statusFields : Obligations.StatusFields := fun s => by
  simp only [statusWord_getLsbD, statusWord_fatalCause]
  refine ⟨rfl, rfl, rfl, rfl, ?_, by cases s.fatalCause <;> rfl, ?_, ?_⟩
  all_goals
    ext j hj
    simp only [BitVec.getElem_extractLsb', statusWord_getLsbD]
    grind

/-- A 32-bit write to a register other than GPIO_OE is always made. -/
theorem hostAccess_writeReg_other {off : Nat} (h : off < 0x1000) (h4 : off % 4 = 0) (hne : off ≠ 0x008) (v : Word)
    (s : State) : hostAccess (.write (BitVec.ofNat 24 off) .w32 v) s = writeReg (regAt off) v s :=
  hostAccess_writeReg h h4 v s (isHazard_writeReg h hne v s)

/-- A write of GPIO_OE is no hazard where no operation with SPI attempts runs, or where it keeps DC_OE (R118 (b), log 8). -/
theorem isHazard_gpioOe {v : Word} {s : State}
    (h : s.mode ≠ .run ∨ s.op = .convertFrame ∨ v.getLsbD 0 = s.gpioOe.dc) :
    isHazard (.write (BitVec.ofNat 24 0x008) .w32 v) s = false := by
  simp only [isHazard, accessAddr, regionOf_aperture s.cfg (show 0x008 < 0x1000 by decide)]
  rcases h with h | h | h
  · simp [busy, h]
  · simp [makesAttempts, h]
  · simp only [linesOfWord, h, ne_eq, not_true_eq_false, decide_false, Bool.and_false]

/-- Settles O40: each write is made, and `writeReg` gives what it leaves. -/
theorem registerWrites : Obligations.RegisterWrites := by
  intro v s
  have write := fun off h h4 hne => hostAccess_writeReg_other (off := off) h h4 hne v s
  refine ⟨fun _ => write 0x000 (by decide) rfl (by decide), write 0x004 (by decide) rfl (by decide), fun h => ?oe, ?out,
    write 0x010 (by decide) rfl (by decide), write 0x014 (by decide) rfl (by decide),
    write 0x01C (by decide) rfl (by decide), write 0x028 (by decide) rfl (by decide),
    write 0x02C (by decide) rfl (by decide), fun off h4 h => ?readOnly⟩
  case oe => exact hostAccess_writeReg (off := 0x008) (by decide) rfl v s (isHazard_gpioOe h)
  case out =>
    have hlatches : hostLatches v s = ⟨if s.mode = .run then s.gpioOut.dc else v.getLsbD 0, v.getLsbD 1, v.getLsbD 2⟩ := by
      simp [hostLatches, linesOfWord, busy]
    rw [← hlatches]
    exact write 0x00C (by decide) rfl (by decide)
  case readOnly =>
    rw [write off (by omega) h4 (by omega)]
    rcases h with rfl | rfl | rfl | ⟨hlo, _⟩
    · rfl
    · rfl
    · rfl
    · exact writeReg_upper hlo v s

/-- The word of GPIO_OE or GPIO_OUT: bits 31:3 are zero (R17, R18). -/
theorem linesToWord_eq (l : Lines) :
    linesToWord l = (0 : BitVec 29) ++ BitVec.ofBool l.bl ++ BitVec.ofBool l.rst ++ BitVec.ofBool l.dc := by
  obtain ⟨dc, rst, bl⟩ := l
  cases dc <;> cases rst <;> cases bl <;> rfl

/-- A word whose bits 31:24 are zero. -/
theorem setWidth_append_bytes (b g r : Byte) :
    BitVec.setWidth 32 (b ++ g ++ r : BitVec (8 + 8 + 8)) = ((0 : BitVec 8) ++ b ++ g ++ r : BitVec (8 + 8 + 8 + 8)) := by
  refine BitVec.eq_of_getLsbD_eq fun j hj => ?_
  simp only [BitVec.getLsbD_setWidth, BitVec.getLsbD_append]
  grind

/-- The word of a LUT entry: bits 31:24 are zero (R29). -/
theorem lutWord_eq (i : Fin 256) (s : State) :
    lutWord i s = (0 : BitVec 8) ++ s.lutB[i] ++ s.lutG[i] ++ s.lutR[i] :=
  setWidth_append_bytes _ _ _

/-- The register at an offset is reserved, or the one whose offset that is. -/
theorem regOffset_of_regAt {off : Nat} {r : Reg} (h : regAt off = r) (h4 : off % 4 = 0) :
    r = .reserved ∨ regOffset r = off := by
  unfold regAt at h
  iterate 16 (rw [ite_eq_iff] at h; obtain ⟨hoff, rfl⟩ | ⟨_, h⟩ := h; · exact .inr hoff.symm)
  rw [ite_eq_iff] at h
  obtain ⟨hoff, rfl⟩ | ⟨_, rfl⟩ := h
  · right
    simp only [regOffset, Fin.ofNat]
    omega
  · exact .inl rfl

/-- A read of a register other than the sums and the LUT is always made. -/
theorem hostAccess_readReg_other {off : Nat} (h4 : off % 4 = 0)
    (h : off < 0x034 ∨ 0x040 ≤ off ∧ off < 0x400 ∨ 0x800 ≤ off ∧ off < 0x1000) (s : State) :
    hostAccess (.read (BitVec.ofNat 24 off) .w32) s = respond (.data (readReg (regAt off) s)) s := by
  have hin : off < 0x1000 := by omega
  have hne : ∀ r, r ≠ .reserved → regOffset r ≠ off → regAt off ≠ r := fun r hr hoff h =>
    (regOffset_of_regAt h h4).elim hr hoff
  refine hostAccess_readReg hin h4 s (isHazard_readReg_other hin s (hne _ nofun ?_) (hne _ nofun ?_) (hne _ nofun ?_)
    fun i => hne _ nofun ?_)
  all_goals
    simp only [regOffset]
    omega

/-- Settles O41: each read is made, and `readReg` gives its data. -/
theorem registerReads : Obligations.RegisterReads := by
  intro s gives
  have other : ∀ off, off % 4 = 0 → (off < 0x034 ∨ 0x040 ≤ off ∧ off < 0x400 ∨ 0x800 ≤ off ∧ off < 0x1000) →
      gives off (readReg (regAt off) s) := fun off h4 h => hostAccess_readReg_other h4 h s
  have converter : ¬ (s.mode = .run ∧ s.op = .convertFrame) → ∀ off, off < 0x1000 → off % 4 = 0 →
      gives off (readReg (regAt off) s) := fun hs off h h4 => hostAccess_readReg h h4 s (isHazard_readReg h s hs)
  refine ⟨other 0x000 rfl (by decide), other 0x004 rfl (by decide), ?oe, ?out, other 0x010 rfl (by decide),
    other 0x014 rfl (by decide), other 0x018 rfl (by decide), other 0x01C rfl (by decide), other 0x020 rfl (by decide),
    other 0x024 rfl (by decide), other 0x028 rfl (by decide), other 0x02C rfl (by decide), other 0x030 rfl (by decide),
    fun hs => ⟨converter hs 0x034 (by decide) rfl, converter hs 0x038 (by decide) rfl, converter hs 0x03C (by decide) rfl,
      fun i => ?lut⟩, fun off h4 h => ?reserved⟩
  case oe =>
    rw [← linesToWord_eq]
    exact other 0x008 rfl (by decide)
  case out =>
    rw [← linesToWord_eq]
    exact other 0x00C rfl (by decide)
  case lut =>
    have hi := i.isLt
    have hread := converter hs (0x400 + 4 * i.val) (by omega) (by omega)
    rw [regAt_lut] at hread
    rw [← lutWord_eq]
    exact hread
  case reserved =>
    have hread := other off h4 (.inr h)
    rw [regAt_reserved (by omega)] at hread
    exact hread

/-! ### The windows -/

/-- An access that the bus allows and that is no hazard is made. -/
theorem hostAccess_made {a : Access} {s : State} (h : accessAllowed s.cfg a = true) (hz : isHazard a s = false) :
    hostAccess a s = performAccess a s := by
  simp [hostAccess, h, hz]

/-- The windows begin at multiples of every access width. -/
theorem window_aligned {base off : Nat} {w : Width} (h : off % widthBytes w = 0) (hbase : base % 4 = 0) :
    (base + off) % widthBytes w = 0 := by
  cases w <;> simp only [widthBytes] at h ⊢ <;> omega

theorem toNat_window {base off : Nat} (hbase : base ≤ 0x300000) (hoff : off < 0x100000) :
    (BitVec.ofNat 24 (base + off)).toNat = base + off := by
  rw [BitVec.toNat_ofNat]
  omega

section Window

variable {p : Params} (hwf : p.wf = true) {off : Nat}
include hwf

theorem regionOf_raw (h : off < p.rawBytes) : regionOf p (BitVec.ofNat 24 (0x100000 + off)) = .raw off := by
  obtain ⟨hraw, _, _⟩ := sizes_of_wf hwf
  simp only [regionOf, toNat_window (base := 0x100000) (off := off) (by decide) (by omega)]
  rw [if_neg (by omega), if_pos (by omega), Nat.add_sub_cancel_left]

theorem regionOf_fb (h : off < p.fbBytes) : regionOf p (BitVec.ofNat 24 (0x200000 + off)) = .fb off := by
  obtain ⟨hraw, hfb, _⟩ := sizes_of_wf hwf
  simp only [regionOf, toNat_window (base := 0x200000) (off := off) (by decide) (by omega)]
  rw [if_neg (by omega), if_neg (by omega), if_pos (by omega), Nat.add_sub_cancel_left]

theorem regionOf_rom (h : off < p.romBytes) : regionOf p (BitVec.ofNat 24 (0x300000 + off)) = .rom off := by
  obtain ⟨hraw, hfb, hrom⟩ := sizes_of_wf hwf
  simp only [regionOf, toNat_window (base := 0x300000) (off := off) (by decide) (by omega)]
  rw [if_neg (by omega), if_neg (by omega), if_neg (by omega), if_pos (by omega), Nat.add_sub_cancel_left]

/-- The bus allows an aligned read inside a window. -/
theorem accessAllowed_window {base size : Nat} {w : Width} (hal : off % widthBytes w = 0)
    (hmap : (base, size) ∈ [(0x100000, p.rawBytes), (0x200000, p.fbBytes), (0x300000, p.romBytes)])
    (hin : off + widthBytes w ≤ size) : accessAllowed p (.read (BitVec.ofNat 24 (base + off)) w) = true := by
  obtain ⟨hraw, hfb, hrom⟩ := sizes_of_wf hwf
  have hpos := widthBytes_pos w
  simp only [List.mem_cons, Prod.mk.injEq, List.not_mem_nil, or_false] at hmap
  have haddr := toNat_window (base := base) (off := off) (by omega) (by omega)
  have hwithin : accessWithin (.read (BitVec.ofNat 24 (base + off)) w) base size := by
    simp only [accessWithin, accessAddr, accessWidth, haddr]
    omega
  refine (accessAllowed_iff hwf _).mpr ⟨?_, .inr ?_⟩
  · simpa only [accessAddr, accessWidth, haddr] using window_aligned hal (by omega)
  · rcases hmap with ⟨rfl, rfl⟩ | ⟨rfl, rfl⟩ | ⟨rfl, rfl⟩
    · exact .inl hwithin
    · exact .inr ⟨rfl, .inl hwithin⟩
    · exact .inr ⟨rfl, .inr hwithin⟩

end Window

/-- The lanes of the word that gives back `n` bytes: byte `k` on lane `k`, zero on the lanes it does not use (R43, log 19). -/
theorem busWord_map_lane (byte : Nat → Byte) {n k : Nat} (hn : n ≤ 4) (hk : k < 4) :
    (busWord ((List.range n).map byte)).extractLsb' (8 * k) 8 = if k < n then byte k else 0 := by
  rw [busWord_lane _ hk (by simpa using hn), List.getD_eq_getElem?_getD]
  by_cases h : k < n <;> simp [h]

/-- A read inside a window that is no hazard answers with the word that has the window's bytes on its lanes. -/
theorem hostAccess_window {s : State} (hwf : s.cfg.wf = true) {base size off : Nat} {w : Width}
    (hal : off % widthBytes w = 0)
    (hmap : (base, size) ∈ [(0x100000, s.cfg.rawBytes), (0x200000, s.cfg.fbBytes), (0x300000, s.cfg.romBytes)])
    (hin : off + widthBytes w ≤ size) (hz : isHazard (.read (BitVec.ofNat 24 (base + off)) w) s = false)
    {byte : Nat → Byte} (hread : performAccess (.read (BitVec.ofNat 24 (base + off)) w) s =
      respond (.data (busWord ((List.range (widthBytes w)).map fun k => byte (off + k)))) s) :
    ∃ v, hostAccess (.read (BitVec.ofNat 24 (base + off)) w) s = respond (.data v) s
      ∧ ∀ k, k < 4 → v.extractLsb' (8 * k) 8 = if k < widthBytes w then byte (off + k) else 0 := by
  have hwidth : widthBytes w ≤ 4 := by cases w <;> decide
  exact ⟨_, (hostAccess_made (accessAllowed_window hwf hal hmap hin) hz).trans hread,
    fun k hk => busWord_map_lane (fun k => byte (off + k)) hwidth hk⟩

/-- Settles O46: the address names the window's byte, and the read is made; of the three windows only FB has a hazard. -/
theorem windowReads : Obligations.WindowReads := by
  intro off w s hal hwf gives
  have hpos := widthBytes_pos w
  refine ⟨fun hin => ?raw, fun hin hconv => ?fb, fun hin => ?rom⟩
  case raw =>
    have hregion := regionOf_raw hwf (off := off) (by omega)
    refine hostAccess_window hwf (byte := peek (unwrittenRaw s) s.raw) hal (by simp) hin ?_ ?_
    · simp only [isHazard, accessAddr, hregion, Bool.and_false]
    · simp only [performAccess, accessAddr, hregion, peekBytes]
  case fb =>
    have hregion := regionOf_fb hwf (off := off) (by omega)
    refine hostAccess_window hwf (byte := peek (unwrittenFb s) s.fb) hal (by simp) hin ?_ ?_
    · simpa [isHazard, accessAddr, hregion, busy] using hconv
    · simp only [performAccess, accessAddr, hregion, peekBytes]
  case rom =>
    have hregion := regionOf_rom hwf (off := off) (by omega)
    refine hostAccess_window hwf (byte := scriptByte s.cfg) hal (by simp) hin ?_ ?_
    · simp only [isHazard, accessAddr, hregion, Bool.and_false]
    · simp only [performAccess, accessAddr, hregion]

/-! ### Reset -/

/-- Settles O52: the values stand in `State.resetWith`; the tables are the identity, and no line is driven. -/
theorem resetValues : Obligations.ResetValues := by
  intro p s
  have identity : ∀ v : Byte, lutAt identityLut v = v := fun v => by simp [lutAt, identityLut]
  have status : statusWord s = 0 := by simp [s, statusWord, State.resetWith, fatalCode, busy, fatal]
  have lines : linesToWord Lines.none = 0 := by decide
  refine ⟨rfl, status, lines, lines, rfl, rfl, rfl, rfl, rfl, rfl, rfl, rfl, rfl, rfl,
    fun v => ⟨identity v, identity v, identity v⟩, rfl, rfl, fun a => ⟨rfl, rfl⟩, rfl, fun l => ?_, rfl, rfl⟩
  cases l <;> rfl

end Sys2Proof.Machine
end

section
/-! PROOFS. The statements of spec/20_memory.md: the host's turn, access by access; the order of the bits on MOSI; reads and
RAW writes of the host; and CONVERT_FRAME over a RAW that is all written. -/

namespace Sys2Proof.Machine

/-! ### The host's turn -/

/-- An access that is no hazard is made, and the turn goes on with the rest of the host's program (R41, R48). -/
theorem hostTurn_access {s : State} {a : Access} {more : List HostEvent} (hhost : s.host = .access a :: more)
    (h : (accessAllowed s.cfg a && isHazard a s) = false) :
    hostTurn s = hostTurn (setHost more (hostAccess a s)) := by
  simp only [hostTurn, hhost, serveHost, h, Bool.false_eq_true, if_false, setHost_host, serveHost_setHost]

/-- A hazard ends the turn, and the operation with it (R102). -/
theorem hostTurn_hazard {s : State} {a : Access} {more : List HostEvent} (hhost : s.host = .access a :: more)
    (h : accessAllowed s.cfg a = true) (hz : isHazard a s = true) :
    hostTurn s = .stop (recordFault .hazard (setHost more s)) := by
  simp only [hostTurn, hhost, serveHost, h, hz, Bool.and_self, if_true]
  rw [hostAccess_hazard (s := setHost more s) h hz]

/-- Settles O17, by the first act in the host's list. -/
theorem hostTurnOrder : Obligations.HostTurnOrder := by
  intro s more
  refine ⟨hostTurn_nil, fun h => ?pass, fun h => ?poll, fun h => ?reset, fun a h => hostTurn_access h,
    fun a h => hostTurn_hazard h⟩
  case pass => simp only [hostTurn, h, serveHost]
  case poll => simp only [hostTurn, h, serveHost, setHost_self h]
  case reset => simp only [hostTurn, h, serveHost]

/-! ### The bits on MOSI -/

/-- The first byte's bits go out before those of the bytes after it (R46). -/
theorem mosiBits_cons (b : Byte) (bytes : List Byte) :
    mosiBits (b :: bytes) = (List.range 8).map (fun j => b.getLsbD (7 - j)) ++ mosiBits bytes :=
  List.flatMap_cons

theorem mosiBits_length (bytes : List Byte) : (mosiBits bytes).length = 8 * bytes.length := by
  induction bytes with
  | nil => rfl
  | cons b bytes ih =>
    rw [mosiBits_cons, List.length_append, ih, List.length_map, List.length_range, List.length_cons]
    omega

/-- Bit 8i + j of the payload is bit 7 - j of byte i (R46, R66). -/
theorem mosiBits_getElem? {bytes : List Byte} {i j : Nat} {b : Byte} (hb : bytes[i]? = some b) (hj : j < 8) :
    (mosiBits bytes)[8 * i + j]? = some (b.getLsbD (7 - j)) := by
  induction bytes generalizing i with
  | nil => simp at hb
  | cons c bytes ih =>
    rw [mosiBits_cons]
    cases i with
    | zero =>
      obtain rfl : c = b := by simpa using hb
      rw [List.getElem?_append_left (by simpa using hj)]
      simp [hj]
    | succ i =>
      have hlength : ((List.range 8).map fun j => c.getLsbD (7 - j)).length = 8 := rfl
      have hskip : 8 * (i + 1) + j - 8 = 8 * i + j := by omega
      rw [List.getElem?_append_right (by omega), hlength, hskip]
      exact ih hb

/-- Settles O19, byte by byte. -/
theorem mosiOrder : Obligations.MosiOrder := fun bytes _ _ _ hb hj => ⟨mosiBits_getElem? hb hj, mosiBits_length bytes⟩

/-! ### The host's reads -/

/-- A read that the bus allows and that is no hazard answers, and with the same data whatever the host was answered
before (R42). -/
theorem hostAccess_read {addr : Addr} {w : Width} {s : State} (h : accessAllowed s.cfg (.read addr w) = true)
    (hz : isHazard (.read addr w) s = false) :
    ∃ v, ∀ rs, hostAccess (.read addr w) { s with responses := rs } = { s with responses := rs ++ [.data v] } := by
  have made : ∀ rs, hostAccess (.read addr w) { s with responses := rs } =
      performAccess (.read addr w) { s with responses := rs } :=
    fun rs => hostAccess_made (s := { s with responses := rs }) h hz
  simp only [made, performAccess, accessAddr]
  cases hregion : regionOf s.cfg addr with
  | aperture off => exact ⟨readReg (regAt off) s, fun _ => rfl⟩
  | raw off => exact ⟨busWord (peekBytes (unwrittenRaw s) s.raw off (widthBytes w)), fun _ => rfl⟩
  | fb off => exact ⟨busWord (peekBytes (unwrittenFb s) s.fb off (widthBytes w)), fun _ => rfl⟩
  | rom off =>
    exact ⟨busWord ((List.range (widthBytes w)).map fun k => scriptByte s.cfg (off + k)), fun _ => rfl⟩
  | unmapped => simp [accessAllowed, accessAddr, hregion] at h

/-- Settles O42: a read is refused by the bus, or is a hazard, or answers and does nothing else. -/
theorem readsHaveNoSideEffect : Obligations.ReadsHaveNoSideEffect := by
  intro addr w s
  refine ⟨?noEffect, fun h hz => ?twice⟩
  case noEffect =>
    by_cases h : accessAllowed s.cfg (.read addr w) = true
    · cases hz : isHazard (.read addr w) s with
      | true => exact ⟨_, _, hostAccess_hazard h hz⟩
      | false =>
        obtain ⟨v, hread⟩ := hostAccess_read h hz
        exact ⟨_, _, hread s.responses⟩
    · exact ⟨_, _, hostAccess_busError h⟩
  case twice =>
    obtain ⟨v, hread⟩ := hostAccess_read h hz
    have first := hread s.responses
    refine ⟨v, first, ?_⟩
    rw [first, hread, List.append_assoc]
    rfl

/-! ### Writes to the RAW window -/

theorem busBytes_getElem? (v : Word) {k count : Nat} (hk : k < count) : (busBytes v count)[k]? = some (busByte v k) := by
  simp [busBytes, hk]

/-- The addresses of the RAW window (R38). Unlike `regionOf_raw` this asks for the size of RAW alone, not for all of R6. -/
theorem regionOf_rawWindow {p : Params} {off : Nat} (hsize : p.rawBytes ≤ 0x100000) (hoff : off < p.rawBytes) :
    regionOf p (BitVec.ofNat 24 (0x100000 + off)) = .raw off := by
  simp only [regionOf, toNat_window (base := 0x100000) (off := off) (by decide) (by omega)]
  rw [if_neg (by omega), if_pos (by omega), Nat.add_sub_cancel_left]

/-- A write inside the RAW window stores its bytes, unless CONVERT_FRAME runs (R41, R44, R116). -/
theorem hostAccess_writeRaw {off : Nat} {w : Width} (v : Word) {s : State} (hsize : s.cfg.rawBytes ≤ 0x100000)
    (hal : off % widthBytes w = 0) (hin : off + widthBytes w ≤ s.cfg.rawBytes)
    (hconv : ¬ (s.mode = .run ∧ s.op = .convertFrame)) :
    hostAccess (.write (BitVec.ofNat 24 (0x100000 + off)) w v) s =
      { s with raw := memWriteBytes s.raw off (busBytes v (widthBytes w)) } := by
  have hpos := widthBytes_pos w
  have hregion := regionOf_rawWindow hsize (off := off) (by omega)
  have haddr := toNat_window (base := 0x100000) (off := off) (by decide) (by omega)
  have hallowed : accessAllowed s.cfg (.write (BitVec.ofNat 24 (0x100000 + off)) w v) = true := by
    simp only [accessAllowed, aligned, accessAddr, accessWidth, hregion, haddr, Bool.and_eq_true]
    exact ⟨decide_eq_true (window_aligned hal (by decide)), decide_eq_true hin⟩
  have hhazard : isHazard (.write (BitVec.ofNat 24 (0x100000 + off)) w v) s = false := by
    simpa [isHazard, accessAddr, hregion, busy] using hconv
  rw [hostAccess_made hallowed hhazard]
  simp only [performAccess, accessAddr, hregion]

/-- Settles O45: the write stores the lanes one after the other from its offset on. -/
theorem rawWindowWrite : Obligations.RawWindowWrite := by
  intro off w v s hsize hal hin hconv
  refine ⟨_, hostAccess_writeRaw v hsize hal hin hconv, rfl, fun k hk => ?stored, fun a ha => ?kept⟩
  case stored =>
    rw [memRead_memWriteBytes, if_pos (by rw [busBytes_length]; omega), Nat.add_sub_cancel_left, busBytes_getElem? v hk]
    rfl
  case kept =>
    rw [memRead_memWriteBytes, if_neg]
    rw [busBytes_length]
    rintro ⟨hlo, hhi⟩
    exact ha (a - off) (by omega) (by omega)

/-! ### CONVERT_FRAME over a RAW that is all written -/

/-- A pixel of a written frame reads as its samples (R84). -/
theorem readPixel_rawWritten {s : State} (hraw : RawWritten s) {k : Nat} (hk : k < s.cfg.pixels) :
    readPixel k s = (samples s k, s) := by
  have hsize : s.cfg.rawBytes = 3 * s.cfg.pixels := rfl
  exact readPixel_written (hraw _ (by omega)) (hraw _ (by omega)) (hraw _ (by omega))

/-- What the accumulators hold after the statistics pass over a written frame (R87). -/
def frameSums (s : State) : Sums where
  r := BitVec.ofNat 32 (channelSum Rgb.r s s.cfg.pixels)
  g := BitVec.ofNat 32 (channelSum Rgb.g s s.cfg.pixels)
  b := BitVec.ofNat 32 (channelSum Rgb.b s s.cfg.pixels)

/-- The statistics pass reads the pixels in order, adds their samples, and moves nothing but PIXK. -/
theorem statsLoop_written (left k : Nat) (acc : Sums) {s : State} (hhost : s.host = []) (hraw : RawWritten s)
    (hk : k + left ≤ s.cfg.pixels) :
    ∃ pixk, statsLoop left k acc s =
      .go ((List.range' k left).foldl (fun acc j => addSample acc (samples s j)) acc) { s with pixk := pixk } := by
  induction left generalizing k acc s with
  | zero => exact ⟨s.pixk, rfl⟩
  | succ left ih =>
    have hread : readPixel k (setPixelIndex k s) = (samples s k, setPixelIndex k s) :=
      readPixel_rawWritten (s := setPixelIndex k s) hraw (show k < s.cfg.pixels by omega)
    obtain ⟨pixk, hrest⟩ := ih (s := setPixelIndex k s) (k + 1) (addSample acc (samples s k)) hhost hraw
      (show k + 1 + left ≤ s.cfg.pixels by omega)
    refine ⟨pixk, ?_⟩
    rw [statsLoop, hostTurn_nil (show (setPixelIndex k s).host = [] from hhost), bind_go, hread]
    exact hrest

/-- Each accumulator gains its channel's sum, modulo 2^32. -/
theorem foldl_addSample (s : State) (ks : List Nat) (acc : Sums) :
    ks.foldl (fun acc j => addSample acc (samples s j)) acc =
      ⟨acc.r + BitVec.ofNat 32 (ks.map fun j => (samples s j).r.toNat).sum,
        acc.g + BitVec.ofNat 32 (ks.map fun j => (samples s j).g.toNat).sum,
        acc.b + BitVec.ofNat 32 (ks.map fun j => (samples s j).b.toNat).sum⟩ := by
  induction ks generalizing acc with
  | nil => simp
  | cons k ks ih =>
    rw [List.foldl_cons, ih]
    simp [addSample, BitVec.ofNat_add, BitVec.add_assoc]

/-- Each sample is at most 255. -/
theorem channelSum_le (channel : Rgb → Byte) (s : State) (count : Nat) : channelSum channel s count ≤ 255 * count := by
  have hbound : ∀ x ∈ (List.range count).map (fun k => (channel (samples s k)).toNat), x ≤ 255 := by
    intro x hx
    obtain ⟨k, _, rfl⟩ := List.mem_map.mp hx
    exact Nat.le_of_lt_succ (channel (samples s k)).isLt
  simpa [channelSum, Nat.mul_comm] using List.sum_le_card_nsmul _ 255 hbound

/-- The sums are exact where R6 keeps the frame small enough (R87). -/
theorem toNat_channelSum (channel : Rgb → Byte) {s : State} (hsize : 255 * s.cfg.pixels < 2 ^ 32) :
    (BitVec.ofNat 32 (channelSum channel s s.cfg.pixels)).toNat = channelSum channel s s.cfg.pixels := by
  have hle := channelSum_le channel s s.cfg.pixels
  rw [BitVec.toNat_ofNat, Nat.mod_eq_of_lt (by omega)]

/-- The pack pass stores each pixel's word in its two bytes of FB and moves nothing but PIXK beside (R45, R90). -/
theorem packLoop_written (left k : Nat) {s : State} (hhost : s.host = []) (hraw : RawWritten s)
    (hk : k + left ≤ s.cfg.pixels) :
    ∃ pixk fb, packLoop left k s = .go () { s with pixk := pixk, fb := fb }
      ∧ (∀ j, k ≤ j → j < k + left → memRead fb (2 * j) = some (pixelHigh (convertPixel s (samples s j)))
        ∧ memRead fb (2 * j + 1) = some (pixelLow (convertPixel s (samples s j))))
      ∧ ∀ a, a < 2 * k → memRead fb a = memRead s.fb a := by
  induction left generalizing k s with
  | zero => exact ⟨s.pixk, s.fb, rfl, fun j _ _ => by omega, fun _ _ => rfl⟩
  | succ left ih =>
    have hread : readPixel k (setPixelIndex k s) = (samples s k, setPixelIndex k s) :=
      readPixel_rawWritten (s := setPixelIndex k s) hraw (show k < s.cfg.pixels by omega)
    obtain ⟨pixk, fb, hrest, hlater, hearlier⟩ :=
      ih (s := storePixel k (convertPixel s (samples s k)) (setPixelIndex k s)) (k + 1) hhost hraw
        (show k + 1 + left ≤ s.cfg.pixels by omega)
    simp only [storePixel_fb, memRead_memWrite] at hearlier
    refine ⟨pixk, fb, ?_, fun j hlo hhi => ?_, fun a ha => ?_⟩
    · rw [packLoop, hostTurn_nil (show (setPixelIndex k s).host = [] from hhost), bind_go, hread]
      exact hrest
    · by_cases hj : j = k
      · subst hj
        rw [hearlier _ (by omega), hearlier _ (by omega), if_neg (by omega), if_pos rfl, if_pos rfl]
        exact ⟨rfl, rfl⟩
      · exact hlater j (by omega) (by omega)
    · rw [hearlier a (by omega), if_neg (by omega), if_neg (by omega)]
      rfl

/-- CONVERT_FRAME over a written frame: the sums and the tables are stored, then each pixel's word, and the operation ends
(R86). -/
theorem convertBody_written {s : State} (hhost : s.host = []) (hraw : RawWritten s) :
    ∃ pixk fb, convertBody s =
        .go () (endOperation { buildLut (frameSums s) (storeSums (frameSums s) s) with pixk := pixk, fb := fb })
      ∧ ∀ k, k < s.cfg.pixels →
        memRead fb (2 * k) = some (pixelHigh (convertPixel (buildLut (frameSums s) s) (samples s k)))
          ∧ memRead fb (2 * k + 1) = some (pixelLow (convertPixel (buildLut (frameSums s) s) (samples s k))) := by
  obtain ⟨pixk₁, hstats⟩ := statsLoop_written s.cfg.pixels 0 ⟨0, 0, 0⟩ hhost hraw (by omega)
  have hsums :
      (List.range' 0 s.cfg.pixels).foldl (fun acc j => addSample acc (samples s j)) ⟨0, 0, 0⟩ = frameSums s := by
    simp [foldl_addSample, ← List.range_eq_range', frameSums, channelSum]
  obtain ⟨pixk, fb, hpack, hstored, _⟩ := packLoop_written s.cfg.pixels 0
    (s := buildLut (frameSums s) (storeSums (frameSums s) { s with pixk := pixk₁ })) hhost hraw (Nat.zero_add _).le
  refine ⟨pixk, fb, ?_, fun k hk => hstored k (Nat.zero_le k) (by omega)⟩
  rw [convertBody, hstats, hsums, bind_go]
  exact (congrArg (Flow.bind · fun _ s => finish s) hpack).trans (finish_nil hhost)

/-- An entry of a channel's table: the identity for a zero channel, else the rounded and saturated quotient (R89). -/
theorem lutAt_lutTable (mode : Rounding) (sc t : Nat) (v : Byte) :
    lutAt (lutTable mode sc t) v =
      if sc = 0 then v else BitVec.ofNat 8 (min (roundDiv mode (v.toNat * t) (3 * sc)) 255) := by
  simp [lutAt, lutTable, lutEntry, sat8]

/-- Settles O32: the operation is accepted, its body runs over the written RAW to its end, and the accumulators do not
overflow. -/
theorem convertFrameResult : Obligations.ConvertFrameResult := by
  intro s hhost hmode hraw hsize sr sg sb entry
  obtain ⟨pixk, fb, hbody, hstored⟩ := convertBody_written (s := acceptCmd .convertFrame s) hhost hraw
  have hr : (frameSums s).r.toNat = sr := toNat_channelSum Rgb.r hsize
  have hg : (frameSums s).g.toNat = sg := toNat_channelSum Rgb.g hsize
  have hb : (frameSums s).b.toNat = sb := toNat_channelSum Rgb.b hsize
  have hlut : ∀ v, lutAt (buildLut (frameSums s) s).lutR v = entry sr v
      ∧ lutAt (buildLut (frameSums s) s).lutG v = entry sg v ∧ lutAt (buildLut (frameSums s) s).lutB v = entry sb v := by
    intro v
    simp only [buildLut_lutR, buildLut_lutG, buildLut_lutB, lutAt_lutTable, sumTotal, hr, hg, hb]
    exact ⟨rfl, rfl, rfl⟩
  have hexec : exec .convertFrame s = .next (convertBody (acceptCmd .convertFrame s)).state :=
    congrArg Host.Outcome.next (hostWriteCmd_idle hmode)
  rw [hbody, state_go] at hexec
  refine ⟨_, hexec, hr, hg, hb, hlut, fun k hk => ?_, rfl, rfl, rfl, rfl, rfl, rfl⟩
  have hpixel : convertPixel (buildLut (frameSums s) s) (samples s k) =
      pack565 (entry sr (samples s k).r) (entry sg (samples s k).g) (entry sb (samples s k).b) := by
    obtain ⟨hred, _, _⟩ := hlut (samples s k).r
    obtain ⟨_, hgreen, _⟩ := hlut (samples s k).g
    obtain ⟨_, _, hblue⟩ := hlut (samples s k).b
    rw [convertPixel, hred, hgreen, hblue]
  rw [← hpixel]
  exact hstored k hk

end Sys2Proof.Machine
end

section
/-! PROOFS. The statements of spec/30_encoding.md. First the two encodings: what the encoder writes is read back whatever
follows, and what the decoder reads is what the encoder writes (`decodeScript_eq_ok_iff`); then a script entry cut off by the
end of SCRIPT_ROM, from one equation for each part of an entry whose transactions succeed. -/

namespace Sys2Proof

/-! ### Script entries -/

/-- A well-formed entry is read back, whatever bytes follow it. -/
theorem decodeScript_entryBytes {i : Instr} (hwf : i.wf = true) (hentry : entryBytes i ≠ []) (rest : List Byte) :
    decodeScript (entryBytes i ++ rest) = .ok (i, rest) := by
  cases i with
  | term => exact decodeScript_zero rest
  | cmd opc args =>
    simp only [Instr.wf, opcodeWf, argsWf, Bool.and_eq_true, decide_eq_true_eq] at hwf
    obtain ⟨hopc, hargs⟩ := hwf
    refine (decodeScript_header opc _ (args ++ rest) hopc).trans ?_
    simp [metaCount_encodeMeta _ _ hargs, metaDelay_encodeMeta _ _ hargs]
  | cmdDly opc args dly =>
    simp only [Instr.wf, opcodeWf, argsWf, Bool.and_eq_true, decide_eq_true_eq] at hwf
    obtain ⟨hopc, hargs⟩ := hwf
    refine (decodeScript_header opc _ ((args ++ [dly]) ++ rest) hopc).trans ?_
    simp [metaCount_encodeMeta _ _ hargs, metaDelay_encodeMeta _ _ hargs]
  | runScript | convertFrame | beginRamWrite | sendFrame | hostopReserved _ => exact absurd rfl hentry

/-- An opcode with no byte after it is no entry (R73). -/
theorem decodeScript_opcodeAlone {opc : Byte} (hopc : opc ≠ 0) : decodeScript [opc] = .error (.noMeta opc) :=
  if_neg (show opc ≠ Config.terminator from hopc)

/-- An opcode and META without all the bytes META asks for are no entry: an argument is missing, or every argument is there
and DLY is missing (R55, R73). -/
theorem decodeScript_cutOff {opc hdr : Byte} {body : List Byte} (hopc : opc ≠ 0)
    (h : body.length < metaCount hdr + if metaDelay hdr then 1 else 0) :
    decodeScript (opc :: hdr :: body) =
      .error (if body.length < metaCount hdr then .shortArgs opc hdr body else .noDelay opc body) := by
  rw [decodeScript_header opc hdr body hopc]
  by_cases hshort : body.length < metaCount hdr
  · rw [if_pos hshort, if_pos (by simpa using hshort)]
  · by_cases hdelay : metaDelay hdr = true
    · have hlen : body.length = metaCount hdr := by rw [if_pos hdelay] at h; omega
      simp [hdelay, ← hlen]
    · rw [if_neg hdelay] at h
      exact absurd h hshort

/-- Where every byte META asks for is there, the bytes begin with an entry of META's form (R55). -/
theorem exists_entryBytes {opc hdr : Byte} {body : List Byte} (hopc : opc ≠ 0)
    (h : metaCount hdr + (if metaDelay hdr then 1 else 0) ≤ body.length) :
    ∃ i rest, i.wf = true ∧ opc :: hdr :: body = entryBytes i ++ rest ∧ entryBytes i ≠ [] ∧
      ((metaDelay hdr = false ∧ ∃ args, i = .cmd opc args ∧ args.length = metaCount hdr)
        ∨ (metaDelay hdr = true ∧ ∃ args dly, i = .cmdDly opc args dly ∧ args.length = metaCount hdr)) := by
  have hlen : (body.take (metaCount hdr)).length = metaCount hdr := List.length_take_of_le (by omega)
  have hwf : (opcodeWf opc && argsWf (body.take (metaCount hdr))) = true := by
    simp only [opcodeWf, argsWf, hlen, Bool.and_eq_true, decide_eq_true_eq]
    exact ⟨hopc, Nat.le_of_lt_succ (metaCount_lt hdr)⟩
  have hmeta := encodeMeta_fields hdr
  cases hdelay : metaDelay hdr with
  | false =>
    refine ⟨.cmd opc _, body.drop (metaCount hdr), hwf, ?_, List.cons_ne_nil _ _, .inl ⟨rfl, _, rfl, hlen⟩⟩
    rw [hdelay] at hmeta
    simp [entryBytes, encode, hlen, hmeta]
  | true =>
    rw [if_pos hdelay] at h
    refine ⟨.cmdDly opc _ body[metaCount hdr], body.drop (metaCount hdr + 1), hwf, ?_, List.cons_ne_nil _ _,
      .inr ⟨rfl, _, _, rfl, hlen⟩⟩
    rw [hdelay] at hmeta
    simp [entryBytes, encode, hlen, hmeta]

/-- Either the bytes are cut off, or they begin with a well-formed entry. -/
theorem decodeScript_cutOff_or_entry (bytes : List Byte) :
    (∃ e, decodeScript bytes = .error e) ∨
      ∃ i rest, i.wf = true ∧ bytes = entryBytes i ++ rest ∧ entryBytes i ≠ [] := by
  match bytes with
  | [] => exact .inl ⟨_, rfl⟩
  | opc :: tail =>
    by_cases hopc : opc = 0
    · exact .inr ⟨.term, tail, rfl, congrArg (· :: tail) hopc, List.cons_ne_nil _ _⟩
    match tail with
    | [] => exact .inl ⟨_, decodeScript_opcodeAlone hopc⟩
    | hdr :: body =>
      rcases Nat.lt_or_ge body.length (metaCount hdr + if metaDelay hdr then 1 else 0) with hcut | hwhole
      · exact .inl ⟨_, decodeScript_cutOff hopc hcut⟩
      · obtain ⟨i, rest, hwf, hbytes, hne, _⟩ := exists_entryBytes hopc hwhole
        exact .inr ⟨i, rest, hwf, hbytes, hne⟩

/-- The decoder reads exactly the well-formed entries, each from the bytes the encoder writes for it. -/
theorem decodeScript_eq_ok_iff {bytes rest : List Byte} {i : Instr} :
    decodeScript bytes = .ok (i, rest) ↔ i.wf = true ∧ bytes = entryBytes i ++ rest ∧ entryBytes i ≠ [] := by
  refine ⟨fun h => ?_, fun ⟨hwf, hbytes, hne⟩ => hbytes ▸ decodeScript_entryBytes hwf hne rest⟩
  rcases decodeScript_cutOff_or_entry bytes with ⟨e, he⟩ | ⟨i', rest', hwf, rfl, hne⟩
  · cases he.symm.trans h
  · cases (decodeScript_entryBytes hwf hne rest').symm.trans h
    exact ⟨hwf, rfl, hne⟩

/-- Bit 7 of META as a number of DLY bytes (R55). -/
theorem toNat_delayBit (m : Byte) : (m.extractLsb' 7 1).toNat = if metaDelay m then 1 else 0 := by
  rw [BitVec.extractLsb'_toNat, metaDelay, BitVec.getLsbD, Nat.testBit_eq_decide_div_mod_eq, Nat.shiftRight_eq_div_pow]
  simp only [decide_eq_true_eq]
  split <;> omega

/-- Settles O3: it is one direction of what the decoder reads. -/
theorem decodedEntryIsEncoded : Obligations.DecodedEntryIsEncoded := fun _ _ _ => decodeScript_eq_ok_iff.1

/-- Settles O4: the decoder tests META's two fields, and an entry's length is that of the bytes read. -/
theorem entryLengthFromMeta : Obligations.EntryLengthFromMeta := by
  intro opc hdr body count need
  have hneed : need = metaCount hdr + if metaDelay hdr then 1 else 0 :=
    congrArg (metaCount hdr + ·) (toNat_delayBit hdr)
  refine ⟨fun hopc hle => ?_, fun hopc hlt => ⟨_, decodeScript_cutOff hopc (hneed ▸ hlt)⟩, decodeScript_zero body⟩
  obtain ⟨i, rest, hwf, hbytes, hne, hform⟩ := exists_entryBytes (hdr := hdr) (body := body) hopc (hneed ▸ hle)
  have hdecode : decodeScript (opc :: hdr :: body) = .ok (i, rest) := decodeScript_eq_ok_iff.2 ⟨hwf, hbytes, hne⟩
  have hentry : (entryBytes i).length = 2 + need := by
    rcases hform with ⟨hdelay, args, rfl, hargs⟩ | ⟨hdelay, args, dly, rfl, hargs⟩
    · rw [(Laws.EntryLength.cmd opc args).1, entryLength, hneed, hargs, hdelay]; rfl
    · rw [(Laws.EntryLength.cmdDly opc args dly).1, entryLength, hneed, hargs, hdelay, if_pos rfl]; omega
  have hlength := congrArg List.length hbytes
  simp only [List.length_cons, List.length_append, hentry] at hlength
  have hcount := metaCount_lt hdr
  have hbound : need ≤ 128 := by rw [hneed]; split <;> omega
  exact ⟨i, rest, hdecode, hentry, by omega, by omega, by omega, hform⟩

/-- An entry other than the terminator is read and the entries after it are read on. -/
theorem decodeEntries_entryBytes {i : Instr} (hwf : i.wf = true)
    (hform : (∃ opc args, i = .cmd opc args) ∨ ∃ opc args dly, i = .cmdDly opc args dly) (fuel : Nat)
    (bytes : List Byte) : decodeEntries (fuel + 1) (entryBytes i ++ bytes) = (decodeEntries fuel bytes).map (i :: ·) := by
  rcases hform with ⟨opc, args, rfl⟩ | ⟨opc, args, dly, rfl⟩
  · rw [decodeEntries, decodeScript_entryBytes hwf (List.cons_ne_nil _ _)]
  · rw [decodeEntries, decodeScript_entryBytes hwf (List.cons_ne_nil _ _)]

/-- Settles O2, by induction on the entries before the terminator. -/
theorem scriptDecodesBack : Obligations.ScriptDecodesBack := by
  intro es rest hes
  induction es with
  | nil =>
    change decodeEntries 1 (0 :: rest) = _
    rw [decodeEntries, decodeScript_zero]
    rfl
  | cons i es ih =>
    obtain ⟨⟨hwf, hform⟩, htail⟩ := List.forall_mem_cons.1 hes
    have hbytes : encodeScript (i :: es ++ [.term]) ++ rest = entryBytes i ++ (encodeScript (es ++ [.term]) ++ rest) := by
      simp [encodeScript]
    rw [hbytes, List.length_cons, decodeEntries_entryBytes hwf hform, ih htail]
    rfl

/-! ### Host operation words -/

/-- The word a host writes for an operation code selects that code. -/
theorem hostOpField_encodeHostOp (op : BitVec 4) : hostOpField (encodeHostOp op) = op :=
  (BitVec.extractLsb'_setWidth_of_le (by omega)).trans BitVec.extractLsb'_eq_self

/-- A reserved operation code is read back from its word. -/
theorem decodeHostOp_encodeHostOp_reserved (op : BitVec 4) (h : reservedOpWf op = true) :
    decodeHostOp (encodeHostOp op) = .hostopReserved op := by
  simp only [reservedOpWf, decide_eq_true_eq] at h
  rw [decodeHostOp, hostOpField_encodeHostOp, if_neg, if_neg, if_neg, if_neg] <;> (rintro rfl; simp at h)

/-- Settles O1: in each stream the decoder reads the encoder's fields back. -/
theorem decodeEncode : Obligations.DecodeEncode := by
  intro i hwf
  have hentry : entryBytes i ≠ [] → (decodeScript (entryBytes i)).map Prod.fst = .ok i := fun hne => by
    rw [← List.append_nil (entryBytes i), decodeScript_entryBytes hwf hne]
    rfl
  cases i with
  | term | cmd _ _ | cmdDly _ _ _ => exact hentry (List.cons_ne_nil _ _)
  | runScript | convertFrame | beginRamWrite | sendFrame =>
    exact congrArg Except.ok (by rw [decodeHostOp, hostOpField_encodeHostOp]; rfl)
  | hostopReserved op => exact congrArg Except.ok (decodeHostOp_encodeHostOp_reserved op hwf)

/-! ### Delay codes and words of the spec -/

/-- What a code other than 255 means (R54). -/
theorem delayMs_of_ne {d : Byte} (h : d ≠ 255) : delayMs d = d.toNat ∧ d.toNat ≤ 254 := ⟨if_neg h, by bv_omega⟩

/-- The assembler's code of the wait a code means is that code. -/
theorem delayByte?_delayMs (d : Byte) : delayByte? (delayMs d) = some d := by
  by_cases h : d = 255
  · subst h; rfl
  · obtain ⟨hms, hle⟩ := delayMs_of_ne h
    rw [hms, delayByte?, if_neg (by simp only [Config.longDelayMs]; omega), if_pos hle, BitVec.ofNat_toNat,
      BitVec.setWidth_eq]

/-- The code the assembler writes for a wait means that wait. -/
theorem delayMs_of_delayByte? {ms : Nat} {d : Byte} (h : delayByte? ms = some d) : delayMs d = ms := by
  unfold delayByte? at h
  split at h
  · rename_i hlong
    cases h
    exact hlong.symm
  split at h
  · cases h
    obtain ⟨hms, _⟩ := delayMs_of_ne (d := BitVec.ofNat 8 ms) (by bv_omega)
    rw [hms, BitVec.toNat_ofNat]
    omega
  · cases h

/-- Settles O6: the two functions are inverse to each other, and a code means at most 254 ms or 500 ms. -/
theorem delayCodes : Obligations.DelayCodes := by
  refine ⟨fun _ => rfl, fun d ms => ⟨fun h => h ▸ delayByte?_delayMs d, delayMs_of_delayByte?⟩, fun ms hms d => ?_⟩
  by_cases h : d = 255
  · subst h
    change 500 ≠ ms
    omega
  · obtain ⟨hd, hle⟩ := delayMs_of_ne h
    omega

/-- Settles O7, by running the decoder on each word. -/
theorem specWordsDecode : Obligations.SpecWordsDecode := by
  unfold Obligations.SpecWordsDecode
  decide

end Sys2Proof

namespace Sys2Proof.Machine

/-! ### Steps on the host's CMD write -/

/-- Settles O9: the access is taken off the host's program, and a 32-bit write to address 0 is a CMD write. -/
theorem stepRunsHostOp : Obligations.StepRunsHostOp := fun s w more hfaults hhost => by
  rw [step_of_noFault hfaults, stepCore, hhost]
  rfl

/-- Settles O29: a rejected CMD write sets that flag alone. -/
theorem reservedCodeRejected : Obligations.ReservedCodeRejected := fun _ _ => rfl

/-! ### A transaction that succeeds -/

/-- The state after attempt `n`, which the link answered with `ok` (R69). -/
def attempted (n : Nat) (bytes : List Byte) (speed : Word) (ok : Bool) (s : State) : State :=
  { s with
    att := n
    csN := true
    sclk := false
    answers := s.answers.tail
    draws := s.draws + 1
    trace := s.trace ++ [.attempt n (pinLevel .dc s) speed bytes ok] }

/-- The state after a wait (R71). -/
def waited (ms : Nat) (s : State) : State := { s with timer := none, trace := s.trace ++ [.wait ms] }

/-- The state after a transaction that succeeds after `k` failed attempts (R70). -/
def sent (bytes : List Byte) (speed : Word) (k : Nat) (s : State) : State :=
  { s with
    att := k + 1
    csN := true
    sclk := false
    timer := if k = 0 then s.timer else none
    answers := s.answers.drop (k + 1)
    draws := s.draws + (k + 1)
    trace := s.trace ++ retriedEvents (pinLevel .dc s) speed bytes k }

theorem attempt_answer (n : Nat) (bytes : List Byte) (speed : Word) {ok : Bool} {s : State} (hhost : s.host = [])
    (h : answerAt s 0 = ok) : attempt n bytes speed s = .go ok (attempted n bytes speed ok s) := by
  subst h
  exact attempt_nil n bytes speed hhost

theorem wait_waited (ms : Nat) {s : State} (hhost : s.host = []) : wait ms s = .go () (waited ms s) :=
  wait_nil ms hhost

theorem answerAt_waited_attempted (ms n : Nat) (bytes : List Byte) (speed : Word) (ok : Bool) (s : State) (j : Nat) :
    answerAt (waited ms (attempted n bytes speed ok s)) j = answerAt s (j + 1) :=
  answerAt_takeAnswer s j

/-- An attempt that succeeds is the transaction's last. -/
theorem xferLoop_ok (bytes : List Byte) (speed : Word) (left : Nat) {s : State} (hhost : s.host = [])
    (h : answerAt s 0 = true) :
    xferLoop bytes speed (left + 1) s = .go true (attempted (3 - left) bytes speed true s) := by
  rw [xferLoop, attempt_answer _ _ _ hhost h]
  rfl

/-- After an attempt that fails, and is not the last allowed, come a wait of 1 ms and the next attempt. -/
theorem xferLoop_retry (bytes : List Byte) (speed : Word) (left : Nat) {s : State} (hhost : s.host = [])
    (h : answerAt s 0 = false) :
    xferLoop bytes speed (left + 2) s =
      xferLoop bytes speed (left + 1) (waited 1 (attempted (3 - (left + 1)) bytes speed false s)) := by
  rw [xferLoop, attempt_answer _ _ _ hhost h, bind_go, if_neg Bool.false_ne_true, if_neg (Nat.succ_ne_zero left),
    wait_waited]
  · rfl
  · exact hhost

/-- A transaction that succeeds at its first, second or third attempt. -/
theorem xfer_sent (bytes : List Byte) (speed : Word) {k : Nat} (hk : k < 3) {s : State} (hhost : s.host = [])
    (hlink : LinkGives s (retriedAnswers k)) : xfer bytes speed s = .go true (sent bytes speed k s) := by
  change xferLoop bytes speed 3 s = _
  match k with
  | 0 =>
    rw [xferLoop_ok bytes speed 2 hhost (hlink 0 true rfl)]
    simp [sent, attempted, retriedEvents]
  | 1 =>
    rw [xferLoop_retry bytes speed 1 hhost (hlink 0 false rfl), xferLoop_ok]
    · simp [sent, attempted, waited, retriedEvents, pinLevel, ← List.drop_one]
    · exact hhost
    · exact (answerAt_waited_attempted ..).trans (hlink 1 true rfl)
  | 2 =>
    rw [xferLoop_retry bytes speed 1 hhost (hlink 0 false rfl), xferLoop_retry, xferLoop_ok]
    · simp [sent, attempted, waited, retriedEvents, pinLevel, List.range_succ, ← List.drop_one]
    · exact hhost
    · exact (answerAt_waited_attempted ..).trans ((answerAt_waited_attempted ..).trans (hlink 2 true rfl))
    · exact hhost
    · exact (answerAt_waited_attempted ..).trans (hlink 1 false rfl)

/-- A byte sent in a transaction that succeeds. -/
theorem sendByte_sent (cause : FatalCause) (b : Byte) {k : Nat} (hk : k < 3) {s : State} (hhost : s.host = [])
    (hlink : LinkGives s (retriedAnswers k)) : sendByte cause b s = .go () (sent [b] s.spdCmd k s) := by
  rw [sendByte, xfer_sent _ _ hk hhost hlink, bind_go, if_pos rfl]

/-- The sequencer's write of the DC latch emits the EvPin of that line alone (R63). -/
theorem setDc_eq (v : Bool) (s : State) :
    setDc v s = { s with gpioOut := { s.gpioOut with dc := v }, trace := s.trace ++ dcEvents s v } := by
  simp [setDc, setLines, pinEvents, pinEvent, lineBit, dcEvents]

/-! ### The parts of an entry whose transactions succeed -/

/-- A fetch within SCRIPT_ROM (R73). -/
theorem fetch_within {i : Nat} {s : State} (hhost : s.host = []) (hi : i < s.cfg.romBytes) :
    fetch i s = .go (scriptByte s.cfg i) (setPointer i s) :=
  (fetch_nil i hhost).trans (if_neg hi.not_ge)

/-- A fetch past the end of SCRIPT_ROM (R73). -/
theorem fetch_beyond {i : Nat} {s : State} (hhost : s.host = []) (hi : s.cfg.romBytes ≤ i) :
    fetch i s = .stop (raiseFatal .scriptOverrun (setPointer i s)) :=
  (fetch_nil i hhost).trans (if_pos hi)

/-- The state after DC low and an opcode that succeeds after `k` failed attempts (step 2 of R77 and R78). -/
def opcodeSent (opc : Byte) (k : Nat) (s : State) : State :=
  { s with
    att := k + 1
    csN := true
    sclk := false
    timer := if k = 0 then s.timer else none
    gpioOut := { s.gpioOut with dc := false }
    answers := s.answers.drop (k + 1)
    draws := s.draws + (k + 1)
    trace := s.trace ++ opcodeEvents s opc k }

theorem sendOpcode_sent (opc : Byte) {k : Nat} (hk : k < 3) {s : State} (hhost : s.host = [])
    (hlink : LinkGives s (retriedAnswers k)) : sendOpcode opc s = .go () (opcodeSent opc k s) := by
  rw [sendOpcode, drivePin_nil _ hhost, bind_go, sendByte_sent (s := setDc false s) _ _ hk hhost hlink, setDc_eq]
  simp [sent, opcodeSent, opcodeEvents, pinLevel, lineBit]

theorem readMeta_within {i : Nat} (n : Nat) (delay : Bool) {s : State} (hhost : s.host = []) (hi : i < s.cfg.romBytes) :
    readMeta i n delay s = .go () (setDc true (setHeader n delay (setPointer i s))) := by
  rw [readMeta, fetch_within hhost hi, bind_go]
  exact drivePin_nil _ hhost

/-- Where one of several transactions waited, no timer is left. -/
theorem timer_cons (t : Option Nat) (k : Nat) (ks : List Nat) :
    (if ∀ x ∈ ks, x = 0 then (if k = 0 then t else none) else none) = if ∀ x ∈ k :: ks, x = 0 then t else none := by
  by_cases hk : k = 0 <;> simp [hk]

/-- The state after arguments sent from index `j` on, each in a transaction that succeeds after the number of failed attempts
beside it in `ks`; `i` is the offset before the first of them. -/
def argsSent (i j : Nat) (args : List Byte) (ks : List Nat) (s : State) : State :=
  { s with
    sp := BitVec.ofNat 17 (i + args.length)
    argi := if args = [] then s.argi else j + args.length - 1
    att := (ks.map (· + 1)).getLastD s.att
    timer := if ∀ x ∈ ks, x = 0 then s.timer else none
    answers := s.answers.drop (ks.flatMap retriedAnswers).length
    draws := s.draws + (ks.flatMap retriedAnswers).length
    trace := s.trace ++ argEvents s args ks }

/-- The state after one argument, at index `j` and offset `i + 1`. -/
def argSent (i j : Nat) (a : Byte) (k : Nat) (s : State) : State :=
  sent [a] s.spdCmd k (setPointer (i + 1) (setArgIndex j s))

/-- What holds before arguments that lie within SCRIPT_ROM and are all sent, each at its first, second or third attempt: SP is
at the byte before them, the link is idle and DC is high. -/
structure ArgsReady (i : Nat) (args : List Byte) (ks : List Nat) (s : State) : Prop where
  host : s.host = []
  within : i + args.length < s.cfg.romBytes
  pointer : s.sp = BitVec.ofNat 17 i
  csN : s.csN = true
  sclk : s.sclk = false
  dc : s.gpioOut.dc = true
  retries : ∀ x ∈ ks, x < 3
  count : ks.length = args.length
  link : LinkGives s (ks.flatMap retriedAnswers)

theorem ArgsReady.tail {i j k : Nat} {a : Byte} {args : List Byte} {ks : List Nat} {s : State}
    (h : ArgsReady i (a :: args) (k :: ks) s) : ArgsReady (i + 1) args ks (argSent i j a k s) where
  host := h.host
  within := by have := h.within; simp only [List.length_cons] at this; change i + 1 + _ < s.cfg.romBytes; omega
  pointer := rfl
  csN := rfl
  sclk := rfl
  dc := h.dc
  retries := (List.forall_mem_cons.1 h.retries).2
  count := Nat.succ.inj h.count
  link := h.link.right (by simp [argSent, sent]) (by simp [argSent, sent])

/-- One argument sent and then the others. -/
theorem argsSent_argSent (i j : Nat) (a : Byte) (k : Nat) (args : List Byte) (ks : List Nat) {s : State}
    (hcs : s.csN = true) (hsclk : s.sclk = false) (hdc : s.gpioOut.dc = true) :
    argsSent (i + 1) (j + 1) args ks (argSent i j a k s) = argsSent i j (a :: args) (k :: ks) s := by
  simp [argsSent, argSent, sent, setPointer, setArgIndex, timer_cons, argEvents, pinLevel, lineBit, hcs, hsclk, hdc,
    Nat.add_assoc, Nat.add_comm 1, List.getLastD_cons, -List.getLastD_eq_getLast?]

theorem sendArgs_sent {args : List Byte} {ks : List Nat} {i j : Nat} {s : State} (h : ArgsReady i args ks s) :
    sendArgs (i + 1) j args s = .go () (argsSent i j args ks s) := by
  induction args generalizing ks i j s with
  | nil =>
    obtain rfl := List.length_eq_zero_iff.1 h.count
    simp [sendArgs, argsSent, argEvents, ← h.pointer]
  | cons a args ih =>
    obtain ⟨k, ks, rfl⟩ := List.exists_cons_of_length_eq_add_one h.count
    have hi : i + 1 < s.cfg.romBytes := by have := h.within; simp only [List.length_cons] at this; omega
    have hk : k < 3 := (List.forall_mem_cons.1 h.retries).1
    have hbyte : sendByte .argXfer a (setPointer (i + 1) (setArgIndex j s)) = .go () (argSent i j a k s) :=
      sendByte_sent .argXfer a hk h.host (h.link.left.congr rfl rfl)
    rw [sendArgs, fetch_within (s := setArgIndex j s) h.host hi, bind_go, hbyte, bind_go, ih h.tail,
      argsSent_argSent i j a k args ks h.csN h.sclk h.dc]

/-- The state after an entry's opcode, META with the fields `n` and `delay`, and arguments, all sent as `argsSent` says
(steps 2 to 4 of R77 and R78). -/
def bodySent (opc : Byte) (n : Nat) (delay : Bool) (args : List Byte) (k : Nat) (ks : List Nat) (s : State) : State :=
  { s with
    sp := BitVec.ofNat 17 (s.sp.toNat + 1 + args.length)
    n := BitVec.ofNat 7 n
    dflag := delay
    argi := if args = [] then s.argi else args.length - 1
    att := ks.getLastD k + 1
    csN := true
    sclk := false
    timer := if ∀ x ∈ k :: ks, x = 0 then s.timer else none
    gpioOut := { s.gpioOut with dc := true }
    answers := s.answers.drop ((k :: ks).flatMap retriedAnswers).length
    draws := s.draws + ((k :: ks).flatMap retriedAnswers).length
    trace := s.trace ++ opcodeEvents s opc k ++ [.pin .dc true s.gpioOe.dc] ++ argEvents s args ks }

/-- The opcode and META sent, and then the arguments. -/
theorem argsSent_opcodeSent (opc : Byte) (n : Nat) (delay : Bool) (args : List Byte) (k : Nat) (ks : List Nat) (s : State) :
    argsSent (s.sp.toNat + 1) 0 args ks
      (setDc true (setHeader n delay (setPointer (s.sp.toNat + 1) (opcodeSent opc k s)))) =
    bodySent opc n delay args k ks s := by
  rw [setDc_eq]
  simp [argsSent, bodySent, opcodeSent, setHeader, setPointer, timer_cons, dcEvents, argEvents, Nat.add_assoc]

/-- The opcode, META and arguments of the entry at SP, as many of them as are there. -/
def sendEntry (opc : Byte) (n : Nat) (delay : Bool) (args : List Byte) (s : State) : Flow Unit :=
  (sendOpcode opc s).bind fun _ t =>
    (readMeta (s.sp.toNat + 1) n delay t).bind fun _ t => sendArgs (s.sp.toNat + 2) 0 args t

theorem commandBody_eq_sendEntry (opc : Byte) (args : List Byte) (delay : Bool) (s : State) :
    commandBody s.sp.toNat opc args delay s = sendEntry opc args.length delay args s := rfl

/-- What holds before an entry whose opcode, META and `args` lie within SCRIPT_ROM and are all sent, each byte at its first,
second or third attempt. -/
structure EntryReady (args : List Byte) (k : Nat) (ks : List Nat) (s : State) : Prop where
  host : s.host = []
  within : s.sp.toNat + 1 + args.length < s.cfg.romBytes
  retries : ∀ x ∈ k :: ks, x < 3
  count : ks.length = args.length
  link : LinkGives s ((k :: ks).flatMap retriedAnswers)

theorem sendEntry_sent (opc : Byte) (n : Nat) (delay : Bool) {args : List Byte} {k : Nat} {ks : List Nat} {s : State}
    (h : EntryReady args k ks s) : sendEntry opc n delay args s = .go () (bodySent opc n delay args k ks s) := by
  obtain ⟨hhost, hrom, hretries, hcount, hlink⟩ := h
  obtain ⟨hk, hks⟩ := List.forall_mem_cons.1 hretries
  have hargs : ArgsReady (s.sp.toNat + 1) args ks
      (setDc true (setHeader n delay (setPointer (s.sp.toNat + 1) (opcodeSent opc k s)))) :=
    ⟨hhost, hrom, rfl, rfl, rfl, rfl, hks, hcount, hlink.right (by simp [opcodeSent]) (by simp [opcodeSent])⟩
  rw [sendEntry, sendOpcode_sent opc hk hhost hlink.left, bind_go,
    readMeta_within (s := opcodeSent opc k s) n delay hhost (show s.sp.toNat + 1 < s.cfg.romBytes by omega), bind_go,
    sendArgs_sent hargs, argsSent_opcodeSent]

/-! ### An entry cut off by the end of SCRIPT_ROM -/

theorem Flow.bind_assoc {α β γ : Type} (r : Flow α) (f : α → State → Flow β) (g : β → State → Flow γ) :
    (r.bind f).bind g = r.bind fun a s => (f a s).bind g := by
  cases r with
  | go a s => rfl
  | stop s => rfl

/-- Where an argument is missing, those that are there are sent and the fetch of the next one overruns. -/
theorem runOverrun_shortArgs (opc hdr : Byte) (avail : List Byte) (s : State) :
    runOverrun (.shortArgs opc hdr avail) s =
      (sendEntry opc (metaCount hdr) (metaDelay hdr) avail s).bind fun _ t =>
        (fetch (s.sp.toNat + 2 + avail.length) (setArgIndex avail.length t)).bind fun _ t => .go () t := by
  simp only [runOverrun, sendEntry, Flow.bind_assoc]

/-- A running script whose next entry is cut off runs what is there of it. -/
theorem step_cutOff {s : State} {e : DecodeError} (hfaults : s.faults = []) (hhost : s.host = []) (hmode : s.mode = .run)
    (hop : s.op = .runScript) (h : decodeScript (s.cfg.rom.drop s.sp.toNat) = .error e) :
    step s = .next (runOverrun e s).state := by
  rw [step_of_noFault hfaults, stepCore, hhost]
  simp only [advance, hmode, hop, nextEntry, fetchBytes, h]

/-- Opcode, META and the arguments that are there are sent, and the fetch past the end of SCRIPT_ROM is fatal. -/
theorem runOverrun_cutOff (opc : Byte) {hdr : Byte} {avail : List Byte} {k : Nat} {ks : List Nat} {s : State}
    (hready : EntryReady avail k ks s) (hend : s.cfg.romBytes = s.sp.toNat + 2 + avail.length)
    (hcut : avail.length < metaCount hdr + if metaDelay hdr then 1 else 0) :
    let body := bodySent opc (metaCount hdr) (metaDelay hdr) avail k ks s
    runOverrun (if avail.length < metaCount hdr then .shortArgs opc hdr avail else .noDelay opc avail) s =
      .stop (raiseFatal .scriptOverrun (setPointer s.cfg.romBytes
        (if avail.length < metaCount hdr then setArgIndex avail.length body else body))) := by
  intro body
  by_cases hshort : avail.length < metaCount hdr
  · rw [if_pos hshort, if_pos hshort, runOverrun_shortArgs, sendEntry_sent _ _ _ hready, bind_go,
      fetch_beyond (s := setArgIndex avail.length body) hready.host hend.le, bind_stop, ← hend]
  · have hdelay : metaDelay hdr = true := by
      by_contra hno
      rw [if_neg hno] at hcut
      exact hshort hcut
    have hlen : avail.length = metaCount hdr := by rw [if_pos hdelay] at hcut; omega
    have hsent : commandBody s.sp.toNat opc avail true s = .go () body := by
      rw [commandBody_eq_sendEntry, sendEntry_sent _ _ _ hready, hlen, ← hdelay]
    rw [if_neg hshort, if_neg hshort, runOverrun, hsent, bind_go,
      fetch_beyond (s := body) hready.host hend.le, bind_stop, ← hend]

/-- Settles O12: each of the three forms of the tail is run up to the fetch of the byte that is not there. -/
theorem overrunIsFatal : Obligations.OverrunIsFatal := by
  intro s opc hdr avail k ks hfaults hhost hmode hop _ hretries hcount tail count headAnswers allAnswers
  have hsize : tail.length = s.cfg.romBytes - s.sp.toNat := List.length_drop
  refine ⟨fun htail => ?noOpcode, fun htail hopc hlink => ?noMeta, fun htail hopc hcut hlink => ?cut⟩
  case noOpcode =>
    have hdecode : decodeScript tail = .error .noOpcode := by rw [htail]; rfl
    have hend : s.cfg.romBytes ≤ s.sp.toNat := List.drop_eq_nil_iff.1 htail
    rw [step_cutOff hfaults hhost hmode hop hdecode, runOverrun, fetch_beyond hhost hend]
    simp [raiseFatal, emit, setPointer]
  case noMeta =>
    have hdecode : decodeScript tail = .error (.noMeta opc) := by rw [htail, decodeScript_opcodeAlone hopc]
    have hend : s.cfg.romBytes ≤ s.sp.toNat + 1 := by
      rw [htail, List.length_singleton] at hsize
      omega
    have hk : k < 3 := (List.forall_mem_cons.1 hretries).1
    rw [step_cutOff hfaults hhost hmode hop hdecode, runOverrun, sendOpcode_sent opc hk hhost hlink, bind_go,
      fetch_beyond (s := opcodeSent opc k s) hhost hend]
    simp [raiseFatal, emit, setPointer, opcodeSent, headAnswers]
  case cut =>
    have hend : s.cfg.romBytes = s.sp.toNat + 2 + avail.length := by
      rw [htail, List.length_cons, List.length_cons] at hsize
      omega
    have hready : EntryReady avail k ks s := ⟨hhost, by omega, hretries, hcount, hlink⟩
    have hn : BitVec.ofNat 7 (metaCount hdr) = hdr.extractLsb' 0 7 := (BitVec.ofNat_toNat ..).trans (BitVec.setWidth_eq _)
    have hmeta : count = metaCount hdr := rfl
    rw [step_cutOff hfaults hhost hmode hop (htail ▸ decodeScript_cutOff hopc hcut), runOverrun_cutOff opc hready hend hcut,
      ← hn]
    by_cases hshort : avail.length < metaCount hdr
    · simp [raiseFatal, emit, setPointer, setArgIndex, bodySent, metaDelay, allAnswers, hmeta, hshort]
    · simp [raiseFatal, emit, setPointer, bodySent, metaDelay, allAnswers, hmeta, hshort]

end Sys2Proof.Machine
end

section
/-! PROOFS. The statements of spec/40_transport.md. First the lines and the primitives, with the transaction that fails three
times (`xfer_failed`) beside the one that succeeds (`xfer_sent`); then the script entries and BEGIN_RAM_WRITE whose
transactions succeed; then the entries, whole or cut off, that end at the opcode or the argument whose transaction fails. -/

namespace Sys2Proof.Machine

/-! ### Output lines -/

/-- The EvPin of one line, the new pair compared with the old one (R63). -/
theorem pinEvent_eq (out oe out' oe' : Lines) (l : Line) :
    pinEvent out oe out' oe' l =
      if lineBit out' l = lineBit out l ∧ lineBit oe' l = lineBit oe l then []
      else [.pin l (lineBit out' l) (lineBit oe' l)] := by
  simp only [pinEvent, eq_comm]

/-- Settles O18: the events of a change are those of the three lines, one after the other. -/
theorem pinEventsOfChange : Obligations.PinEventsOfChange := by
  intro out oe s
  refine ⟨rfl, rfl, rfl, rfl, rfl, fun _ => rfl, ?_⟩
  rw [setLines_trace, pinEvents, pinEvent_eq, pinEvent_eq, pinEvent_eq, List.append_assoc, List.append_assoc,
    List.append_assoc]
  rfl

/-! ### The transaction primitives -/

/-- Settles O14: an attempt is answered by the link's next draw. -/
theorem attemptResult : Obligations.AttemptResult := fun k bytes speed _ hhost => attempt_answer k bytes speed hhost rfl

/-- Settles O15: between the two turns of a quiet host only EvWait is left of a wait. -/
theorem waitResult : Obligations.WaitResult := fun ms _ hhost => wait_waited ms hhost

/-- The state after a transaction that fails (R70). -/
def failed (bytes : List Byte) (speed : Word) (s : State) : State :=
  { s with
    att := 3
    csN := true
    sclk := false
    timer := none
    answers := s.answers.drop 3
    draws := s.draws + 3
    trace := s.trace ++ failedEvents (pinLevel .dc s) speed bytes }

/-- The third attempt is the last one, with no wait after it. -/
theorem xferLoop_last_failed (bytes : List Byte) (speed : Word) {s : State} (hhost : s.host = [])
    (h : answerAt s 0 = false) : xferLoop bytes speed 1 s = .go false (attempted 3 bytes speed false s) := by
  rw [xferLoop, attempt_answer _ _ _ hhost h]
  rfl

/-- A transaction that fails three times. -/
theorem xfer_failed (bytes : List Byte) (speed : Word) {s : State} (hhost : s.host = []) (hlink : LinkGives s failedAnswers) :
    xfer bytes speed s = .go false (failed bytes speed s) := by
  change xferLoop bytes speed 3 s = _
  rw [xferLoop_retry bytes speed 1 hhost (hlink 0 false rfl), xferLoop_retry, xferLoop_last_failed]
  · simp [failed, attempted, waited, failedEvents, pinLevel, ← List.drop_one]
  · exact hhost
  · exact (answerAt_waited_attempted ..).trans ((answerAt_waited_attempted ..).trans (hlink 2 false rfl))
  · exact hhost
  · exact (answerAt_waited_attempted ..).trans (hlink 1 false rfl)

/-- Failures said one by one are answers the link gives. -/
theorem linkGives_replicate_false {s : State} {k : Nat} (h : ∀ j, j < k → answerAt s j = false) :
    LinkGives s (List.replicate k false) := fun j ok hj => by
  obtain ⟨hlt, rfl⟩ : j < k ∧ false = ok := by simpa [List.getElem?_replicate] using hj
  exact h j hlt

/-- One more answer after those given. -/
theorem LinkGives.concat {s : State} {l : List Bool} {ok : Bool} (h : LinkGives s l) (hok : answerAt s l.length = ok) :
    LinkGives s (l ++ [ok]) := fun j ok' hj => by
  rcases Nat.lt_or_ge j l.length with hlt | hge
  · exact h j ok' (by rwa [List.getElem?_append_left hlt] at hj)
  · rw [List.getElem?_append_right hge, List.getElem?_singleton, Option.ite_none_right_eq_some] at hj
    obtain ⟨hj, ⟨⟩⟩ := hj
    rwa [show j = l.length by omega]

/-- Settles O13: the first success among the link's three answers, if there is one, says which transaction it is. -/
theorem xferBoundedRetry : Obligations.XferBoundedRetry := by
  intro bytes speed s hhost ev
  have hlink : LinkGives s [] := fun _ _ h => nomatch h
  cases h0 : answerAt s 0 with
  | true => exact ⟨_, _, xfer_sent (k := 0) bytes speed (by decide) hhost (hlink.concat h0), rfl, rfl, rfl, rfl, rfl, rfl⟩
  | false =>
    replace hlink : LinkGives s [false] := hlink.concat h0
    cases h1 : answerAt s 1 with
    | true => exact ⟨_, _, xfer_sent (k := 1) bytes speed (by decide) hhost (hlink.concat h1), rfl, rfl, rfl, rfl, rfl, rfl⟩
    | false =>
      replace hlink : LinkGives s [false, false] := hlink.concat h1
      cases h2 : answerAt s 2 with
      | true =>
        exact ⟨_, _, xfer_sent (k := 2) bytes speed (by decide) hhost (hlink.concat h2), rfl, rfl, rfl, rfl, rfl, rfl⟩
      | false => exact ⟨_, _, xfer_failed bytes speed hhost (hlink.concat h2), rfl, rfl, rfl, rfl, rfl, rfl⟩

/-! ### Operations whose transactions succeed -/

/-- Settles O21: opcode, META and arguments are sent, and SP moves past them. -/
theorem cmdResult : Obligations.CmdResult := by
  intro opc args k ks s hhost hrom hretries hcount given hlink
  have hready : EntryReady args k ks s := ⟨hhost, by omega, hretries, hcount, hlink⟩
  rw [exec, execCmd, runCmd, commandBody_eq_sendEntry, sendEntry_sent opc args.length false hready]
  rfl

/-- Settles O22: as for CMD, then DLY is fetched and waited for. -/
theorem cmdDlyResult : Obligations.CmdDlyResult := by
  intro opc args dly k ks s hhost hrom hretries hcount given hlink
  have hready : EntryReady args k ks s := ⟨hhost, by omega, hretries, hcount, hlink⟩
  have hdly : s.sp.toNat + 2 + args.length < s.cfg.romBytes := by omega
  let body := bodySent opc args.length true args k ks s
  rw [exec, execCmdDly, runCmdDly, commandBody_eq_sendEntry, sendEntry_sent opc args.length true hready, bind_go,
    fetch_within (s := body) hhost hdly, bind_go,
    wait_waited (s := setPointer (s.sp.toNat + 2 + args.length) body) _ hhost]
  rfl

/-- BEGIN_RAM_WRITE with a nonzero speed is an opcode sent as a script entry's is, and the end of the operation (R80). -/
theorem beginRamWriteBody_nil {s : State} (hhost : s.host = []) (hspeed : s.spdCmd ≠ 0) :
    beginRamWriteBody s = (sendOpcode s.cfg.ramwrOpcode s).bind fun _ t => finish t := by
  rw [beginRamWriteBody, if_neg hspeed, sendOpcode, drivePin_nil _ hhost]
  rfl

/-- Settles O30: the operation is accepted, its opcode is sent, and it ends. -/
theorem beginRamWriteResult : Obligations.BeginRamWriteResult := by
  intro k s hhost hmode hspeed hk hlink
  have hbody : beginRamWriteBody (acceptCmd .beginRamWrite s) =
      .go () (endOperation (opcodeSent s.cfg.ramwrOpcode k (acceptCmd .beginRamWrite s))) := by
    rw [beginRamWriteBody_nil (s := acceptCmd .beginRamWrite s) hhost hspeed,
      sendOpcode_sent (s := acceptCmd .beginRamWrite s) _ hk hhost (hlink.congr rfl rfl)]
    exact finish_nil hhost
  rw [exec, execBeginRamWrite, hostWriteCmd_idle hmode, hbody]
  simp [endOperation, opcodeSent, acceptCmd, hostOpCode, opcodeEvents, dcEvents, hmode]

/-! ### A byte whose transaction fails three times -/

theorem sendByte_failed (cause : FatalCause) (b : Byte) {s : State} (hhost : s.host = []) (hlink : LinkGives s failedAnswers) :
    sendByte cause b s = .stop (raiseFatalByte cause b (failed [b] s.spdCmd s)) := by
  rw [sendByte, xfer_failed _ _ hhost hlink, bind_go, if_neg Bool.false_ne_true,
    hostTurn_nil (s := failed [b] s.spdCmd s) hhost, bind_go]

/-- The state after DC low and an opcode that fails three times (step 2 of R77 and R78). -/
def opcodeFailed (opc : Byte) (s : State) : State :=
  { s with
    mode := .fatalHalt
    fatalCause := .cmdXfer
    faultByte := opc
    att := 3
    csN := true
    sclk := false
    timer := none
    gpioOut := { s.gpioOut with dc := false }
    answers := s.answers.drop 3
    draws := s.draws + 3
    trace := s.trace ++ dcEvents s false ++ failedEvents (levelOf false s.gpioOe.dc) s.spdCmd [opc] ++ [.fatal .cmdXfer] }

theorem sendOpcode_failed (opc : Byte) {s : State} (hhost : s.host = []) (hlink : LinkGives s failedAnswers) :
    sendOpcode opc s = .stop (opcodeFailed opc s) := by
  rw [sendOpcode, drivePin_nil _ hhost, bind_go, sendByte_failed (s := setDc false s) _ _ hhost (hlink.congr rfl rfl), setDc_eq]
  rfl

/-- Either entry form ends where its opcode, META and arguments stop. -/
theorem exec_commandBody_stop {i : Instr} {opc : Byte} {args : List Byte} {dly : Byte} {s : State} {t : Bool → State}
    (hi : i = .cmd opc args ∨ i = .cmdDly opc args dly)
    (h : ∀ delay, commandBody s.sp.toNat opc args delay s = .stop (t delay)) :
    ∃ delay, exec i s = .next (t delay) := by
  rcases hi with rfl | rfl
  · exact ⟨false, by rw [exec, execCmd, runCmd, h]; rfl⟩
  · exact ⟨true, by rw [exec, execCmdDly, runCmdDly, h]; rfl⟩

/-- Settles O23: nothing of either entry form is done after its opcode. -/
theorem opcodeFailureIsFatal : Obligations.OpcodeFailureIsFatal := by
  intro i opc args dly s hi hhost hlink
  have hopc := sendOpcode_failed opc hhost (linkGives_replicate_false hlink)
  obtain ⟨_, hexec⟩ := exec_commandBody_stop (t := fun _ => opcodeFailed opc s) hi fun delay => by
    rw [commandBody, hopc, bind_stop]
  exact hexec

/-- Arguments are sent in order, those of a first part before the others. -/
theorem sendArgs_append (i j : Nat) (pre post : List Byte) (s : State) :
    sendArgs i j (pre ++ post) s = (sendArgs i j pre s).bind fun _ t => sendArgs (i + pre.length) (j + pre.length) post t := by
  induction pre generalizing i j s with
  | nil => rfl
  | cons a pre ih =>
    simp only [List.cons_append, sendArgs, ih, Flow.bind_assoc, List.length_cons, Nat.add_assoc, Nat.add_comm 1]

theorem sendEntry_append (opc : Byte) (n : Nat) (delay : Bool) (pre post : List Byte) (s : State) :
    sendEntry opc n delay (pre ++ post) s =
      (sendEntry opc n delay pre s).bind fun _ t => sendArgs (s.sp.toNat + 2 + pre.length) pre.length post t := by
  simp only [sendEntry, sendArgs_append, Flow.bind_assoc, Nat.zero_add]

/-- The state after an entry's opcode, META with the fields `n` and `delay` and the arguments `pre`, all sent as `bodySent`
says, and after them an argument `a` that fails three times (steps 2 to 4 of R77 and R78). -/
def argFailed (opc : Byte) (n : Nat) (delay : Bool) (pre : List Byte) (a : Byte) (k : Nat) (ks : List Nat) (s : State) :
    State :=
  let given := (k :: ks).flatMap retriedAnswers ++ failedAnswers
  { s with
    mode := .fatalHalt
    fatalCause := .argXfer
    faultByte := a
    sp := BitVec.ofNat 17 (s.sp.toNat + 2 + pre.length)
    n := BitVec.ofNat 7 n
    dflag := delay
    argi := pre.length
    att := 3
    csN := true
    sclk := false
    timer := none
    gpioOut := { s.gpioOut with dc := true }
    answers := s.answers.drop given.length
    draws := s.draws + given.length
    trace := s.trace ++ opcodeEvents s opc k ++ [.pin .dc true s.gpioOe.dc] ++ argEvents s pre ks
      ++ failedEvents (levelOf true s.gpioOe.dc) s.spdCmd [a] ++ [.fatal .argXfer] }

theorem sendEntry_argFailed (opc : Byte) (n : Nat) (delay : Bool) {pre : List Byte} (a : Byte) (post : List Byte) {k : Nat}
    {ks : List Nat} {s : State} (hready : EntryReady pre k ks s) (hrom : s.sp.toNat + 2 + pre.length < s.cfg.romBytes)
    (hlink : LinkGives s ((k :: ks).flatMap retriedAnswers ++ failedAnswers)) :
    sendEntry opc n delay (pre ++ a :: post) s = .stop (argFailed opc n delay pre a k ks s) := by
  let body := bodySent opc n delay pre k ks s
  let atArg := setPointer (s.sp.toNat + 2 + pre.length) (setArgIndex pre.length body)
  have hfails : LinkGives atArg failedAnswers := hlink.right rfl rfl
  rw [sendEntry_append, sendEntry_sent opc n delay hready, bind_go, sendArgs,
    fetch_within (s := setArgIndex pre.length body) hready.host hrom, bind_go,
    sendByte_failed (s := atArg) _ _ hready.host hfails, bind_stop]
  simp [atArg, body, raiseFatalByte, raiseFatal, emit, failed, setPointer, setArgIndex, bodySent, argFailed, failedAnswers,
    pinLevel, lineBit, Config.retryMax, Nat.add_assoc]

/-- Settles O24: the opcode and the arguments before it are sent, and nothing is done after the argument that fails. -/
theorem argumentFailureIsFatal : Obligations.ArgumentFailureIsFatal := by
  intro i opc a pre post dly k ks s hi hhost hrom hsize hretries hcount hlink
  have hready : EntryReady pre k ks s := ⟨hhost, by omega, hretries, hcount, hlink.left⟩
  obtain ⟨delay, hexec⟩ := exec_commandBody_stop hi fun delay => sendEntry_argFailed opc _ delay a post hready hrom hlink
  have hsp : (BitVec.ofNat 17 (s.sp.toNat + 2 + pre.length)).toNat = s.sp.toNat + 2 + pre.length :=
    (BitVec.toNat_ofNat ..).trans (Nat.mod_eq_of_lt (by omega))
  exact ⟨_, hexec, rfl, rfl, rfl, hsp, rfl, rfl, rfl⟩

/-! ### A cut-off entry with a byte whose transaction fails -/

/-- What begins with an opcode and META and is no whole entry is cut off: its opcode is no terminator, and bytes that META
asks for are missing (R55, R73). -/
theorem cutOff_of_decodeScript_error {opc hdr : Byte} {body : List Byte} {e : DecodeError}
    (h : decodeScript (opc :: hdr :: body) = .error e) :
    opc ≠ 0 ∧ body.length < metaCount hdr + if metaDelay hdr then 1 else 0 := by
  have hopc : opc ≠ 0 := by
    rintro rfl
    cases (decodeScript_zero _).symm.trans h
  refine ⟨hopc, Nat.lt_of_not_ge fun hwhole => ?_⟩
  obtain ⟨i, rest, hwf, hbytes, hne, _⟩ := exists_entryBytes hopc hwhole
  cases (decodeScript_eq_ok_iff.2 ⟨hwf, hbytes, hne⟩).symm.trans h

/-- A cut-off entry with its META: opcode, META and the arguments that are there come first. -/
theorem runOverrun_eq_sendEntry_bind {opc hdr : Byte} {body : List Byte} {e : DecodeError}
    (h : decodeScript (opc :: hdr :: body) = .error e) (s : State) :
    ∃ f, runOverrun e s = (sendEntry opc (metaCount hdr) (metaDelay hdr) body s).bind f := by
  obtain ⟨hopc, hcut⟩ := cutOff_of_decodeScript_error h
  obtain rfl := Except.error.inj ((decodeScript_cutOff hopc hcut).symm.trans h)
  split
  · exact ⟨_, runOverrun_shortArgs ..⟩
  · have hdelay : metaDelay hdr = true := by
      by_contra hno
      rw [if_neg hno] at hcut
      contradiction
    have hlen : body.length = metaCount hdr := by rw [if_pos hdelay] at hcut; omega
    exact ⟨_, by rw [runOverrun, commandBody_eq_sendEntry, hlen, hdelay]⟩

/-- A cut-off entry with its opcode: the opcode comes first. -/
theorem runOverrun_eq_sendOpcode_bind {opc : Byte} {rest : List Byte} {e : DecodeError}
    (h : decodeScript (opc :: rest) = .error e) (s : State) : ∃ f, runOverrun e s = (sendOpcode opc s).bind f := by
  match rest with
  | [] =>
    have hopc : opc ≠ 0 := by
      rintro rfl
      cases (decodeScript_zero _).symm.trans h
    obtain rfl := Except.error.inj ((decodeScript_opcodeAlone hopc).symm.trans h)
    exact ⟨_, rfl⟩
  | hdr :: body =>
    obtain ⟨f, hf⟩ := runOverrun_eq_sendEntry_bind h s
    exact ⟨_, hf.trans (Flow.bind_assoc ..)⟩

/-- Settles O60: what is there of the entry stops at the byte that fails, before the fetch that would overrun. -/
theorem transferFailureComesBeforeOverrun : Obligations.TransferFailureComesBeforeOverrun := by
  intro s e opc hfaults hhost hmode hop _ tail hdecode
  rw [step_cutOff hfaults hhost hmode hop hdecode]
  refine ⟨fun rest htail hlink => ?opcode, fun hdr a pre post k ks htail hretries hcount => ?argument⟩
  case opcode =>
    obtain ⟨f, hrun⟩ := runOverrun_eq_sendOpcode_bind (htail ▸ hdecode) s
    rw [hrun, sendOpcode_failed opc hhost hlink]
    rfl
  case argument =>
    intro given hlink
    have hsize : tail.length = s.cfg.romBytes - s.sp.toNat := List.length_drop
    have hrom : s.sp.toNat + 2 + pre.length < s.cfg.romBytes := by
      rw [htail] at hsize
      simp only [List.length_cons, List.length_append] at hsize
      omega
    have hready : EntryReady pre k ks s := ⟨hhost, by omega, hretries, hcount, hlink.left⟩
    have hn : BitVec.ofNat 7 (metaCount hdr) = hdr.extractLsb' 0 7 := (BitVec.ofNat_toNat ..).trans (BitVec.setWidth_eq _)
    obtain ⟨f, hrun⟩ := runOverrun_eq_sendEntry_bind (htail ▸ hdecode) s
    rw [hrun, sendEntry_argFailed opc _ _ a post hready hrom hlink, bind_stop, state_stop, argFailed, hn]
    rfl

end Sys2Proof.Machine
end

section
/-! PROOFS. The statements of spec/41_script.md. First the steps of a running script, a fetch and TERM; then what the moves of
an operation under a quiet host keep (`QuietMove`), from which the frames of the script entries and of the host operations
follow; last, that each entry either ends the script or moves SP on within SCRIPT_ROM, so that every script ends. -/

namespace Sys2Proof.Machine

/-! ### Steps of a script, fetches and TERM -/

/-- The move of a running script whose next entry is whole (R72, R75). -/
theorem advance_script {s : State} {i : Instr} {rest : List Byte} (hmode : s.mode = .run) (hop : s.op = .runScript)
    (h : decodeScript (s.cfg.rom.drop s.sp.toNat) = .ok (i, rest)) : advance s = exec i s := by
  simp only [advance, hmode, hop, nextEntry, fetchBytes, h]

/-- Settles O8: under an empty list, a pass, and a poll while BUSY = 1, the step is the sequencer's move. -/
theorem stepRunsScriptEntry : Obligations.StepRunsScriptEntry := by
  intro s i rest hfaults hmode hop hdecode
  rw [step_of_noFault hfaults]
  refine ⟨fun hhost => ?_, fun more hhost => ?_, fun more hhost => ?_⟩
  · rw [stepCore, hhost]
    exact advance_script hmode hop hdecode
  · rw [stepCore, hhost]
    exact advance_script (s := setHost more s) hmode hop hdecode
  · have hbusy : busy s = true := decide_eq_true hmode
    rw [stepCore, hhost]
    exact (if_pos hbusy).trans (advance_script hmode hop hdecode)

/-- Settles O16: the offset is within SCRIPT_ROM exactly where there is a byte. -/
theorem fetchResult : Obligations.FetchResult := by
  intro i s hhost
  refine ⟨fun b hb => ?_, fun hnone => fetch_beyond hhost (List.getElem?_eq_none_iff.1 hnone)⟩
  have hi : i < s.cfg.romBytes := (List.getElem?_eq_some_iff.1 hb).1
  have hbyte : scriptByte s.cfg i = b := by rw [scriptByte, List.getD_eq_getElem?_getD, hb, Option.getD_some]
  rw [fetch_within hhost hi, hbyte, setPointer]

/-- Settles O20: TERM is the end of an operation and nothing before it. -/
theorem termResult : Obligations.TermResult := fun s hhost => by
  rw [exec, execTerm, finish_nil hhost, state_go, endOperation]

/-! ### What an operation's moves keep under a quiet host -/

/-- A state without the fields that the moves over the link write: the DC latch, ATT, the link's pins and timer, the trace,
the link's answers, and what the host has left to do. -/
def forgetLink (s : State) : State :=
  { s with
    gpioOut := { s.gpioOut with dc := false }
    att := 0
    csN := true
    sclk := false
    timer := none
    trace := []
    host := []
    answers := []
    draws := 0 }

section

variable (s : State)

@[simp] theorem forgetLink_setHost (l : List HostEvent) : forgetLink (setHost l s) = forgetLink s := by simp [forgetLink]
@[simp] theorem forgetLink_setDc (v : Bool) : forgetLink (setDc v s) = forgetLink s := by simp [forgetLink]
@[simp] theorem forgetLink_beginAttempt (n : Nat) : forgetLink (beginAttempt n s) = forgetLink s := by simp [forgetLink]
@[simp] theorem forgetLink_endAttempt (n : Nat) (dc : PinLevel) (speed : Word) (bytes : List Byte) :
    forgetLink (endAttempt n dc speed bytes s) = forgetLink s := by simp [forgetLink]
@[simp] theorem forgetLink_startWait (ms : Nat) : forgetLink (startWait ms s) = forgetLink s := by simp [forgetLink]
@[simp] theorem forgetLink_endWait : forgetLink (endWait s) = forgetLink s := by simp [forgetLink]

end

/-- `t` differs from `s` in nothing but the link's fields and those that `forget` clears. -/
def Keeps (forget : State → State) (s t : State) : Prop := forget (forgetLink t) = forget (forgetLink s)

/-- `t` comes after `s` in an operation under a quiet host, which has nothing left to do if it had nothing in `s`. -/
structure QuietMove (forget : State → State) (s t : State) : Prop where
  quiet : Quiet t
  silent : s.host = [] → t.host = []
  kept : Keeps forget s t

namespace QuietMove

variable {forget : State → State} {s t u : State}

theorem refl (h : Quiet s) : QuietMove forget s s := ⟨h, id, rfl⟩

/-- An update of forgotten fields alone. -/
theorem update (h : QuietMove forget s t) (hhost : u.host = t.host) (hkept : forget (forgetLink u) = forget (forgetLink t)) :
    QuietMove forget s u :=
  ⟨(congrArg (List.all · quietEvent) hhost).trans h.quiet, fun hs => hhost.trans (h.silent hs), hkept.trans h.kept⟩

/-- The turn of a quiet host, which never stops the operation. -/
theorem hostTurn (h : QuietMove forget s t) (Q : State → Prop) : Ensures (hostTurn t) (fun _ => QuietMove forget s) Q := by
  by_cases hs : s.host = []
  · rw [hostTurn_nil (h.silent hs)]
    exact h
  · obtain ⟨r, hr, hturn⟩ := hostTurn_quiet h.quiet
    rw [hturn]
    exact ⟨hr, fun hnil => absurd hnil hs, h.kept⟩

end QuietMove

/-- The rules of Flow.lean for the link, whatever else is forgotten. -/
theorem quietMove_linkRules (forget : State → State) (s : State) (Q : State → Prop) :
    LinkRules (QuietMove forget s) (QuietMove forget s) (QuietMove forget s) Q where
  turn _ h := h.hostTurn Q
  turnAttempt _ h := h.hostTurn Q
  turnWait _ h := h.hostTurn Q
  beginAttempt _ _ h := h.update rfl (by simp)
  endAttempt _ _ _ _ _ h := h.update rfl (by simp)
  startWait _ _ h := h.update rfl (by simp)
  endWait _ h := h.update rfl (by simp)

theorem QuietMove.drivePin {forget : State → State} {s t : State} (h : QuietMove forget s t) (level : Bool)
    (Q : State → Prop) : Ensures (drivePin level t) (fun _ => QuietMove forget s) Q :=
  (h.hostTurn Q).bind fun _ _ ht => ht.update rfl (by simp)

/-! ### The frame of the script entries -/

/-- A state without the registers that the entry forms write: SP, N, DFLAG and ARGI. -/
def forgetEntry (s : State) : State := { s with sp := 0, n := 0, dflag := false, argi := 0 }

/-- A state without the fields that a fatal error writes. -/
def forgetFatal (s : State) : State := { s with mode := .idle, faultByte := 0, fatalCause := .none }

/-- A state without the fields that an entry writes, a fatal error in it included. -/
def forgetEntryEnd (s : State) : State := forgetFatal (forgetEntry s)

/-- An entry that began in `s` has ended in FATAL_HALT. -/
structure EntryHalted (s t : State) : Prop where
  mode : t.mode = .fatalHalt
  keeps : Keeps forgetEntryEnd s t

theorem QuietMove.keepsEntryEnd {s t : State} (h : QuietMove forgetEntry s t) : Keeps forgetEntryEnd s t :=
  congrArg forgetFatal h.kept

/-- An entry that goes on leaves what a fatal error writes. -/
theorem QuietMove.status {s t : State} (h : QuietMove forgetEntry s t) :
    t.mode = s.mode ∧ t.faultByte = s.faultByte ∧ t.fatalCause = s.fatalCause :=
  ⟨congrArg (·.mode) h.kept, congrArg (·.faultByte) h.kept, congrArg (·.fatalCause) h.kept⟩

/-- The rules of Flow.lean for what a script entry keeps. -/
theorem entry_seqRules (s : State) :
    SeqRules (QuietMove forgetEntry s) (QuietMove forgetEntry s) (QuietMove forgetEntry s) (EntryHalted s) where
  toLinkRules := quietMove_linkRules forgetEntry s (EntryHalted s)
  pin _ _ h := h.update rfl (by simp)
  fatal _ _ _ h := ⟨rfl, h.keepsEntryEnd⟩
  fatalByte _ _ _ _ h := ⟨rfl, h.keepsEntryEnd⟩
  pointer _ _ h := h.update rfl rfl
  header _ _ _ h := h.update rfl rfl
  index _ _ h := h.update rfl rfl

/-- What CMD and CMD_DLY can come to: the script goes on with SP past the entry, or it has ended in FATAL_HALT. -/
theorem exec_command_cases {i : Instr} {opc : Byte} {args : List Byte} {dly : Byte} {s : State}
    (hi : i = .cmd opc args ∨ i = .cmdDly opc args dly) (hquiet : Quiet s) :
    ∃ t, exec i s = .next t ∧
      (QuietMove forgetEntry s t ∧ t.sp = BitVec.ofNat 17 (s.sp.toNat + entryLength i) ∨ EntryHalted s t) := by
  have rules := entry_seqRules s
  have hs : QuietMove forgetEntry s s := .refl hquiet
  rcases hi with rfl | rfl
  · have h : Ensures (runCmd opc args s)
        (fun _ t => QuietMove forgetEntry s t ∧ t.sp = BitVec.ofNat 17 (s.sp.toNat + (2 + args.length))) (EntryHalted s) :=
      (rules.commandBody _ opc args _ hs).bind fun _ t ht => ⟨rules.pointer _ t ht, by rw [setPointer, Nat.add_assoc]⟩
    exact ⟨_, rfl, h.state (fun _ _ => Or.inl) fun _ => Or.inr⟩
  · have h : Ensures (runCmdDly opc args dly s)
        (fun _ t => QuietMove forgetEntry s t ∧ t.sp = BitVec.ofNat 17 (s.sp.toNat + (3 + args.length))) (EntryHalted s) :=
      (rules.commandBody _ opc args _ hs).bind fun _ _ ht => (rules.fetch _ ht).bind fun _ _ ht =>
        (rules.wait _ ht).bind fun _ t ht => ⟨rules.pointer _ t ht, by rw [setPointer, Nat.add_assoc]⟩
    exact ⟨_, rfl, h.state (fun _ _ => Or.inl) fun _ => Or.inr⟩

/-- TERM takes the turn of a quiet host and ends the operation. -/
theorem exec_term_quiet {s : State} (hquiet : Quiet s) :
    ∃ l, exec .term s = .next (endOperation (setHost l s)) := by
  obtain ⟨l, _, hturn⟩ := hostTurn_quiet hquiet
  exact ⟨l, by rw [exec, execTerm, finish, hturn]; rfl⟩

/-- Settles O25: TERM is the end of an operation, and the two other forms keep what `forgetEntryEnd` leaves. -/
theorem scriptEntryFrame : Obligations.ScriptEntryFrame := by
  intro i opc args dly s t hi hquiet hexec
  rcases hi with rfl | hi
  · obtain ⟨l, hterm⟩ := exec_term_quiet hquiet
    cases hterm.symm.trans hexec
    simp
  · have hform : i ≠ .term := by rcases hi with rfl | rfl <;> exact Instr.noConfusion
    obtain ⟨t', hexec', hcases⟩ := exec_command_cases hi hquiet
    cases hexec'.symm.trans hexec
    have hkeeps : Keeps forgetEntryEnd s t := hcases.elim (fun h => h.1.keepsEntryEnd) (·.keeps)
    have hfate : t.mode = .fatalHalt ∨ (t.mode = s.mode ∧ t.faultByte = s.faultByte ∧ t.fatalCause = s.fatalCause) :=
      hcases.symm.imp (·.mode) fun ⟨h, _⟩ => h.status
    have hmode : t.mode = s.mode ∨ t.mode = .fatalHalt := hfate.symm.imp_left And.left
    have hfault : t.mode ≠ .fatalHalt → s.mode ≠ .fatalHalt → t.faultByte = s.faultByte ∧ t.fatalCause = s.fatalCause :=
      fun hgo _ => (hfate.resolve_left hgo).2
    simp only [Keeps, forgetEntryEnd, forgetFatal, forgetEntry, forgetLink, State.mk.injEq, Lines.mk.injEq] at hkeeps
    simpa [hkeeps, hform, hmode] using hfault

/-! ### The frame of the host operations -/

/-- A state without the fields that the acceptance of an operation, its normal end and Fatal(CFG) write, SP apart. -/
def forgetStart (s : State) : State :=
  { s with
    mode := .idle
    done := false
    fatalCause := .none
    lastOp := 0
    op := .runScript
    spdCmd := 0
    spdData := 0 }

/-- A state without what RUN_SCRIPT writes, SP among it. -/
def forgetRunScript (s : State) : State := { forgetStart s with sp := 0 }

/-- A state without what BEGIN_RAM_WRITE writes beside the link's fields, FAULT_BYTE among it. -/
def forgetRamWrite (s : State) : State := { forgetStart s with faultByte := 0 }

/-- A state without what SEND_FRAME writes beside the link's fields: the counters, OFF and the model faults among it. -/
def forgetSendFrame (s : State) : State := { forgetStart s with skipCount := 0, frameCount := 0, off := 0, faults := [] }

theorem startScript_keeps (s : State) :
    Ensures (startScript s) (fun _ => Keeps forgetRunScript s) (Keeps forgetRunScript s) := by
  unfold startScript
  split
  · exact rfl
  · exact rfl

theorem beginRamWriteBody_keeps {s : State} (hquiet : Quiet s) :
    Ensures (beginRamWriteBody s) (fun _ => Keeps forgetRamWrite s) (Keeps forgetRamWrite s) := by
  have rules := quietMove_linkRules forgetRamWrite s (Keeps forgetRamWrite s)
  have hs : QuietMove forgetRamWrite s s := .refl hquiet
  unfold beginRamWriteBody
  split
  · exact rfl
  · refine (hs.drivePin false _).bind fun _ t ht => Ensures.bind (P := fun _ => QuietMove forgetRamWrite s) ?_
      fun _ t ht => rules.finish (fun _ h => h.kept) ht
    refine (rules.xfer _ _ ht).bind fun ok t ht => ?_
    split
    · exact ht
    · exact (rules.turn t ht).bind fun _ _ ht => ht.kept

theorem readFbBytes_quietMove {s t : State} (h : QuietMove forgetSendFrame s t) (a count : Nat) :
    QuietMove forgetSendFrame s (readFbBytes a count t).2 := by
  rcases readFbBytes_cases a count t with ⟨_, hread⟩ | hread
  · rw [hread]
    exact h
  · rw [hread]
    exact h.update rfl rfl

theorem blockLoop_quietMove (left : Nat) (Q : State → Prop) {s t : State} (h : QuietMove forgetSendFrame s t) :
    Ensures (blockLoop left t) (fun _ => QuietMove forgetSendFrame s) Q := by
  induction left generalizing t with
  | zero => exact h
  | succ left ih =>
    exact ((quietMove_linkRules forgetSendFrame s Q).xfer _ _ (readFbBytes_quietMove h _ _)).bind fun ok _ ht =>
      (ht.hostTurn Q).bind fun _ _ ht => ih (ht.update rfl rfl)

theorem sendFrameBody_keeps {s : State} (hquiet : Quiet s) :
    Ensures (sendFrameBody s) (fun _ => Keeps forgetSendFrame s) (Keeps forgetSendFrame s) := by
  have rules := quietMove_linkRules forgetSendFrame s (Keeps forgetSendFrame s)
  have hs : QuietMove forgetSendFrame s s := .refl hquiet
  unfold sendFrameBody
  split
  · exact rfl
  · exact (hs.drivePin true _).bind fun _ t ht =>
      (blockLoop_quietMove _ _ (t := startBlocks t) (ht.update rfl rfl)).bind fun _ _ ht =>
        (ht.hostTurn _).bind fun _ t ht => rules.finish (s := countFrame t) (fun _ h => h.kept) (ht.update rfl rfl)

/-- Outside IDLE a CMD write with an operation's code is rejected (R96). -/
theorem hostWriteCmd_rejected {op : HostOp} {body : State → Flow Unit} {s : State} (hm : s.mode ≠ .idle) :
    hostWriteCmd op body s = rejectCmd s := by
  unfold hostWriteCmd
  split
  · rfl
  · rfl
  · rename_i hidle; exact absurd hidle hm

/-- What an operation accepted in IDLE keeps is what its body keeps, where acceptance writes forgotten fields alone. -/
theorem hostWriteCmd_keeps {forget : State → State} {op : HostOp} {body : State → Flow Unit} {s : State}
    (hm : s.mode = .idle) (hstart : Keeps forget s (acceptCmd op s))
    (hbody : Ensures (body (acceptCmd op s)) (fun _ => Keeps forget (acceptCmd op s)) (Keeps forget (acceptCmd op s))) :
    Keeps forget s (hostWriteCmd op body s) := by
  rw [hostWriteCmd_idle hm]
  exact hbody.state (fun _ _ h => h.trans hstart) fun _ h => h.trans hstart

/-- Settles O37: a rejected write sets CMD_ERR alone, and in IDLE each operation keeps what its body keeps. -/
theorem hostOpFrame : Obligations.HostOpFrame := by
  intro i op s t hi hquiet hexec
  by_cases hrejected : s.mode ≠ .idle ∨ i = .hostopReserved op
  · have ht : t = rejectCmd s := by
      rcases hi with rfl | rfl | rfl | rfl <;> cases hexec
      case inr.inr.inr => rfl
      all_goals exact hostWriteCmd_rejected (hrejected.resolve_right Instr.noConfusion)
    have hcmdErr : s.mode = .idle → i ≠ .hostopReserved op → (rejectCmd s).cmdErr = s.cmdErr :=
      fun hm hi => absurd hrejected (not_or.2 ⟨not_not.2 hm, hi⟩)
    subst ht
    simpa using hcmdErr
  · obtain ⟨hm, hi'⟩ := not_or.1 hrejected
    rw [not_not] at hm
    rcases hi with rfl | rfl | rfl | rfl
    · cases hexec
      have h := hostWriteCmd_keeps (forget := forgetRunScript) (op := .runScript) hm rfl
        (startScript_keeps (acceptCmd .runScript s))
      simp only [Keeps, forgetRunScript, forgetStart, forgetLink, State.mk.injEq, Lines.mk.injEq] at h
      simp [h, hm]
    · cases hexec
      have h := hostWriteCmd_keeps (forget := forgetRamWrite) (op := .beginRamWrite) hm rfl
        (beginRamWriteBody_keeps (s := acceptCmd .beginRamWrite s) hquiet)
      simp only [Keeps, forgetRamWrite, forgetStart, forgetLink, State.mk.injEq, Lines.mk.injEq] at h
      simp [h, hm]
    · cases hexec
      have h := hostWriteCmd_keeps (forget := forgetSendFrame) (op := .sendFrame) hm rfl
        (sendFrameBody_keeps (s := acceptCmd .sendFrame s) hquiet)
      simp only [Keeps, forgetSendFrame, forgetStart, forgetLink, State.mk.injEq, Lines.mk.injEq] at h
      simp [h, hm]
    · exact absurd rfl hi'

/-! ### Every script ends -/

/-- How far from its opcode a cut-off entry ends: the offset, in the entry, of the byte that is not there. -/
def missingAt : DecodeError → Nat
  | .noOpcode => 0
  | .noMeta _ => 1
  | .shortArgs _ _ avail => 2 + avail.length
  | .noDelay _ args => 2 + args.length

/-- The byte that is not there is the one right after those that are. -/
theorem length_eq_missingAt {bytes : List Byte} {e : DecodeError} (h : decodeScript bytes = .error e) :
    bytes.length = missingAt e := by
  match bytes with
  | [] => cases h; rfl
  | [opc] =>
    have hopc : opc ≠ 0 := by
      rintro rfl
      cases (decodeScript_zero _).symm.trans h
    cases (decodeScript_opcodeAlone hopc).symm.trans h
    rfl
  | opc :: hdr :: body =>
    obtain ⟨hopc, hcut⟩ := cutOff_of_decodeScript_error h
    cases (decodeScript_cutOff hopc hcut).symm.trans h
    split <;> simp only [missingAt, List.length_cons] <;> omega

/-- One step and then `k` more. -/
theorem run_succ {s t : State} {k : Nat} (h : step s = .next t) : Host.Core.run core (k + 1) s = Host.Core.run core k t := by
  have hcore : core.step s = .next t := h
  simp only [Host.Core.run, hcore]

/-- A whole entry lies within SCRIPT_ROM. -/
theorem entry_within_rom {s : State} {i : Instr} {rest : List Byte}
    (hdecode : decodeScript (s.cfg.rom.drop s.sp.toNat) = .ok (i, rest))
    (hlen : (entryBytes i).length = entryLength i) (hpos : 0 < entryLength i) :
    s.sp.toNat + entryLength i ≤ s.cfg.romBytes := by
  obtain ⟨_, hbytes, _⟩ := decodeScript_eq_ok_iff.1 hdecode
  have hsize := congrArg List.length hbytes
  rw [List.length_drop, List.length_append, hlen] at hsize
  unfold Params.romBytes
  omega

/-- A fetch past the end of SCRIPT_ROM never goes on. -/
theorem SeqRules.fetch_beyond {P M W Q : State → Prop} (h : SeqRules P M W Q) {i : Nat}
    (hi : ∀ t, P t → t.cfg.romBytes ≤ i) {s : State} (hs : P s) : Ensures (Machine.fetch i s) (fun _ _ => False) Q := by
  refine (h.turn s hs).bind fun _ t ht => ?_
  rw [if_pos (hi t ht)]
  exact h.fatal _ _ (by decide) (h.pointer i t ht)

/-- A cut-off entry never goes on: it ends at the fetch of the byte that is not there, if not before. -/
theorem SeqRules.runOverrun_stops {P M W Q : State → Prop} (h : SeqRules P M W Q) {e : DecodeError} {s : State}
    (hi : ∀ t, P t → t.cfg.romBytes ≤ s.sp.toNat + missingAt e) (hs : P s) :
    Ensures (Machine.runOverrun e s) (fun _ _ => False) Q := by
  cases e with
  | noOpcode => exact (h.fetch_beyond hi hs).bind fun _ _ ht => ht
  | noMeta opc => exact (h.sendOpcode opc hs).bind fun _ _ ht => (h.fetch_beyond hi ht).bind fun _ _ ht => ht
  | shortArgs opc hdr avail =>
    simp only [missingAt, ← Nat.add_assoc] at hi
    exact (h.sendOpcode opc hs).bind fun _ _ ht => (h.readMeta _ _ _ ht).bind fun _ _ ht =>
      (h.sendArgs avail _ _ ht).bind fun _ t ht => (h.fetch_beyond hi (h.index _ t ht)).bind fun _ _ ht => ht
  | noDelay opc args =>
    simp only [missingAt, ← Nat.add_assoc] at hi
    exact (h.commandBody _ opc args _ hs).bind fun _ _ ht => (h.fetch_beyond hi ht).bind fun _ _ ht => ht

/-- A script that ran in `s` has ended in `t`, by TERM or by a fatal error (R74). -/
def ScriptEnded (s t : State) : Prop := t.mode = .idle ∧ t.done = true ∨ t.mode = .fatalHalt ∧ t.done = s.done

theorem EntryHalted.ended {s t : State} (h : EntryHalted s t) : ScriptEnded s t := .inr ⟨h.mode, congrArg (·.done) h.keeps⟩

/-- A script's end looked at from an earlier point of it, with the same DONE. -/
theorem ScriptEnded.of_done {s t u : State} (h : ScriptEnded t u) (hdone : t.done = s.done) : ScriptEnded s u :=
  h.imp_right (And.imp_right (·.trans hdone))

/-- A script runs with no model fault recorded and no act of the host to come, within a SCRIPT_ROM that R6 allows. -/
structure ScriptRunning (s : State) : Prop where
  host : s.host = []
  faults : s.faults = []
  mode : s.mode = .run
  op : s.op = .runScript
  size : s.cfg.romBytes ≤ 65536

/-- A script goes on, at least the two bytes of an opcode and META further, and still within SCRIPT_ROM or at its end. -/
structure ScriptAdvanced (s t : State) : Prop where
  running : ScriptRunning t
  cfg : t.cfg = s.cfg
  done : t.done = s.done
  onward : s.sp.toNat + 2 ≤ t.sp.toNat
  within : t.sp.toNat ≤ s.cfg.romBytes

namespace ScriptRunning

variable {s t : State}

theorem quiet (h : ScriptRunning s) : Quiet s := congrArg (List.all · quietEvent) h.host

/-- A cut-off entry ends the script (R73). -/
theorem halted_of_cutOff (h : ScriptRunning s) {e : DecodeError}
    (hdecode : decodeScript (s.cfg.rom.drop s.sp.toNat) = .error e) : ∃ t, step s = .next t ∧ EntryHalted s t := by
  have hlen := length_eq_missingAt hdecode
  rw [List.length_drop] at hlen
  have hend : ∀ t, QuietMove forgetEntry s t → t.cfg.romBytes ≤ s.sp.toNat + missingAt e := fun t ht => by
    have hcfg : t.cfg = s.cfg := congrArg (·.cfg) ht.kept
    rw [hcfg]
    exact Nat.sub_le_iff_le_add'.1 hlen.le
  exact ⟨_, step_cutOff h.faults h.host h.mode h.op hdecode,
    ((entry_seqRules s).runOverrun_stops hend (.refl h.quiet)).state (fun _ _ ht => ht.elim) fun _ ht => ht⟩

/-- A whole entry is executed (R72). -/
theorem step_entry (h : ScriptRunning s) {i : Instr} {rest : List Byte}
    (hdecode : decodeScript (s.cfg.rom.drop s.sp.toNat) = .ok (i, rest)) : step s = exec i s :=
  (stepRunsScriptEntry s i rest h.faults h.mode h.op hdecode).1 h.host

/-- CMD and CMD_DLY either end the script in FATAL_HALT, or the script goes on after them. -/
theorem command_step (h : ScriptRunning s) {i : Instr} {opc : Byte} {args rest : List Byte} {dly : Byte}
    (hi : i = .cmd opc args ∨ i = .cmdDly opc args dly)
    (hdecode : decodeScript (s.cfg.rom.drop s.sp.toNat) = .ok (i, rest)) :
    ∃ t, step s = .next t ∧ (EntryHalted s t ∨ ScriptAdvanced s t) := by
  obtain ⟨t, hexec, hcases⟩ := exec_command_cases hi h.quiet
  have hlong : 2 ≤ entryLength i ∧ (entryBytes i).length = entryLength i := by
    rcases hi with rfl | rfl
    · exact ⟨by simp only [entryLength]; omega, (Laws.EntryLength.cmd opc args).1⟩
    · exact ⟨by simp only [entryLength]; omega, (Laws.EntryLength.cmdDly opc args dly).1⟩
  obtain ⟨hlong, hlen⟩ := hlong
  have hin := entry_within_rom hdecode hlen (by omega)
  refine ⟨t, (h.step_entry hdecode).trans hexec, hcases.symm.imp_right fun ⟨ht, hsp⟩ => ?_⟩
  have hcfg : t.cfg = s.cfg := congrArg (·.cfg) ht.kept
  have hfaults : t.faults = s.faults := congrArg (·.faults) ht.kept
  have hop : t.op = s.op := congrArg (·.op) ht.kept
  obtain ⟨hmode, _⟩ := ht.status
  have hnat : t.sp.toNat = s.sp.toNat + entryLength i := by
    rw [hsp, BitVec.toNat_ofNat]
    exact Nat.mod_eq_of_lt (by have := h.size; omega)
  exact ⟨⟨ht.silent h.host, hfaults.trans h.faults, hmode.trans h.mode, hop.trans h.op, hcfg ▸ h.size⟩, hcfg,
    congrArg (·.done) ht.kept, by omega, by omega⟩

/-- A step of a running script ends it, or the script goes on. -/
theorem step_cases (h : ScriptRunning s) : ∃ t, step s = .next t ∧ (ScriptEnded s t ∨ ScriptAdvanced s t) := by
  cases hdecode : decodeScript (s.cfg.rom.drop s.sp.toNat) with
  | error e =>
    obtain ⟨t, hstep, ht⟩ := h.halted_of_cutOff hdecode
    exact ⟨t, hstep, .inl ht.ended⟩
  | ok entry =>
    obtain ⟨i, rest⟩ := entry
    by_cases hterm : i = .term
    · subst hterm
      exact ⟨_, (h.step_entry hdecode).trans (termResult s h.host), .inl (.inl ⟨rfl, rfl⟩)⟩
    · have hi : ∃ opc args dly, i = .cmd opc args ∨ i = .cmdDly opc args dly := by
        rcases decodeScript_entry hdecode with hi | ⟨opc, args, hi⟩ | ⟨opc, args, dly, hi⟩
        · exact absurd hi hterm
        · exact ⟨opc, args, 0, .inl hi⟩
        · exact ⟨opc, args, dly, .inr hi⟩
      obtain ⟨opc, args, dly, hi⟩ := hi
      obtain ⟨t, hstep, ht⟩ := h.command_step hi hdecode
      exact ⟨t, hstep, ht.imp_left EntryHalted.ended⟩

/-- With at most `2 * n + 1` bytes of SCRIPT_ROM left, a script ends within `n` entries and one more step. -/
theorem ends (n : Nat) (h : ScriptRunning s) (hleft : s.cfg.romBytes ≤ s.sp.toNat + 2 * n + 1) :
    ∃ k t, k ≤ n + 1 ∧ Host.Core.run core k s = .next t ∧ ScriptEnded s t := by
  induction n generalizing s with
  | zero =>
    obtain ⟨t, hstep, hend | ht⟩ := h.step_cases
    · exact ⟨1, t, by omega, run_succ hstep, hend⟩
    · have := ht.onward
      have := ht.within
      omega
  | succ n ih =>
    obtain ⟨t, hstep, hend | ht⟩ := h.step_cases
    · exact ⟨1, t, by omega, run_succ hstep, hend⟩
    · have hless : t.cfg.romBytes ≤ t.sp.toNat + 2 * n + 1 := by
        have := ht.onward
        rw [ht.cfg]
        omega
      obtain ⟨k, u, hk, hrun, hend⟩ := ih ht.running hless
      exact ⟨k + 1, u, by omega, (run_succ hstep).trans hrun, hend.of_done ht.done⟩

end ScriptRunning

/-- Settles O59: SCRIPT_ROM has room for at most that many entries of two bytes or more. -/
theorem scriptEnds : Obligations.ScriptEnds := by
  intro s hhost hfaults hmode hop hsize
  have hrunning : ScriptRunning s := ⟨hhost, hfaults, hmode, hop, hsize⟩
  obtain ⟨k, t, hk, hrun, hend⟩ := hrunning.ends ((s.cfg.romBytes + 1) / 2) (by omega)
  refine ⟨k, t, hk, hrun, ?_, hend⟩
  rcases hend with ⟨hidle, _⟩ | ⟨hhalt, _⟩
  · rw [hidle]; exact Mode.noConfusion
  · rw [hhalt]; exact Mode.noConfusion

end Sys2Proof.Machine
end

section
/-! PROOFS. The statements of spec/42_frame.md. First a transaction by its outcome (`xfer_transferred`), which says the
link's answers, the events and the next state of success and failure alike; then what the blocks of SEND_FRAME come to for
any outcomes (`BlocksSent`), of which the statements about a frame are readings. -/

namespace Sys2Proof.Machine

/-! ### BEGIN_RAM_WRITE that fails -/

/-- Settles O31: the operation is accepted, and its opcode fails as that of a script entry does. -/
theorem beginRamWriteFailure : Obligations.BeginRamWriteFailure := by
  intro s hhost hmode hspeed hfail
  have hbody : beginRamWriteBody (acceptCmd .beginRamWrite s) =
      .stop (opcodeFailed s.cfg.ramwrOpcode (acceptCmd .beginRamWrite s)) := by
    rw [beginRamWriteBody_nil (s := acceptCmd .beginRamWrite s) hhost hspeed,
      sendOpcode_failed (s := acceptCmd .beginRamWrite s) _ hhost (linkGives_replicate_false hfail), bind_stop]
    rfl
  have hexec : exec .beginRamWrite s = .next (beginRamWriteBody (acceptCmd .beginRamWrite s)).state :=
    congrArg Host.Outcome.next (hostWriteCmd_idle hmode)
  rw [hbody, state_stop] at hexec
  exact ⟨_, hexec, rfl, rfl, rfl, rfl, rfl, rfl, rfl, rfl⟩

/-! ### A transaction by its outcome -/

/-- The outcome of a transaction (R70): OK after so many failed attempts, or FAIL (`none`). -/
abbrev Sending := Option (Fin 3)

/-- The link's answers to a transaction. -/
def xferAnswers : Sending → List Bool
  | some k => retriedAnswers k
  | none => failedAnswers

/-- The events of a transaction. -/
def xferEvents (dc : PinLevel) (speed : Word) (bytes : List Byte) : Sending → List Event
  | some k => retriedEvents dc speed bytes k
  | none => failedEvents dc speed bytes

/-- The state after a transaction. -/
def transferred (bytes : List Byte) (speed : Word) (k : Sending) (s : State) : State :=
  { s with
    att := (xferAnswers k).length
    csN := true
    sclk := false
    timer := if k = some 0 then s.timer else none
    answers := s.answers.drop (xferAnswers k).length
    draws := s.draws + (xferAnswers k).length
    trace := s.trace ++ xferEvents (pinLevel .dc s) speed bytes k }

theorem xfer_transferred (bytes : List Byte) (speed : Word) (k : Sending) {s : State} (hhost : s.host = [])
    (hlink : LinkGives s (xferAnswers k)) : xfer bytes speed s = .go k.isSome (transferred bytes speed k s) := by
  cases k with
  | some k =>
    rw [xfer_sent bytes speed k.isLt hhost hlink]
    simp [sent, transferred, xferAnswers, xferEvents, ← Fin.val_eq_zero_iff]
  | none => exact xfer_failed bytes speed hhost hlink

/-- Whatever the link answers, the next transaction has an outcome. -/
theorem LinkGives.append_xferAnswers {s : State} {l : List Bool} (h : LinkGives s l) :
    ∃ k, LinkGives s (l ++ xferAnswers k) := by
  cases h0 : answerAt s l.length with
  | true => exact ⟨some 0, h.concat h0⟩
  | false =>
    replace h := h.concat h0
    cases h1 : answerAt s (l ++ [false]).length with
    | true => exact ⟨some 1, by simpa [xferAnswers, retriedAnswers, List.replicate_succ] using h.concat h1⟩
    | false =>
      replace h := h.concat h1
      cases h2 : answerAt s (l ++ [false] ++ [false]).length with
      | true => exact ⟨some 2, by simpa [xferAnswers, retriedAnswers, List.replicate_succ] using h.concat h2⟩
      | false =>
        exact ⟨none, by simpa [xferAnswers, failedAnswers, Config.retryMax, List.replicate_succ] using h.concat h2⟩

/-- Whatever the link answers, the next `n` transactions have outcomes. -/
theorem exists_linkGives_xferAnswers (s : State) (n : Nat) :
    ∃ ks : List Sending, ks.length = n ∧ LinkGives s (ks.flatMap xferAnswers) := by
  induction n with
  | zero => exact ⟨[], rfl, fun _ _ h => nomatch h⟩
  | succ n ih =>
    obtain ⟨ks, hlen, hks⟩ := ih
    obtain ⟨k, hk⟩ := hks.append_xferAnswers
    exact ⟨ks ++ [k], by simp [hlen], by simpa using hk⟩

/-! ### Reading FB -/

/-- A sequencer read gives the byte as it reads, and at most records a model fault; of a written byte it does not (R36). -/
theorem readFbByte_eq (a : Nat) (s : State) : ∃ faults,
    readFbByte a s = (peek (unwrittenFb s) s.fb a, { s with faults := faults })
      ∧ (memRead s.fb a ≠ none → faults = s.faults) := by
  by_cases h : memRead s.fb a = none
  · exact ⟨_, by rw [readFbByte, seqRead, checkWritten, h]; rfl, fun hwritten => absurd h hwritten⟩
  · exact ⟨s.faults, by rw [readFbByte, seqRead_written h, peek_written h], fun _ => rfl⟩

/-- The same for bytes of FB in a row. -/
theorem readFbBytes_eq (a count : Nat) (s : State) : ∃ faults,
    readFbBytes a count s = ((List.range' a count).map (peek (unwrittenFb s) s.fb), { s with faults := faults })
      ∧ ((∀ b, a ≤ b → b < a + count → memRead s.fb b ≠ none) → faults = s.faults) := by
  induction count generalizing a s with
  | zero => exact ⟨s.faults, rfl, fun _ => rfl⟩
  | succ count ih =>
    obtain ⟨first, hfirst, hfirstWritten⟩ := readFbByte_eq a s
    obtain ⟨faults, hrest, hrestWritten⟩ := ih (a + 1) { s with faults := first }
    refine ⟨faults, ?_, fun hwritten => ?_⟩
    · rw [readFbBytes, hfirst, hrest]
      rfl
    · exact (hrestWritten fun b hlo hhi => hwritten b (by omega) (by omega)).trans
        (hfirstWritten (hwritten a (Nat.le_refl a) (by omega)))

/-! ### The blocks of a frame -/

/-- The addresses of block `b` of a frame of `size` bytes (R82). -/
def blockAddresses (size b : Nat) : List Nat := List.range' (4096 * b) (min 4096 (size - 4096 * b))

/-- The blocks cover the frame's addresses, each once and in order (R82). -/
theorem flatMap_blockAddresses (size n : Nat) :
    (List.range n).flatMap (blockAddresses size) = List.range (min (4096 * n) size) := by
  induction n with
  | zero => simp
  | succ n ih =>
    rw [List.range_succ, List.flatMap_append, ih, List.flatMap_singleton, blockAddresses]
    rcases Nat.le_total (4096 * n) size with hle | hle
    · rw [Nat.min_eq_left hle, List.range_eq_range', List.range_eq_range']
      have happend := List.range'_append_1 (s := 0) (m := 4096 * n) (n := min 4096 (size - 4096 * n))
      rw [Nat.zero_add] at happend
      rw [happend]
      congr 1
      omega
    · rw [Nat.sub_eq_zero_of_le hle, Nat.min_eq_right hle, Nat.min_eq_right (by omega : size ≤ 4096 * (n + 1))]
      simp

/-- What block `b` reads as, written or not (R36). -/
def blockPayload (s : State) (b : Nat) : List Byte := (blockAddresses s.cfg.fbBytes b).map (peek (unwrittenFb s) s.fb)

theorem blockPayload_written {s : State} (hfb : FbWritten s) (b : Nat) :
    blockPayload s b = (blockAddresses s.cfg.fbBytes b).map (byteAt s.fb) := by
  refine List.map_congr_left fun a ha => peek_written (hfb a ?_)
  rw [blockAddresses, List.mem_range'_1] at ha
  omega

/-- The block at OFF, where OFF stands at the start of block `b`, or at the end of the frame. -/
theorem range'_off {s : State} {b : Nat} (hoff : s.off = min (4096 * b) s.cfg.fbBytes) :
    List.range' s.off (blockLength s.cfg s.off) = blockAddresses s.cfg.fbBytes b := by
  rw [blockAddresses, blockLength, Config.blockBytes]
  rcases Nat.le_total (4096 * b) s.cfg.fbBytes with hle | hle
  · rw [hoff, Nat.min_eq_left hle]
  · rw [hoff, Nat.min_eq_right hle, Nat.sub_eq_zero_of_le hle, Nat.sub_self]
    rfl

/-- The events of block `x.2` whose transaction has the outcome `x.1`. -/
def blockEvents (s : State) (x : Sending × Nat) : List Event :=
  xferEvents (pinLevel .dc s) s.spdData (blockPayload s x.2) x.1

/-- A state without the fields that the blocks of a frame write. -/
def forgetBlocks (s : State) : State :=
  { s with
    att := 0
    csN := true
    sclk := false
    timer := none
    answers := []
    draws := 0
    trace := []
    skipCount := 0
    off := 0
    faults := [] }

/-- What blocks from number `b` on come to, sent from `s` to `t` with these outcomes. -/
structure BlocksSent (ks : List Sending) (b : Nat) (s t : State) : Prop where
  trace : t.trace = s.trace ++ (ks.zipIdx b).flatMap (blockEvents s)
  skips : t.skipCount = s.skipCount + BitVec.ofNat 32 (ks.count none)
  faults : FbWritten s → t.faults = s.faults
  kept : forgetBlocks t = forgetBlocks s

theorem BlocksSent.cons {k : Sending} {ks : List Sending} {b : Nat} {s t u : State} (h : BlocksSent [k] b s t)
    (hrest : BlocksSent ks (b + 1) t u) : BlocksSent (k :: ks) b s u where
  trace := by
    have hevents : blockEvents t = blockEvents s := by
      change blockEvents (forgetBlocks t) = blockEvents (forgetBlocks s)
      rw [h.kept]
    rw [hrest.trace, h.trace, hevents]
    simp
  skips := by
    rw [hrest.skips, h.skips, BitVec.add_assoc, ← BitVec.ofNat_add, ← List.count_append]
    rfl
  faults hfb := by
    have hlater : FbWritten (forgetBlocks t) := h.kept ▸ hfb
    exact (hrest.faults hlater).trans (h.faults hfb)
  kept := hrest.kept.trans h.kept

/-- The state after block `b`, which starts at OFF. -/
def blockSent (b : Nat) (k : Sending) (faults : List Fault) (s : State) : State :=
  endBlock k.isSome (blockLength s.cfg s.off)
    (transferred (blockPayload s b) s.spdData k { s with faults := faults })

/-- The block at OFF is read and sent, and the loop goes on behind it (R81). -/
theorem blockLoop_succ (left b : Nat) (k : Sending) {s : State} (hhost : s.host = [])
    (hoff : s.off = min (4096 * b) s.cfg.fbBytes) (hlink : LinkGives s (xferAnswers k)) :
    ∃ faults, blockLoop (left + 1) s = blockLoop left (blockSent b k faults s)
      ∧ (FbWritten s → faults = s.faults) := by
  obtain ⟨faults, hread, hwritten⟩ := readFbBytes_eq s.off (blockLength s.cfg s.off) s
  have hin : s.off + blockLength s.cfg s.off ≤ s.cfg.fbBytes := by unfold blockLength; omega
  rw [range'_off hoff, ← blockPayload] at hread
  have hxfer : xfer (blockPayload s b) s.spdData { s with faults := faults } = .go k.isSome _ :=
    xfer_transferred _ _ k hhost (hlink.congr rfl rfl)
  refine ⟨faults, ?_, fun hfb => hwritten fun a _ ha => hfb a (by omega)⟩
  simp only [blockLoop, hread, hxfer, bind_go]
  rw [hostTurn_nil, bind_go]
  · rfl
  · exact hhost

theorem blocksSent_singleton (b : Nat) (k : Sending) {faults : List Fault} {s : State}
    (hfaults : FbWritten s → faults = s.faults) : BlocksSent [k] b s (blockSent b k faults s) where
  trace := congrArg (s.trace ++ ·) (List.append_nil _).symm
  skips := by cases k <;> simp [blockSent, transferred]
  faults := hfaults
  kept := rfl

/-- The blocks from number `b` on, with the outcomes that the link's answers give them. -/
theorem blockLoop_blocksSent (ks : List Sending) (b : Nat) {s : State} (hhost : s.host = [])
    (hoff : s.off = min (4096 * b) s.cfg.fbBytes) (hlink : LinkGives s (ks.flatMap xferAnswers)) :
    ∃ t, blockLoop ks.length s = .go () t ∧ BlocksSent ks b s t := by
  induction ks generalizing b s with
  | nil => exact ⟨s, rfl, (List.append_nil _).symm, (BitVec.add_zero _).symm, fun _ => rfl, rfl⟩
  | cons k ks ih =>
    rw [List.flatMap_cons] at hlink
    obtain ⟨faults, hblock, hfaults⟩ := blockLoop_succ ks.length b k hhost hoff hlink.left
    have hnext : s.off + blockLength s.cfg s.off = min (4096 * (b + 1)) s.cfg.fbBytes := by
      unfold blockLength Config.blockBytes
      omega
    obtain ⟨t, hloop, ht⟩ := ih (b + 1) (s := blockSent b k faults s) hhost hnext (hlink.right rfl rfl)
    exact ⟨t, hblock.trans hloop, (blocksSent_singleton b k hfaults).cons ht⟩

/-! ### SEND_FRAME -/

/-- SEND_FRAME with a nonzero speed drives DC high, sends the blocks, and counts the frame at its end (R81). -/
theorem sendFrameBody_nil {s t : State} (hhost : s.host = []) (hspeed : s.spdData ≠ 0)
    (hloop : blockLoop (blockCount s.cfg) (startBlocks (setDc true s)) = .go () t) (thost : t.host = []) :
    sendFrameBody s = .go () (endOperation (countFrame t)) := by
  rw [sendFrameBody, if_neg hspeed, drivePin_nil true hhost, bind_go, setDc_cfg, hloop, bind_go, hostTurn_nil thost, bind_go,
    finish_nil (s := countFrame t) thost]

/-- SEND_FRAME's state as its blocks start (R81, R96). -/
def frameStart (s : State) : State := startBlocks (setDc true (acceptCmd .sendFrame s))

/-- The events of a whole frame whose blocks have these outcomes. -/
def frameEvents (s : State) (ks : List Sending) : List Event :=
  dcEvents s true ++ ks.zipIdx.flatMap (blockEvents (frameStart s))

theorem BlocksSent.frameTrace {ks : List Sending} {s t : State} (h : BlocksSent ks 0 (frameStart s) t) :
    t.trace = s.trace ++ frameEvents s ks := by
  have hstart : (frameStart s).trace = s.trace ++ dcEvents s true :=
    congrArg (·.trace) (setDc_eq true (acceptCmd .sendFrame s))
  rw [h.trace, hstart, List.append_assoc]
  rfl

/-- SEND_FRAME ends normally, its blocks sent with the outcomes that the link's answers give them. -/
theorem exec_sendFrame_blocksSent {ks : List Sending} {s : State} (hhost : s.host = []) (hmode : s.mode = .idle)
    (hspeed : s.dataSpeedHz ≠ 0) (hcount : ks.length = (s.cfg.fbBytes + 4095) / 4096)
    (hlink : LinkGives s (ks.flatMap xferAnswers)) :
    ∃ t, exec .sendFrame s = .next (endOperation (countFrame t)) ∧ BlocksSent ks 0 (frameStart s) t := by
  obtain ⟨t, hloop, ht⟩ :=
    blockLoop_blocksSent ks 0 (s := frameStart s) hhost (Nat.zero_min _).symm (hlink.congr rfl rfl)
  have thost : t.host = s.host := congrArg (·.host) ht.kept
  rw [hcount] at hloop
  refine ⟨t, ?_, ht⟩
  rw [exec, execSendFrame, hostWriteCmd_idle hmode,
    sendFrameBody_nil (s := acceptCmd .sendFrame s) hhost hspeed hloop (thost.trans hhost), state_go]

/-- Numbered elements of which only the number matters. -/
theorem flatMap_zipIdx {α β : Type} {l : List α} {f : α × Nat → List β} {g : Nat → List β}
    (h : ∀ a ∈ l, ∀ b, f (a, b) = g b) : l.zipIdx.flatMap f = (List.range l.length).flatMap g := by
  have hsnd : l.zipIdx.flatMap f = l.zipIdx.flatMap fun x => g x.2 :=
    List.flatMap_congr fun x hx => h x.1 (List.fst_mem_of_mem_zipIdx hx) x.2
  rw [hsnd, ← List.flatMap_map, List.zipIdx_map_snd, List.range_eq_range']

/-- Settles O34: the outcome of every block is success at the first attempt. -/
theorem sendFrameResult : Obligations.SendFrameResult := by
  intro s hhost hmode hspeed hfb blocks hanswers
  have hlink : LinkGives s ((List.replicate blocks (some 0)).flatMap xferAnswers) := fun j ok hj => by
    obtain ⟨hlt, rfl⟩ : j < blocks ∧ true = ok := by
      simpa [xferAnswers, retriedAnswers, List.flatMap_replicate, List.getElem?_replicate] using hj
    exact hanswers j hlt
  obtain ⟨t, hexec, ht⟩ := exec_sendFrame_blocksSent hhost hmode hspeed List.length_replicate hlink
  refine ⟨_, hexec, ?_, congrArg (·.frameCount + 1) ht.kept, ?_, congrArg (·.fb) ht.kept, ht.faults hfb,
    congrArg (·.gpioOut) ht.kept, rfl, rfl, congrArg (·.lastOp) ht.kept⟩
  · refine ht.frameTrace.trans ?_
    rw [frameEvents, ← List.append_assoc, List.map_eq_flatMap,
      flatMap_zipIdx (g := fun b => [.attempt 1 (levelOf true s.gpioOe.dc) s.dataSpeedHz
        ((List.range (min 4096 (s.cfg.fbBytes - 4096 * b))).map fun j => byteAt s.fb (4096 * b + j)) true])]
    · rw [List.length_replicate]
      rfl
    · intro k hk b
      obtain rfl := List.eq_of_mem_replicate hk
      have hbytes := blockPayload_written (s := frameStart s) hfb b
      rw [blockAddresses, List.range'_eq_map_range, List.map_map] at hbytes
      rw [blockEvents, hbytes]
      rfl
  · exact ht.skips.trans (by simp [List.count_replicate, frameStart])

/-- A transaction that does not fail has one successful attempt (R70). -/
theorem okPayloads_xferEvents (dc : PinLevel) (speed : Word) (bytes : List Byte) {k : Sending} (hk : k ≠ none) :
    okPayloads (xferEvents dc speed bytes k) = bytes := by
  obtain ⟨k, rfl⟩ := Option.ne_none_iff_exists'.1 hk
  simp [okPayloads, xferEvents, retriedEvents, okPayload, List.flatMap_assoc]

/-- A frame without skipped blocks sends FB (R83). -/
theorem okPayloads_frameEvents {ks : List Sending} {s : State} (hfb : FbWritten s)
    (hcount : ks.length = (s.cfg.fbBytes + 4095) / 4096) (hks : none ∉ ks) :
    okPayloads (frameEvents s ks) = (List.range s.cfg.fbBytes).map (byteAt s.fb) := by
  have hdc : okPayloads (dcEvents s true) = [] := by
    unfold dcEvents
    split <;> rfl
  have hblock : ∀ k ∈ ks, ∀ b, okPayloads (blockEvents (frameStart s) (k, b)) =
      (blockAddresses s.cfg.fbBytes b).map (byteAt s.fb) := fun k hk b =>
    (okPayloads_xferEvents _ _ _ fun hnone => hks (hnone ▸ hk)).trans (blockPayload_written (s := frameStart s) hfb b)
  calc okPayloads (frameEvents s ks)
      = ks.zipIdx.flatMap (fun x => okPayloads (blockEvents (frameStart s) x)) := by
        rw [frameEvents, okPayloads, List.flatMap_append, List.flatMap_assoc]
        exact congrArg (· ++ _) hdc
    _ = (List.range ks.length).flatMap fun b => (blockAddresses s.cfg.fbBytes b).map (byteAt s.fb) := flatMap_zipIdx hblock
    _ = (List.range s.cfg.fbBytes).map (byteAt s.fb) := by
        rw [← List.map_flatMap, flatMap_blockAddresses, Nat.min_eq_right (by omega)]

/-- Settles O35: SKIP_COUNT is unchanged only where no block failed, for there are fewer than 2^32 of them (R6). -/
theorem sendFrameSendsEveryByteOnce : Obligations.SendFrameSendsEveryByteOnce := by
  intro s t hhost hmode hspeed hfb hwf hexec hskip
  obtain ⟨ks, hcount, hlink⟩ := exists_linkGives_xferAnswers s ((s.cfg.fbBytes + 4095) / 4096)
  obtain ⟨u, hexec', hu⟩ := exec_sendFrame_blocksSent hhost hmode hspeed hcount hlink
  cases hexec'.symm.trans hexec
  have hsize : s.cfg.fbBytes ≤ 0x100000 := by
    simp only [Params.wf, Bool.and_eq_true, decide_eq_true_eq] at hwf
    omega
  have hfew : ks.count none ≤ ks.length := List.count_le_length
  have hzero : BitVec.ofNat 32 (ks.count none) = 0 := add_eq_left.1 (hu.skips.symm.trans hskip)
  have hnone : ks.count none = 0 := by
    have := congrArg BitVec.toNat hzero
    rw [BitVec.toNat_ofNat, Nat.mod_eq_of_lt (by omega)] at this
    exact this
  exact ⟨_, hu.frameTrace, okPayloads_frameEvents hfb hcount (List.count_eq_zero.1 hnone)⟩

/-- An event of a kind that is counted in a frame: the kind tells attempts apart by number and answer, and holds no EvPin. -/
structure FrameKind (p : Event → Bool) : Prop where
  pin : ∀ l latch driven, p (.pin l latch driven) = false
  attempt : ∀ k dc speed bytes ok, p (.attempt k dc speed bytes ok) = p (.attempt k .z 0 [] ok)

/-- How many events of a kind a transaction has. -/
def kindCount (p : Event → Bool) (k : Sending) : Nat := (xferEvents .z 0 [] k).countP p

theorem FrameKind.countP_xferEvents {p : Event → Bool} (hp : FrameKind p) (dc : PinLevel) (speed : Word)
    (bytes : List Byte) (k : Sending) : (xferEvents dc speed bytes k).countP p = kindCount p k := by
  have hattempt := fun n ok => hp.attempt n dc speed bytes ok
  cases k with
  | none => simp [kindCount, xferEvents, failedEvents, List.countP_cons, hattempt]
  | some k => simp [kindCount, xferEvents, retriedEvents, List.countP_cons, List.countP_flatMap, Function.comp_def, hattempt]

/-- The events of a kind in a frame are those of its transactions. -/
theorem FrameKind.countP_frameEvents {p : Event → Bool} (hp : FrameKind p) (s : State) (ks : List Sending) :
    (frameEvents s ks).countP p = (ks.map (kindCount p)).sum := by
  have hdc : (dcEvents s true).countP p = 0 := by
    unfold dcEvents
    split <;> simp [hp.pin]
  have hblocks : ks.zipIdx.map (List.countP p ∘ blockEvents (frameStart s)) =
      (ks.zipIdx.map Prod.fst).map (kindCount p) := by
    rw [List.map_map]
    exact List.map_congr_left fun x _ => hp.countP_xferEvents _ _ _ x.1
  rw [frameEvents, List.countP_append, hdc, List.countP_flatMap, hblocks, List.zipIdx_map_fst, Nat.zero_add]

/-- A bound for a transaction is one for each block of a frame. -/
theorem FrameKind.countP_frameEvents_le {p : Event → Bool} (hp : FrameKind p) {n : Nat} (hn : ∀ k, kindCount p k ≤ n)
    (s : State) (ks : List Sending) : (frameEvents s ks).countP p ≤ n * ks.length := by
  rw [hp.countP_frameEvents, Nat.mul_comm, ← smul_eq_mul, ← List.length_map (f := kindCount p)]
  exact List.sum_le_card_nsmul _ n (by simpa using fun k _ => hn k)

/-- Whether an event is the third failed attempt, which ends a transaction that fails (R70). -/
def isLastFailure : Event → Bool
  | .attempt k _ _ _ ok => k == 3 && !ok
  | _ => false

theorem countP_isLastFailure (s : State) (ks : List Sending) : (frameEvents s ks).countP isLastFailure = ks.count none := by
  have hkind : FrameKind isLastFailure := ⟨fun _ _ _ => rfl, fun _ _ _ _ _ => rfl⟩
  have hfail : kindCount isLastFailure = List.count none ∘ fun k => [k] := funext (by decide)
  rw [hkind.countP_frameEvents, hfail, ← List.count_flatMap, List.flatMap_singleton']

/-- Settles O36: whatever the link answers, each block's transaction has an outcome, and the outcome says how many events
of each kind it has. -/
theorem sendFrameAlwaysEnds : Obligations.SendFrameAlwaysEnds := by
  intro s hhost hmode hspeed blocks
  obtain ⟨ks, hcount, hlink⟩ := exists_linkGives_xferAnswers s blocks
  obtain ⟨t, hexec, ht⟩ := exec_sendFrame_blocksSent hhost hmode hspeed hcount hlink
  refine ⟨_, frameEvents s ks, hexec, ht.frameTrace, rfl, rfl, congrArg (·.fatalCause) ht.kept,
    congrArg (·.frameCount + 1) ht.kept, ?_, ?_, ?_, ht.skips.trans (congrArg (s.skipCount + BitVec.ofNat 32 ·) ?_)⟩
  · have hkind : FrameKind isFirstAttempt := ⟨fun _ _ _ => rfl, fun _ _ _ _ _ => rfl⟩
    have hone : kindCount isFirstAttempt = fun _ => 1 := funext (by decide)
    rw [hkind.countP_frameEvents, hone]
    simp [hcount]
  · have hkind : FrameKind isAttempt := ⟨fun _ _ _ => rfl, fun _ _ _ _ _ => rfl⟩
    exact hcount ▸ hkind.countP_frameEvents_le (by decide) s ks
  · have hkind : FrameKind isWait := ⟨fun _ _ _ => rfl, fun _ _ _ _ _ => rfl⟩
    exact hcount ▸ hkind.countP_frameEvents_le (by decide) s ks
  · exact (countP_isLastFailure s ks).symm

end Sys2Proof.Machine
end

section
/-! PROOFS. The statements of spec/43_convert.md. First what CONVERT_FRAME keeps under a quiet host (`ConvertMove`); then
rounding, by the bounds on the rounded quotient and its monotonicity, from which the laws of the tables follow; last the
fields of a packed pixel. -/

namespace Sys2Proof.Machine

/-! ### The frame of CONVERT_FRAME -/

/-- A state without what CONVERT_FRAME writes: the fields that acceptance and the normal end write, the sums, the tables,
PIXK and FB; and without the model faults and what the host has left to do. -/
def forgetConvert (s : State) : State :=
  { s with
    mode := .idle
    done := false
    lastOp := 0
    op := .runScript
    spdCmd := 0
    spdData := 0
    sumR := 0
    sumG := 0
    sumB := 0
    lutR := identityLut
    lutG := identityLut
    lutB := identityLut
    pixk := 0
    fb := []
    host := []
    faults := [] }

/-- `t` comes after `s` in a CONVERT_FRAME under a quiet host: only its own fields and the pixels' bytes of FB may differ. -/
structure ConvertMove (s t : State) : Prop where
  quiet : Quiet t
  kept : forgetConvert t = forgetConvert s
  fb : ∀ a, (∀ k, k < s.cfg.pixels → a ≠ 2 * k ∧ a ≠ 2 * k + 1) → memRead t.fb a = memRead s.fb a

namespace ConvertMove

variable {s t u : State}

theorem refl (h : Quiet s) : ConvertMove s s := ⟨h, rfl, fun _ _ => rfl⟩

/-- An update of forgotten fields that leaves FB and the host's program alone. -/
theorem update (h : ConvertMove s t) (hhost : u.host = t.host) (hfb : u.fb = t.fb)
    (hkept : forgetConvert u = forgetConvert t) : ConvertMove s u :=
  ⟨(congrArg (List.all · quietEvent) hhost).trans h.quiet, hkept.trans h.kept, fun a ha => hfb ▸ h.fb a ha⟩

theorem cfg (h : ConvertMove s t) : t.cfg = s.cfg :=
  congrArg (·.cfg) h.kept

theorem hostTurn (h : ConvertMove s t) : Ensures (hostTurn t) (fun _ => ConvertMove s) (ConvertMove s) := by
  obtain ⟨r, hr, hturn⟩ := hostTurn_quiet h.quiet
  rw [hturn]
  exact ⟨hr, h.kept, h.fb⟩

/-- A pixel of the frame is stored in its own two bytes (R45). -/
theorem storePixel (h : ConvertMove s t) {k : Nat} (hk : k < s.cfg.pixels) (w : Pixel) :
    ConvertMove s (storePixel k w t) := by
  refine ⟨h.quiet, h.kept, fun a ha => ?_⟩
  obtain ⟨hhigh, hlow⟩ := ha k hk
  rw [storePixel_fb, memRead_memWrite_ne _ _ hlow, memRead_memWrite_ne _ _ hhigh]
  exact h.fb a ha

end ConvertMove

/-- The rules of Flow.lean for what CONVERT_FRAME keeps. -/
theorem convertMove_convertRules (s : State) : ConvertRules s.cfg.pixels (ConvertMove s) (ConvertMove s) where
  pixels _ h := by rw [h.cfg]
  turn _ h := h.hostTurn
  pixel _ _ h := h.update rfl rfl rfl
  unwritten _ h := h.update rfl rfl rfl
  sums _ _ h := h.update rfl rfl rfl
  lut x t h := h.update (buildLut_host x t) (buildLut_fb x t) (by simp [forgetConvert])
  store _ w _ hk h := h.storePixel hk w

/-- An accepted CONVERT_FRAME makes its own moves alone. -/
theorem convertMove_hostWriteCmd {s : State} (hquiet : Quiet s) (hm : s.mode = .idle) :
    ConvertMove s (hostWriteCmd .convertFrame convertBody s) := by
  rw [hostWriteCmd_idle hm]
  have haccepted : ConvertMove s (acceptCmd .convertFrame s) := (ConvertMove.refl hquiet).update rfl rfl rfl
  have hbody := (convertMove_convertRules s).convertBody (fun _ h => h.update rfl rfl rfl) haccepted
  exact hbody.state (fun _ _ h => h) fun _ h => h

/-- Settles O38: a rejected write sets CMD_ERR alone, and an accepted one makes the moves of `ConvertMove`. -/
theorem convertFrameFrame : Obligations.ConvertFrameFrame := by
  intro s t hquiet hexec
  cases hexec
  by_cases hm : s.mode = .idle
  · obtain ⟨_, hkept, hfb⟩ := convertMove_hostWriteCmd hquiet hm
    simp only [forgetConvert, State.mk.injEq] at hkept
    simpa [hkept] using hfb
  · rw [hostWriteCmd_rejected hm]
    simp [hm]

/-! ### Rounding -/

/-- TRUNC is the floor (R85). -/
theorem roundDiv_trunc (a b : Nat) : roundDiv .trunc a b = a / b := rfl

/-- Twice the floor and twice the ceiling, as multiples of the divisor. -/
theorem two_mul_floor_ceil (a b : Nat) :
    2 * (a / b) * b + 2 * (a % b) = 2 * a ∧ 2 * (a / b + 1) * b + 2 * (a % b) = 2 * a + 2 * b := by
  have hdiv := Nat.div_add_mod a b
  constructor <;> linarith

/-- HALF_UP takes the integer nearest to the fraction, the upper one at a tie (R85). -/
theorem roundDiv_halfUp_bounds (a : Nat) {b : Nat} (hb : 0 < b) :
    2 * roundDiv .halfUp a b * b ≤ 2 * a + b ∧ 2 * a < 2 * roundDiv .halfUp a b * b + b := by
  obtain ⟨hfloor, hceil⟩ := two_mul_floor_ceil a b
  have hmod := Nat.mod_lt a hb
  simp only [roundDiv]
  split <;> omega

/-- HALF_EVEN takes an integer nearest to the fraction, the even one at a tie (R85). -/
theorem roundDiv_halfEven_bounds (a : Nat) {b : Nat} (hb : 0 < b) :
    2 * roundDiv .halfEven a b * b ≤ 2 * a + b ∧ 2 * a ≤ 2 * roundDiv .halfEven a b * b + b
      ∧ (2 * roundDiv .halfEven a b * b = 2 * a + b ∨ 2 * a = 2 * roundDiv .halfEven a b * b + b →
        roundDiv .halfEven a b % 2 = 0) := by
  obtain ⟨hfloor, hceil⟩ := two_mul_floor_ceil a b
  have hmod := Nat.mod_lt a hb
  simp only [roundDiv]
  split_ifs <;> omega

/-- Settles O47: the floor by division with remainder, the other two by their bounds. -/
theorem roundModes : Obligations.RoundModes := by
  intro a b hb
  refine ⟨⟨a % b, Nat.mod_lt a hb, ?_⟩, ?_, ?_⟩
  · rw [roundDiv_trunc, Nat.div_add_mod']
  · rintro _ rfl
    exact roundDiv_halfUp_bounds a hb
  · rintro _ rfl
    exact roundDiv_halfEven_bounds a hb

/-- The two rounding modes other than TRUNC come within half of the fraction. -/
theorem roundDiv_nearest {mode : Rounding} (hmode : mode ≠ .trunc) (a : Nat) {b : Nat} (hb : 0 < b) :
    2 * roundDiv mode a b * b ≤ 2 * a + b ∧ 2 * a ≤ 2 * roundDiv mode a b * b + b := by
  cases mode with
  | trunc => exact absurd rfl hmode
  | halfUp => exact (roundDiv_halfUp_bounds a hb).imp_right le_of_lt
  | halfEven =>
    obtain ⟨hlo, hhi, _⟩ := roundDiv_halfEven_bounds a hb
    exact ⟨hlo, hhi⟩

/-- A whole quotient is not rounded. -/
theorem roundDiv_mul_cancel (mode : Rounding) (v : Nat) {b : Nat} (hb : 0 < b) : roundDiv mode (v * b) b = v := by
  cases mode <;> simp [roundDiv, Nat.mul_div_cancel v hb, hb, hb.ne']

theorem roundDiv_zero (mode : Rounding) {b : Nat} (hb : 0 < b) : roundDiv mode 0 b = 0 := by
  simpa using roundDiv_mul_cancel mode 0 hb

/-- Rounding is monotone. Were `a < a'` rounded to integers in the other order, these would differ by 1 or more, so the
bounds of `roundDiv_nearest` would put `a'` at or below `a`. -/
theorem roundDiv_mono (mode : Rounding) {a a' b : Nat} (hb : 0 < b) (h : a ≤ a') :
    roundDiv mode a b ≤ roundDiv mode a' b := by
  rcases h.eq_or_lt with rfl | hlt
  · exact le_rfl
  by_cases hmode : mode = .trunc
  · subst hmode
    exact Nat.div_le_div_right h
  · obtain ⟨hlo, _⟩ := roundDiv_nearest hmode a hb
    obtain ⟨_, hhi⟩ := roundDiv_nearest hmode a' hb
    by_contra! hgt
    have hstep : (roundDiv mode a' b + 1) * b ≤ roundDiv mode a b * b := Nat.mul_le_mul_right b hgt
    linarith

/-! ### The laws of the tables -/

/-- An entry for a channel whose sum is not 0, as a number. -/
theorem toNat_lutAt_lutTable (mode : Rounding) {sc : Nat} (hsc : sc ≠ 0) (t : Nat) (v : Byte) :
    (lutAt (lutTable mode sc t) v).toNat = min (roundDiv mode (v.toNat * t) (3 * sc)) 255 := by
  rw [lutAt_lutTable, if_neg hsc, BitVec.toNat_ofNat]
  omega

/-- A table saturates where the rounded quotient reaches 255. -/
theorem lutAt_lutTable_saturated {mode : Rounding} {sc t : Nat} {v : Byte} (hsc : 0 < sc)
    (h : 255 ≤ roundDiv mode (v.toNat * t) (3 * sc)) : lutAt (lutTable mode sc t) v = 255 := by
  apply BitVec.eq_of_toNat_eq
  rw [toNat_lutAt_lutTable mode hsc.ne' t v, min_eq_right h]
  rfl

/-- R93 for one sum: a gain of 1 is the identity. -/
theorem lutAt_lutTable_equalSums (mode : Rounding) (sum : Nat) (v : Byte) :
    lutAt (lutTable mode sum (3 * sum)) v = v := by
  rcases Nat.eq_zero_or_pos sum with rfl | hsum
  · rw [lutAt_lutTable, if_pos rfl]
  · apply BitVec.eq_of_toNat_eq
    rw [toNat_lutAt_lutTable mode hsum.ne', roundDiv_mul_cancel mode _ (by omega)]
    omega

/-- Settles O50: the quotient `3 * sum * v / (3 * sum)` is whole, and a zero channel is not divided. -/
theorem equalSumsAreIdentity : Obligations.EqualSumsAreIdentity := fun mode sum t v => by
  rw [show sum + sum + sum = 3 * sum by omega]
  exact ⟨lutAt_lutTable_equalSums mode sum v, by rw [lutAt_lutTable, if_pos rfl]⟩

/-- Tables are nondecreasing in the sample and in the sum of the sums. -/
theorem lutAt_lutTable_mono (mode : Rounding) (sc : Nat) {t t' : Nat} {u v : Byte} (ht : t ≤ t')
    (h : u.toNat ≤ v.toNat) :
    (lutAt (lutTable mode sc t) u).toNat ≤ (lutAt (lutTable mode sc t') v).toNat := by
  by_cases hsc : sc = 0
  · simpa only [lutAt_lutTable, if_pos hsc] using h
  · rw [toNat_lutAt_lutTable mode hsc, toNat_lutAt_lutTable mode hsc]
    exact min_le_min_right 255 (roundDiv_mono mode (by omega) (Nat.mul_le_mul h ht))

/-- Settles O51: the entries are rounded quotients, which are monotone in the dividend and exact at whole multiples of the
divisor. -/
theorem lutLaws : Obligations.LutLaws := by
  intro mode sc t
  refine ⟨?zero, fun u v h => lutAt_lutTable_mono mode sc le_rfl h, fun v _ hgain => ?lowers,
    fun v hsc hhigh hmode => ?nearest, fun v hsc hhigh => ?any⟩
  case zero =>
    rw [lutAt_lutTable, show (0 : Byte).toNat = 0 from rfl, Nat.zero_mul]
    split
    · rfl
    · rw [roundDiv_zero mode (by omega)]
      rfl
  case lowers =>
    have hle := lutAt_lutTable_mono mode sc hgain (le_refl v.toNat)
    rwa [lutAt_lutTable_equalSums] at hle
  case nearest =>
    obtain ⟨_, hhi⟩ := roundDiv_nearest hmode (v.toNat * t) (show 0 < 3 * sc by omega)
    refine lutAt_lutTable_saturated hsc ?_
    by_contra! hlt
    have hstep : (roundDiv mode (v.toNat * t) (3 * sc) + 1) * (3 * sc) ≤ 255 * (3 * sc) := Nat.mul_le_mul_right _ hlt
    linarith
  case any =>
    have hmono := roundDiv_mono mode (show 0 < 3 * sc by omega) hhigh
    rw [roundDiv_mul_cancel mode 256 (by omega)] at hmono
    exact lutAt_lutTable_saturated hsc (by omega)

/-! ### The fields of a packed pixel -/

/-- The three fields of a packed pixel are the high bits of its samples (R91). -/
theorem pack565_fields (r g b : Byte) :
    (pack565 r g b).extractLsb' 11 5 = r.extractLsb' 3 5 ∧ (pack565 r g b).extractLsb' 5 6 = g.extractLsb' 2 6
      ∧ (pack565 r g b).extractLsb' 0 5 = b.extractLsb' 3 5 := by
  refine ⟨?red, ?green, BitVec.extractLsb'_append_eq_right⟩
  case red => exact (BitVec.extractLsb'_append_eq_of_le (by decide)).trans BitVec.extractLsb'_append_eq_left
  case green => exact (BitVec.extractLsb'_append_eq_of_le (by decide)).trans BitVec.extractLsb'_append_eq_right

/-- The bits of a packed pixel, from the low field up (R91). -/
theorem getLsbD_pack565 (r g b : Byte) {i : Nat} (hi : i < 16) :
    (pack565 r g b).getLsbD i = if i < 5 then b.getLsbD (3 + i)
      else if i < 11 then g.getLsbD (2 + (i - 5)) else r.getLsbD (3 + (i - 11)) := by
  have happend : (pack565 r g b).getLsbD i = if i < 5 then (b.extractLsb' 3 5).getLsbD i
      else (r.extractLsb' 3 5 ++ g.extractLsb' 2 6).getLsbD (i - 5) := BitVec.getLsbD_append
  simp only [happend, BitVec.getLsbD_append, BitVec.getLsbD_extractLsb']
  grind

/-- A sample has no bits above its eight, whatever width it is given. -/
theorem getLsbD_setWidth_sample (x : Byte) (i : Nat) : (x.setWidth 16).getLsbD i = x.getLsbD i := by
  rw [BitVec.getLsbD_setWidth, Bool.and_eq_right_iff_imp]
  exact fun hx => decide_eq_true ((BitVec.lt_of_getLsbD hx).trans (by decide))

/-- Pack565 in shifts (R91): each bit of the word comes from one of the three terms, and the other two have 0 there. -/
theorem pack565_shifts (r g b : Byte) :
    pack565 r g b = ((r.setWidth 16 >>> 3) <<< 11) ||| ((g.setWidth 16 >>> 2) <<< 5) ||| (b.setWidth 16 >>> 3) := by
  apply BitVec.eq_of_getLsbD_eq
  intro i hi
  simp only [getLsbD_pack565 r g b hi, BitVec.getLsbD_or, BitVec.getLsbD_shiftLeft, BitVec.getLsbD_ushiftRight,
    getLsbD_setWidth_sample, hi]
  by_cases hblue : i < 5
  · have hred : i < 11 := by omega
    simp [hblue, hred]
  · have hb : b.getLsbD (3 + i) = false := BitVec.getLsbD_of_ge b _ (by omega)
    by_cases hgreen : i < 11
    · simp [hblue, hgreen, hb]
    · have hg : g.getLsbD (2 + (i - 5)) = false := BitVec.getLsbD_of_ge g _ (by omega)
      simp [hblue, hgreen, hb, hg]

/-- Settles O48: the fields and the shifts of the word, and its two bytes read back from FB. -/
theorem packLayout : Obligations.PackLayout := by
  intro r g b k s
  obtain ⟨hred, hgreen, hblue⟩ := pack565_fields r g b
  refine ⟨hred, hgreen, hblue, pack565_shifts r g b, ?_, ?_⟩
  · rw [storePixel_fb, memRead_memWrite_ne _ _ (by omega), memRead_memWrite_same, pixelHigh]
  · rw [storePixel_fb, memRead_memWrite_same, pixelLow]

/-- Settles O49: each field is its sample divided by the step of the field's width. -/
theorem packQuantization : Obligations.PackQuantization := by
  intro r g b
  obtain ⟨hred, hgreen, hblue⟩ := pack565_fields r g b
  simp only [hred, hgreen, hblue, BitVec.extractLsb'_toNat, Nat.shiftRight_eq_div_pow]
  omega

end Sys2Proof.Machine
end

section
/-! PROOFS. The statements of spec/60_exceptions.md. What FATAL_HALT holds on to is named once (`FatalHeld`): a step from
there is the host's reset or keeps it. -/

namespace Sys2Proof.Machine

/-- `t` is as halted as `s`: the mode, what tells of the fatal error, the operation it came in, and FB are the same (R99). -/
structure FatalHeld (s t : State) : Prop where
  mode : t.mode = s.mode
  fatalCause : t.fatalCause = s.fatalCause
  sp : t.sp = s.sp
  faultByte : t.faultByte = s.faultByte
  fb : t.fb = s.fb
  lastOp : t.lastOp = s.lastOp

/-- No host access gets DSEQ out of FATAL_HALT or touches what is held there. -/
theorem FatalHeld.hostAccess (a : Access) (l : List HostEvent) (s : State) : FatalHeld s (hostAccess a (setHost l s)) where
  mode := hostAccess_mode a (setHost l s)
  fatalCause := hostAccess_fatalCause a (setHost l s)
  sp := hostAccess_sp a (setHost l s)
  faultByte := hostAccess_faultByte a (setHost l s)
  fb := hostAccess_fb a (setHost l s)
  lastOp := hostAccess_lastOp a (setHost l s)

/-- A step from FATAL_HALT is the host's reset or leaves DSEQ as halted as it was: the sequencer does not move, and a CMD
write is not accepted (R96, R99). -/
theorem step_fatalHalt {s t : State} (hmode : s.mode = .fatalHalt) (h : step s = .next t) :
    (∃ l, s.host = .reset :: l ∧ t = assertReset (setHost l s)) ∨ FatalHeld s t := by
  cases step_shape h with
  | still => exact .inr ⟨rfl, rfl, rfl, rfl, rfl, rfl⟩
  | polled => exact .inr ⟨rfl, rfl, rfl, rfl, rfl, rfl⟩
  | reset l hl => exact .inl ⟨l, hl, rfl⟩
  | access a l => exact .inr (.hostAccess a l s)
  | rejected => exact .inr ⟨rfl, rfl, rfl, rfl, rfl, rfl⟩
  | moved _ _ hrun => exact Mode.noConfusion (hmode.symm.trans hrun)
  | accepted _ _ hidle => exact Mode.noConfusion (hmode.symm.trans hidle)

/-- Settles O57: the reset ends in IDLE, and every other step from FATAL_HALT stays there with what is held. -/
theorem onlyResetLeavesFatal : Obligations.OnlyResetLeavesFatal := by
  intro s t hmode hstep
  rcases step_fatalHalt hmode hstep with ⟨l, hl, rfl⟩ | held
  · have hidle : (assertReset (setHost l s)).mode = .idle := assertReset_mode _
    exact ⟨fun _ => ⟨⟨l, hl⟩, hidle⟩, fun hfatal => Mode.noConfusion (hidle.symm.trans hfatal)⟩
  · exact ⟨fun hleft => absurd (held.mode.trans hmode) hleft,
      fun _ => ⟨held.fatalCause, held.sp, held.faultByte, held.fb, held.lastOp⟩⟩

/-- Settles O11: the step looks at the recorded faults before anything else. -/
theorem stepStopsAfterModelFault : Obligations.StepStopsAfterModelFault := by
  intro s f fs hfaults
  rw [step, hfaults]

/-- Settles O28: each of the four is a CMD write, which is rejected outside IDLE. -/
theorem rejectedCmdWrite : Obligations.RejectedCmdWrite := by
  intro i s hi hmode
  rcases hi with rfl | rfl | rfl | rfl
  all_goals exact congrArg Host.Outcome.next (hostWriteCmd_rejected hmode)

end Sys2Proof.Machine
end

section
/-! PROOFS. The statements of spec/70_reset_and_hazards.md. First which accesses are hazards, in numbers: register by
register and window by window, then for every read and every write the bus allows. -/

namespace Sys2Proof.Machine

/-! ### Hazards -/

/-- The offsets of the registers that CONVERT_FRAME works on: the sums and the LUT (R14, R29). -/
theorem regAt_sum_or_lut_iff {off : Nat} (h4 : off % 4 = 0) :
    (regAt off = .sumR ∨ regAt off = .sumG ∨ regAt off = .sumB ∨ ∃ i, regAt off = .lut i) ↔
      off = 0x034 ∨ off = 0x038 ∨ off = 0x03C ∨ 0x400 ≤ off ∧ off < 0x800 := by
  constructor
  · rintro (hreg | hreg | hreg | ⟨i, hreg⟩)
    all_goals
      have hoff := (regOffset_of_regAt hreg h4).resolve_left nofun
      simp only [regOffset] at hoff
      omega
  · rintro (rfl | rfl | rfl | hlut)
    · exact .inl rfl
    · exact .inr (.inl rfl)
    · exact .inr (.inr (.inl rfl))
    · obtain ⟨i, rfl⟩ : ∃ i : Fin 256, off = 0x400 + 4 * i.val := ⟨⟨(off - 0x400) / 4, by omega⟩, by simp only; omega⟩
      exact .inr (.inr (.inr ⟨i, regAt_lut i⟩))

/-- The register reads that are hazards while CONVERT_FRAME runs: the sums and the LUT (R117). -/
theorem isHazard_readReg_iff {off : Nat} (h : off < 0x1000) (h4 : off % 4 = 0) (s : State) :
    isHazard (.read (BitVec.ofNat 24 off) .w32) s = true ↔
      s.mode = .run ∧ s.op = .convertFrame ∧
        (off = 0x034 ∨ off = 0x038 ∨ off = 0x03C ∨ 0x400 ≤ off ∧ off < 0x800) := by
  rw [← regAt_sum_or_lut_iff h4]
  simp only [isHazard, accessAddr, regionOf_aperture s.cfg h]
  cases regAt off <;> simp [busy]

/-- The register writes that are hazards: those that change DC_OE while an operation with SPI attempts runs (R118 (b)). -/
theorem isHazard_writeReg_iff {off : Nat} (h : off < 0x1000) (v : Word) (s : State) :
    isHazard (.write (BitVec.ofNat 24 off) .w32 v) s = true ↔
      s.mode = .run ∧ s.op ≠ .convertFrame ∧ off = 0x008 ∧ v.getLsbD 0 ≠ s.gpioOe.dc := by
  by_cases hoff : off = 0x008
  · subst hoff
    have hattempts : makesAttempts s.op = true ↔ s.op ≠ .convertFrame := by cases s.op <;> simp [makesAttempts]
    have hreg : regAt 0x008 = .gpioOe := rfl
    simp [isHazard, accessAddr, regionOf_aperture s.cfg h, hreg, linesOfWord, busy, hattempts]
  · simp [isHazard_writeReg h hoff, hoff]

/-- The reads that are hazards, among those the bus allows: FB, the sums and the LUT while CONVERT_FRAME runs (R117). -/
theorem isHazard_read_iff {addr : Addr} {w : Width} {s : State} (hwf : s.cfg.wf = true)
    (h : accessAllowed s.cfg (.read addr w) = true) :
    isHazard (.read addr w) s = true ↔
      s.mode = .run ∧ s.op = .convertFrame ∧
        (0x200000 ≤ addr.toNat ∧ addr.toNat < 0x200000 + s.cfg.fbBytes ∨
          (addr.toNat = 0x034 ∨ addr.toNat = 0x038 ∨ addr.toNat = 0x03C ∨ 0x400 ≤ addr.toNat ∧ addr.toNat < 0x800)) := by
  obtain ⟨hraw, hfb, hrom⟩ := sizes_of_wf hwf
  have hpos := widthBytes_pos w
  obtain ⟨x, rfl, haddr⟩ : ∃ x, addr = BitVec.ofNat 24 x ∧ addr.toNat = x := ⟨addr.toNat, by simp, rfl⟩
  obtain ⟨hal, hin⟩ := (accessAllowed_iff hwf _).mp h
  simp only [accessWithin, accessAddr, accessWidth, haddr] at hal hin
  rw [haddr]
  rcases hin with ⟨hlow, rfl⟩ | ⟨hbase, hend⟩ | ⟨-, ⟨hbase, hend⟩ | ⟨hbase, hend⟩⟩
  case inl =>
    have hnot : ¬ (0x200000 ≤ x ∧ x < 0x200000 + s.cfg.fbBytes) := by omega
    rw [isHazard_readReg_iff hlow hal, or_iff_right hnot]
  all_goals obtain ⟨off, rfl⟩ := Nat.exists_eq_add_of_le hbase
  case inr.inl =>
    simp only [isHazard, accessAddr, regionOf_raw hwf (off := off) (by omega), Bool.and_false, Bool.false_eq_true,
      false_iff]
    rintro ⟨-, -, hread⟩
    omega
  case inr.inr.inl =>
    have hinside : 0x200000 ≤ 0x200000 + off ∧ 0x200000 + off < 0x200000 + s.cfg.fbBytes := by omega
    simp [isHazard, accessAddr, regionOf_fb hwf (off := off) (by omega), busy, hinside]
  case inr.inr.inr =>
    simp only [isHazard, accessAddr, regionOf_rom hwf (off := off) (by omega), Bool.and_false, Bool.false_eq_true,
      false_iff]
    rintro ⟨-, -, hread⟩
    omega

/-- The writes that are hazards, among those the bus allows: RAW while CONVERT_FRAME runs (R116), and a change of DC_OE while
an operation with SPI attempts runs (R118 (b)). -/
theorem isHazard_write_iff {addr : Addr} {w : Width} {v : Word} {s : State} (hwf : s.cfg.wf = true)
    (h : accessAllowed s.cfg (.write addr w v) = true) :
    isHazard (.write addr w v) s = true ↔
      s.mode = .run ∧
        (s.op = .convertFrame ∧ 0x100000 ≤ addr.toNat ∧ addr.toNat < 0x100000 + s.cfg.rawBytes ∨
          s.op ≠ .convertFrame ∧ (addr = 0x000008 ∧ w = .w32) ∧ v.getLsbD 0 ≠ s.gpioOe.dc) := by
  have hpos := widthBytes_pos w
  have hoe : addr = 0x000008 ↔ addr.toNat = 0x008 := BitVec.toNat_inj.symm
  rw [hoe]
  obtain ⟨x, rfl, haddr⟩ : ∃ x, addr = BitVec.ofNat 24 x ∧ addr.toNat = x := ⟨addr.toNat, by simp, rfl⟩
  obtain ⟨-, hin⟩ := (accessAllowed_iff hwf _).mp h
  simp only [accessWithin, accessAddr, accessWidth, isWrite, haddr, Bool.true_eq_false, false_and, or_false] at hin
  rw [haddr]
  rcases hin with ⟨hlow, rfl⟩ | ⟨hbase, hend⟩
  · have hnot : ¬ 0x100000 ≤ x := by omega
    simp [isHazard_writeReg_iff hlow, hnot]
  · obtain ⟨off, rfl⟩ := Nat.exists_eq_add_of_le hbase
    have hinside : 0x100000 ≤ 0x100000 + off ∧ 0x100000 + off < 0x100000 + s.cfg.rawBytes := by omega
    have hnot : 0x100000 + off ≠ 0x008 := by omega
    simp [isHazard, accessAddr, regionOf_raw hwf (off := off) (by omega), busy, hinside, hnot]

/-- Settles O44: among the allowed accesses the model's test for a hazard is the stated one; a hazard is only recorded, and
every other access is made. -/
theorem hazards : Obligations.Hazards := by
  intro a s hwf hallowed x hazard
  have hiff : isHazard a s = true ↔ hazard := by
    cases a with
    | read addr w => simp [isHazard_read_iff hwf hallowed, hazard, x, isWrite, accessAddr]
    | write addr w v => simp [isHazard_write_iff hwf hallowed, hazard, x, isWrite, accessAddr, and_assoc]
  exact ⟨fun h => hostAccess_hazard hallowed (hiff.mpr h),
    fun h => hostAccess_made hallowed (Bool.eq_false_iff.mpr fun hz => h (hiff.mp hz))⟩

/-! ### Reset -/

/-- Settles O53: between two steps and inside an operation alike, the host's reset ends in `assertReset`, which leaves no line
driven. -/
theorem resetFromAnyState : Obligations.ResetFromAnyState := by
  intro s more hhost t
  have hreset : assertReset (setHost more s) = t := rfl
  refine ⟨fun hfaults => ?step, ?turn, fun l => ?pins, rfl, rfl, rfl⟩
  case step =>
    rw [← hreset, step_of_noFault hfaults]
    simp only [stepCore, hhost]
  case turn =>
    obtain ⟨-, -, -, hturn, -⟩ := hostTurnOrder s more
    exact hreset ▸ hturn hhost
  case pins => cases l <;> rfl

end Sys2Proof.Machine
end
